-- ==== Sys2Proof/Word.lean ====
section
/-! DEFINITION. The widths of the SIA CPU (spec/00_scope.md R3 to R6): the 64-bit word, the byte, the register
number and the operand size. -/

namespace Sys2Proof

/-- A word: 64 bits, the width of a register, of an address and of an instruction word (00_scope.md section 4). -/
abbrev Word := BitVec 64

/-- A byte is 8 bits (00_scope.md R5). -/
abbrev Byte := BitVec 8

/-- The number of a general register, the value of a 4-bit field (10_state.md R20). -/
abbrev Reg := Fin 16

/-- A size suffix `n`, one of 1, 2, 4, 8, a byte count (00_scope.md R5). -/
inductive Size where
  | b1 | b2 | b4 | b8
deriving DecidableEq, Repr

/-- How many bytes a size suffix counts (00_scope.md R5). -/
abbrev Size.bytes : Size → Nat
  | .b1 => 1
  | .b2 => 2
  | .b4 => 4
  | .b8 => 8

/-- `W = 8*n`, the width in bits of the values an `n`-suffixed instruction works on (00_scope.md R5). -/
abbrev Size.bits (sz : Size) : Nat := 8 * sz.bytes

end Sys2Proof
end

