-- ==== Sys2Proof/Config.lean ====
section
/-! DEFINITION. What an implementation fixes (the parameters of spec/00_scope.md section 4) and the free values of the
model (00_scope.md R15). A constant without a body is a free value: nothing is known of it, so a statement that holds
of it holds of every value it could have. -/

namespace Sys2Proof

/-- `ENDIAN` (20_memory.md R40). -/
inductive Endian where
  | little | big
deriving DecidableEq, Repr

/-- `SUBWORD_WRITE`: what the upper bits of a register become when a result narrower than 8 bytes is written to it
(00_scope.md R9). -/
inductive SubwordWrite where
  | unspecified | zero | sign | preserve
deriving DecidableEq, Repr

/-- `ALU_FLAGS`: what an arithmetic, logic, shift or FPU instruction does to the flags (00_scope.md R8). -/
inductive AluFlags where
  | unspecified | unchanged
deriving DecidableEq, Repr

/-- `SUB_CARRY`: the polarity of C after a compare (00_scope.md R13). -/
inductive SubCarry where
  | borrow | notBorrow
deriving DecidableEq, Repr

/-- A range of addresses, `lo` up to but not including `hi`. -/
structure CodeRange where
  lo : Nat
  hi : Nat
deriving DecidableEq, Repr

/-- The implementation parameters of 00_scope.md section 4, fixed for a run. The state carries them so that a statement
about every state is a statement about every value of them (notes/assumptions/1.md). -/
structure Params where
  /-- `MEM_SIZE` (decision D4), `0 < MEM_SIZE <= 2^64`. -/
  memSize : Nat
  /-- `IO_SIZE` (decision D5). -/
  ioSize : Nat
  /-- `ENDIAN` (20_memory.md R40). -/
  endian : Endian
  /-- `RESET_PC` (decision D35). -/
  resetPc : Word
  /-- `RESET_SP` (decision D35). -/
  resetSp : Word
  /-- `CODE_RANGE` (20_memory.md R47, R52). -/
  codeRange : CodeRange
  /-- `SUBWORD_WRITE` (00_scope.md R9). -/
  subwordWrite : SubwordWrite
  /-- `ALU_FLAGS` (00_scope.md R8). -/
  aluFlags : AluFlags
  /-- `SUB_CARRY` (00_scope.md R13). -/
  subCarry : SubCarry
  /-- `DIV_SIGNED` (41_arithmetic.md R141). -/
  divSigned : Bool
  /-- `SHIFT_COUNT`, a constant in 0..63 (42_logic_shift.md R150). -/
  shiftCount : Fin 64
deriving DecidableEq, Repr

/-- The floating-point numerics record `fp` of 47_fpu.md R290: sixteen total functions on bit vectors, each a function
of its operands alone. -/
structure Fp where
  add32 : BitVec 32 → BitVec 32 → BitVec 32
  sub32 : BitVec 32 → BitVec 32 → BitVec 32
  mul32 : BitVec 32 → BitVec 32 → BitVec 32
  div32 : BitVec 32 → BitVec 32 → BitVec 32
  add64 : BitVec 64 → BitVec 64 → BitVec 64
  sub64 : BitVec 64 → BitVec 64 → BitVec 64
  mul64 : BitVec 64 → BitVec 64 → BitVec 64
  div64 : BitVec 64 → BitVec 64 → BitVec 64
  sqrt32 : BitVec 32 → BitVec 32
  sin32 : BitVec 32 → BitVec 32
  cos32 : BitVec 32 → BitVec 32
  intfloat32 : BitVec 32 → BitVec 32
  sqrt64 : BitVec 64 → BitVec 64
  sin64 : BitVec 64 → BitVec 64
  cos64 : BitVec 64 → BitVec 64
  intfloat64 : BitVec 64 → BitVec 64
deriving Inhabited

/-- The machine's `fp` record, uninterpreted (47_fpu.md R290; notes/assumptions/16.md). -/
opaque Config.fp : Fp

/-- The free values of the step (00_scope.md R15): `draw k` is the value of the `k`-th draw of a run. The state's counter
`draws` says which draw comes next (notes/assumptions/6.md). -/
opaque Config.draw : Nat → Word

/-- What the byte at an address that nothing has written reads as, `ANY_8` (10_state.md R34;
notes/assumptions/10.md). -/
opaque Config.initialByte : Nat → Byte

/-- What a general register holds after reset, `ANY_64` (10_state.md R34; notes/assumptions/8.md). -/
opaque Config.resetReg : Reg → Word

/-- Z after reset, `ANY_1` (10_state.md R34; notes/assumptions/9.md). -/
opaque Config.resetZ : Bool

/-- N after reset, `ANY_1` (10_state.md R34; notes/assumptions/9.md). -/
opaque Config.resetN : Bool

/-- C after reset, `ANY_1` (10_state.md R34; notes/assumptions/9.md). -/
opaque Config.resetC : Bool

/-- V after reset, `ANY_1` (10_state.md R34; notes/assumptions/9.md). -/
opaque Config.resetV : Bool

/-- `DIV_SIGNED` has no working value (00_scope.md section 4): at reset it is free (notes/assumptions/4.md). -/
opaque Config.divSigned : Bool

/-- The parameters with the working values of 00_scope.md section 4; `MEM_SIZE` and `IO_SIZE`, which have none, with the
values of the test vectors (95_test_vectors.md; notes/assumptions/2.md and 3.md); `CODE_RANGE` empty, nothing being
loaded (notes/assumptions/15.md). -/
def Params.working : Params where
  memSize := 0x10000
  ioSize := 2 ^ 64
  endian := .little
  resetPc := 0
  resetSp := 0x10000
  codeRange := ⟨0, 0⟩
  subwordWrite := .unspecified
  aluFlags := .unspecified
  subCarry := .borrow
  divSigned := Config.divSigned
  shiftCount := 1

end Sys2Proof
end

