-- ==== Sys2Proof/Machine/State.lean ====
section
/-! DEFINITION. The architectural state (spec/10_state.md), what can stop the machine, and the state after reset
(10_state.md R34). -/

namespace Sys2Proof.Machine

/-- The four flags, each one bit; they form no register (10_state.md R26). -/
structure Flags where
  z : Bool
  n : Bool
  c : Bool
  v : Bool
deriving DecidableEq, Repr

/-- The fault kinds, complete (60_exceptions.md R321). -/
inductive FaultKind where
  /-- Fetch at a `pc` that is not a multiple of 8; info: the address (20_memory.md R43). -/
  | misalignedFetch
  /-- Access with `u(a) + n > MEM_SIZE`; info: the address (20_memory.md R45). -/
  | memOutOfRange
  /-- Opcode not in the map, or 0x00A3 or 0x00A4; info: the instruction word (30_encoding.md R73, R74). -/
  | illegalOpcode
  /-- Non-zero zero field or unused RD; info: the instruction word (30_encoding.md R68, R69). -/
  | illegalEncoding
  /-- Zero divisor of DIV or DIVn; info: `pc` (41_arithmetic.md R141). -/
  | divideByZero
  /-- Most negative dividend by -1 when `DIV_SIGNED`; info: `pc` (41_arithmetic.md R141). -/
  | divideOverflow
  /-- I/O address not below `IO_SIZE`; info: the I/O address (46_io.md R280). -/
  | ioOutOfRange
deriving DecidableEq, Repr

/-- What `raise Fault(kind, info)` records (00_scope.md R14). -/
structure FaultInfo where
  kind : FaultKind
  info : Word
deriving DecidableEq, Repr

/-- The run state (10_state.md R28). -/
inductive RunState where
  | running
  | halted
  | faulted (kind : FaultKind) (info : Word)
deriving DecidableEq, Repr

/-- An event of the I/O trace (46_io.md R281). -/
inductive IOEvent where
  | write (addr : Word) (b : Byte)
  | read (addr : Word) (b : Byte)
  | show (addr : Word)
deriving DecidableEq, Repr

/-- Memory: the bytes written so far, each with its address, in the canonical form `Memory.wf` (Machine/Memory.lean). -/
abbrev Memory := List Host.Cell

/-- The whole state of the machine (10_state.md). -/
structure State where
  /-- The parameters of the run (00_scope.md section 4). -/
  par : Params
  /-- R0 to R15 (R20). -/
  regs : Vector Word 16
  /-- The program counter, a byte address (R23). -/
  pc : Word
  /-- The model's own: the advance that led to `pc` carried out of 64 bits, so `pc` has left memory at the top, whatever its 64 bits
  now say (R24; notes/assumptions/22.md). -/
  pcWrapped : Bool
  /-- The stack pointer, a register of its own (R25). -/
  sp : Word
  /-- Z, N, C, V (R26). -/
  flags : Flags
  /-- The run state (R28). -/
  run : RunState
  /-- Memory (R31). -/
  mem : Memory
  /-- The I/O trace, oldest event first (46_io.md R281). -/
  ioTrace : List IOEvent
  /-- The model's own: the number of the next free value `Config.draw` (00_scope.md R15; notes/assumptions/6.md). -/
  draws : Nat
deriving DecidableEq, Repr

/-- Why a step answers a fault: only because there is no step any more (00_scope.md R16, 10_state.md R28). Raising one of the
spec's faults is a NEXT state, whose run state is `faulted` (notes/assumptions/12.md). -/
inductive Fault where
  /-- Raised by `step` in the run state Halted: PARAR has stopped the CPU. Safe: the spec gives no step here. -/
  | halted
  /-- Raised by `step` in the run state Faulted, with what was recorded. Safe: the spec gives no step here. -/
  | faulted (kind : FaultKind) (info : Word)
deriving DecidableEq, Repr

/-- Why an instruction has no meaning in this model. -/
inductive Refusal where
  /-- Raised by `exec` for an instruction that is not modelled yet. Safe: the model stops. No arm of `exec` answers it. -/
  | notModelled (mnemonic : String)
deriving DecidableEq, Repr

/-- The outcome of an instruction or of a step. -/
abbrev Outcome := Host.Outcome State Fault Refusal

/-- The machine right after reset under parameters `p`, with nothing loaded (10_state.md R34, 70_reset_and_hazards.md R340):
`pc` and `sp` as the parameters say, Running, an empty trace; registers, flags and memory unspecified, that is free
values (notes/assumptions/8.md, 9.md and 10.md). -/
def State.resetWith (p : Params) : State where
  par := p
  regs := #v[Config.resetReg 0, Config.resetReg 1, Config.resetReg 2, Config.resetReg 3,
    Config.resetReg 4, Config.resetReg 5, Config.resetReg 6, Config.resetReg 7,
    Config.resetReg 8, Config.resetReg 9, Config.resetReg 10, Config.resetReg 11,
    Config.resetReg 12, Config.resetReg 13, Config.resetReg 14, Config.resetReg 15]
  pc := p.resetPc
  pcWrapped := false
  sp := p.resetSp
  flags := ⟨Config.resetZ, Config.resetN, Config.resetC, Config.resetV⟩
  run := .running
  mem := []
  ioTrace := []
  draws := 0

/-- The machine right after reset with the working values of the parameters. -/
def State.reset : State := State.resetWith Params.working

end Sys2Proof.Machine
end

