-- ==== Sys2Proof/Machine/Flags.lean ====
section
/-! DEFINITION. What instructions do to the flags (spec/00_scope.md R8, R13) and the conditions the jumps test
(45_jump_call_stack.md R250 to R258). -/

namespace Sys2Proof.Machine

/-- `FlagsSub(n, a, b)` (00_scope.md R13). -/
def flagsSub (carry : SubCarry) {w : Nat} (a b : BitVec w) : Flags where
  z := a - b == 0
  n := (a - b).msb
  c := match carry with
    | .borrow => decide (a.toNat < b.toNat)
    | .notBorrow => decide (b.toNat ≤ a.toNat)
  v := a.msb != b.msb && (a - b).msb != a.msb

/-- One bit of a draw: an `ANY_1` (00_scope.md R15). -/
def drawBit (k : Nat) : Bool := (Config.draw k).getLsbD 0

/-- `HavocFlags()` (00_scope.md R8): each flag takes a draw of its own, or nothing happens. -/
def havocFlags (s : State) : State :=
  match s.par.aluFlags with
  | .unspecified =>
    { s with
      flags := ⟨drawBit s.draws, drawBit (s.draws + 1), drawBit (s.draws + 2), drawBit (s.draws + 3)⟩
      draws := s.draws + 4 }
  | .unchanged => s

/-- `(V xor N) = 1`, the condition of JLT (45_jump_call_stack.md R257). -/
def Flags.signedLess (f : Flags) : Bool := f.v ^^ f.n

end Sys2Proof.Machine
end

