-- ==== Sys2Proof/Machine/Bytes.lean ====
section
/-! DEFINITION. The byte order of spec/20_memory.md R40, decided once: how a value of `n` bytes and the list of its bytes
at rising addresses correspond. -/

namespace Sys2Proof.Machine

/-- The number whose least significant byte comes first in the list. -/
def natOfBytes : List Byte → Nat
  | [] => 0
  | b :: bs => b.toNat + 256 * natOfBytes bs

/-- The `n` low bytes of a number, the least significant first. -/
def bytesOfNat : Nat → Nat → List Byte
  | 0, _ => []
  | n + 1, v => BitVec.ofNat 8 v :: bytesOfNat n (v / 256)

/-- A list of bytes least significant first, seen in (or put into) address order: `little` keeps it, `big` reverses it
(20_memory.md R40). -/
def ordered (e : Endian) (bs : List Byte) : List Byte :=
  match e with
  | .little => bs
  | .big => bs.reverse

/-- The value of `n` bytes standing at rising addresses (`MemRead` of 20_memory.md R40). -/
def assemble (e : Endian) (n : Nat) (bs : List Byte) : BitVec (8 * n) :=
  BitVec.ofNat (8 * n) (natOfBytes (ordered e bs))

/-- The `n` bytes of a value, as they stand at rising addresses (`MemWrite` of 20_memory.md R40). -/
def disassemble (e : Endian) (n : Nat) (v : BitVec (8 * n)) : List Byte :=
  ordered e (bytesOfNat n v.toNat)

end Sys2Proof.Machine
end

