-- ==== Sys2Proof/Machine/Memory.lean ====
section
/-! DEFINITION. Memory as data (spec/10_state.md R31, 20_memory.md R46): the canonical form, and reading and writing bytes.
No range is checked here: that is `memRead` and `memWrite` of Machine/Ops.lean. -/

namespace Sys2Proof.Machine

/-- The canonical form: addresses strictly rising. A byte that nothing has written has no value in the list, so no entry
can equal what an unlisted address holds (notes/assumptions/10.md). -/
def Memory.wf : Memory → Bool
  | [] => true
  | [_] => true
  | (a, _) :: (b, c) :: m => decide (a < b) && Memory.wf ((b, c) :: m)

/-- The byte written last to an address, `none` if nothing has written it. -/
def Memory.lookup : Memory → Nat → Option Byte
  | [], _ => none
  | (k, b) :: m, a => if a = k then some b else Memory.lookup m a

/-- What an address reads as: the byte written last, or the reset content, which is unspecified (20_memory.md R46, R49;
10_state.md R34). -/
def Memory.read (m : Memory) (a : Nat) : Byte := (Memory.lookup m a).getD (Config.initialByte a)

/-- Writing one byte. -/
def Memory.write : Memory → Nat → Byte → Memory
  | [], a, b => [(a, b)]
  | (k, c) :: m, a, b =>
    if a < k then (a, b) :: (k, c) :: m
    else if a = k then (a, b) :: m
    else (k, c) :: Memory.write m a b

/-- The `n` bytes from an address upwards. -/
def Memory.readBytes (m : Memory) (a : Nat) : Nat → List Byte
  | 0 => []
  | n + 1 => Memory.read m a :: Memory.readBytes m (a + 1) n

/-- Writing bytes from an address upwards. -/
def Memory.writeBytes (m : Memory) (a : Nat) : List Byte → Memory
  | [] => m
  | b :: bs => Memory.writeBytes (Memory.write m a b) (a + 1) bs

/-- Writing 64-bit words from an address upwards, each in the byte order `e` (70_reset_and_hazards.md R345). -/
def Memory.writeWords (e : Endian) (m : Memory) (a : Nat) : List Word → Memory
  | [] => m
  | w :: ws => Memory.writeWords e (Memory.writeBytes m a (disassemble e 8 w)) (a + 8) ws

/-- Writing single bytes, each at its address. -/
def Memory.writeCells (m : Memory) : List Host.Cell → Memory
  | [] => m
  | (a, b) :: cs => Memory.writeCells (Memory.write m a b) cs

end Sys2Proof.Machine
end

