-- ==== Sys2Proof/Machine/Operands.lean ====
section
/-! DEFINITION. Operands: reading and writing registers (spec/00_scope.md R6, R9), the low part of a register or immediate
that a sized instruction works on (R5, 30_encoding.md R66), and the addressing modes (43_move_load_store.md R170). -/

namespace Sys2Proof.Machine

/-- `x[i]` (00_scope.md R6). -/
def State.reg (s : State) (i : Reg) : Word := s.regs.get i

/-- `x[i] <- v` (00_scope.md R6). -/
def State.setReg (s : State) (i : Reg) (v : Word) : State := { s with regs := s.regs.set i.val v i.isLt }

/-- Bits `8n-1:0` of a register or of an immediate, which is all that an `n`-suffixed instruction uses of it (41_arithmetic.md
R100 (b), 30_encoding.md R66). -/
def low (sz : Size) (w : Word) : BitVec sz.bits := w.setWidth sz.bits

/-- The `n`-byte operand in a register (41_arithmetic.md R100 (b)). -/
def State.regLow (s : State) (sz : Size) (i : Reg) : BitVec sz.bits := low sz (s.reg i)

/-- `hi[63:W] ++ v` for a `W`-bit `v` (00_scope.md R9). -/
def mergeLow {w : Nat} (hi : Word) (v : BitVec w) : Word := ((hi >>> w) <<< w) ||| v.setWidth 64

/-- The register value that a result `v` of `n` bytes makes of the old value (00_scope.md R9): all 64 bits for `n = 8`; for a
smaller `n` the upper bits by `SUBWORD_WRITE`, where `free` is the fresh draw of `unspecified`. -/
def lowResult (p : SubwordWrite) (sz : Size) (old free : Word) (v : BitVec sz.bits) : Word :=
  match sz with
  | .b8 => v.setWidth 64
  | _ =>
    match p with
    | .unspecified => mergeLow free v
    | .zero => v.setWidth 64
    | .sign => v.signExtend 64
    | .preserve => mergeLow old v

/-- How many draws `WriteLow` takes: one, if it leaves upper bits unspecified (00_scope.md R9). -/
def lowDraws (p : SubwordWrite) (sz : Size) : Nat :=
  match sz, p with
  | .b8, _ => 0
  | _, .unspecified => 1
  | _, _ => 0

/-- `WriteLow(i, n, v)` (00_scope.md R9). -/
def writeLow (sz : Size) (i : Reg) (v : BitVec sz.bits) (s : State) : State :=
  { s.setReg i (lowResult s.par.subwordWrite sz (s.reg i) (Config.draw s.draws) v) with
    draws := s.draws + lowDraws s.par.subwordWrite sz }

/-- Effective address of the immediate-absolute mode, `ea = imm` (43_move_load_store.md R170 (a)). -/
def eaImm (imm : Word) : Word := imm

/-- Effective address of the register-indirect mode, `ea = x[i]` (43_move_load_store.md R170 (a)). -/
def eaReg (i : Reg) (s : State) : Word := s.reg i

/-- The operand roles of STORERn: the register that holds the address and the register that holds the data
(43_move_load_store.md R170 (c), decision D27; the one place to swap them, notes/assumptions/24.md). -/
def storerRoles (rd rs : Reg) : Reg × Reg := (rd, rs)

end Sys2Proof.Machine
end

