-- ==== Sys2Proof/Machine/Ops.lean ====
section
/-! DEFINITION. The named operations every meaning is written with: the primitives of spec/00_scope.md section 6 and the
shapes that the instruction rules of files 41 to 47 share. -/

namespace Sys2Proof.Machine

/-! ## Faults -/

/-- `raise Fault(kind, info)` (00_scope.md R14, 60_exceptions.md R324): the run state becomes `Faulted(kind, info)` and nothing
else changes. There is no handler to go to, nothing is saved, and there is no return (60_exceptions.md R325). -/
def raise (f : FaultInfo) (s : State) : Outcome := .next { s with run := .faulted f.kind f.info }

/-- The end of an instruction that started in `s`: the state it computed, or its fault raised in `s`, so that a faulting
instruction has written nothing (00_scope.md R14). -/
def commit (s : State) (r : Except FaultInfo State) : Outcome :=
  match r with
  | .ok t => .next t
  | .error f => raise f s

/-! ## The program counter -/

/-- The implicit step `pc <- pc + len`, modulo 2^64 (00_scope.md R7, 10_state.md R24); a carry out of the 64 bits is remembered,
because execution never wraps from the top of memory to address 0 (R24). -/
def State.advance (s : State) (len : Word) : State :=
  { s with pc := s.pc + len, pcWrapped := decide (2 ^ 64 ≤ s.pc.toNat + len.toNat) }

/-- `pc <- t` (00_scope.md R7). -/
def State.goTo (s : State) (t : Word) : State := { s with pc := t, pcWrapped := false }

/-- The length in bytes of formats OP, R and RR (30_encoding.md R65). -/
def lenShort : Word := 8

/-- The length in bytes of format RI (30_encoding.md R65). -/
def lenRI : Word := 16

/-! ## Memory -/

/-- An access of `n` bytes at `a` is legal (20_memory.md R45), computed on natural numbers. -/
def inRange (s : State) (a : Word) (sz : Size) : Bool := decide (a.toNat + sz.bytes ≤ s.par.memSize)

/-- `MemRead(a, n)` (00_scope.md R10, 20_memory.md R40, R45). -/
def memRead (s : State) (a : Word) (sz : Size) : Except FaultInfo (BitVec sz.bits) :=
  if inRange s a sz then .ok (assemble s.par.endian sz.bytes (Memory.readBytes s.mem a.toNat sz.bytes))
  else .error ⟨.memOutOfRange, a⟩

/-- `MemWrite(a, n, v)` (00_scope.md R10, 20_memory.md R40, R45). -/
def memWrite (s : State) (a : Word) (sz : Size) (v : BitVec sz.bits) : Except FaultInfo State :=
  if inRange s a sz then
    .ok { s with mem := Memory.writeBytes s.mem a.toNat (disassemble s.par.endian sz.bytes v) }
  else .error ⟨.memOutOfRange, a⟩

/-- The address a push of `n` bytes writes at: `sp - n` modulo 2^64 (00_scope.md R11). -/
def pushAddr (sz : Size) (s : State) : Word := s.sp - BitVec.ofNat 64 sz.bytes

/-- `Push(n, v)` (00_scope.md R11). Below address 0 it faults, whatever MEM_SIZE (45_jump_call_stack.md R270, R265 to R268;
notes/assumptions/31.md). -/
def push (sz : Size) (v : BitVec sz.bits) (s : State) : Except FaultInfo State :=
  if s.sp.toNat < sz.bytes then .error ⟨.memOutOfRange, pushAddr sz s⟩
  else (memWrite s (pushAddr sz s) sz v).map fun t => { t with sp := pushAddr sz s }

/-- `Pop(n)` (00_scope.md R11): the value, and the state with `sp` moved up. -/
def pop (sz : Size) (s : State) : Except FaultInfo (BitVec sz.bits × State) :=
  (memRead s s.sp sz).map fun v => (v, { s with sp := s.sp + BitVec.ofNat 64 sz.bytes })

/-! ## I/O -/

/-- An I/O operation at address `a` that adds the event `e` to the trace (46_io.md R280, R281), after the check of `IO_SIZE`. -/
def ioCall (a : Word) (e : IOEvent) (s : State) : Except FaultInfo State :=
  if a.toNat < s.par.ioSize then .ok { s with ioTrace := s.ioTrace ++ [e] }
  else .error ⟨.ioOutOfRange, a⟩

/-- `IOWrite(a, b)` (46_io.md R280). -/
def ioWrite (a : Word) (b : Byte) (s : State) : Except FaultInfo State := ioCall a (.write a b) s

/-- The byte the I/O system answers to the next read, `ANY_8`: a draw (46_io.md R280). -/
def ioAnswer (s : State) : Byte := (Config.draw s.draws).setWidth 8

/-- `IORead(a)` (46_io.md R280): the state with the event and the draw taken; the byte is `ioAnswer s`. -/
def ioRead (a : Word) (s : State) : Except FaultInfo State :=
  (ioCall a (.read a (ioAnswer s)) s).map fun t => { t with draws := s.draws + 1 }

/-- `IOShow(a)` (46_io.md R280). -/
def ioShow (a : Word) (s : State) : Except FaultInfo State := ioCall a (.show a) s

/-! ## Integer arithmetic -/

/-- `trunc_W(u(a) * u(b))` (41_arithmetic.md R104). -/
def mulUnsigned {w : Nat} (a b : BitVec w) : BitVec w := BitVec.ofNat w (a.toNat * b.toNat)

/-- `trunc_W(s(a) * s(b))` (41_arithmetic.md R103). -/
def mulSigned {w : Nat} (a b : BitVec w) : BitVec w := BitVec.ofInt w (a.toInt * b.toInt)

/-- Division (41_arithmetic.md R141): the quotient, rounded toward zero when the operands are signed; the faults record
`pc`. -/
def divide (signed : Bool) (pc : Word) {w : Nat} (a b : BitVec w) : Except FaultInfo (BitVec w) :=
  if b = 0 then .error ⟨.divideByZero, pc⟩
  else if signed then
    if a.toInt = -(2 ^ (w - 1)) ∧ b.toInt = -1 then .error ⟨.divideOverflow, pc⟩
    else .ok (BitVec.ofInt w (a.toInt.tdiv b.toInt))
  else .ok (BitVec.ofNat w (a.toNat / b.toNat))

/-! ## Shapes of instructions -/

/-- The end of an arithmetic, logic, shift or FPU instruction: `WriteLow(rd, n, r); HavocFlags()` and the advance of `pc`
(41_arithmetic.md R100, 42_logic_shift.md R150, 47_fpu.md R292). -/
def aluFinish (sz : Size) (rd : Reg) (r : BitVec sz.bits) (len : Word) (s : State) : State :=
  (havocFlags (writeLow sz rd r s)).advance len

/-- `r <- f(x[rd], x[rs])` on `n` bytes, format RR (41_arithmetic.md R100). -/
def aluRR (sz : Size) (f : BitVec sz.bits → BitVec sz.bits → BitVec sz.bits) (rd rs : Reg) (s : State) : Outcome :=
  .next (aluFinish sz rd (f (s.regLow sz rd) (s.regLow sz rs)) lenShort s)

/-- `r <- f(x[rd], imm)` on `n` bytes, format RI (41_arithmetic.md R100, 30_encoding.md R66). -/
def aluRI (sz : Size) (f : BitVec sz.bits → BitVec sz.bits → BitVec sz.bits) (rd : Reg) (imm : Word) (s : State) : Outcome :=
  .next (aluFinish sz rd (f (s.regLow sz rd) (low sz imm)) lenRI s)

/-- `r <- f(x[rd])` on `n` bytes, format R. -/
def aluR (sz : Size) (f : BitVec sz.bits → BitVec sz.bits) (rd : Reg) (s : State) : Outcome :=
  .next (aluFinish sz rd (f (s.regLow sz rd)) lenShort s)

/-- DIV and DIVn (41_arithmetic.md R105, R141). -/
def divRR (sz : Size) (rd rs : Reg) (s : State) : Outcome :=
  commit s ((divide s.par.divSigned s.pc (s.regLow sz rd) (s.regLow sz rs)).map fun r => aluFinish sz rd r lenShort s)

/-- `WriteLow(rd, n, v)` and the advance of `pc`: the end of a move or load (43_move_load_store.md R170 (d)). -/
def moveFinish (sz : Size) (rd : Reg) (v : BitVec sz.bits) (len : Word) (s : State) : State :=
  (writeLow sz rd v s).advance len

/-- A load of `n` bytes from `ea` (43_move_load_store.md R171, R173, R183 to R190). -/
def loadFrom (sz : Size) (rd : Reg) (ea len : Word) (s : State) : Outcome :=
  commit s ((memRead s ea sz).map fun v => moveFinish sz rd v len s)

/-- A store of the low `n` bytes of register `data` to `ea` (43_move_load_store.md R174, R191 to R198). -/
def storeTo (sz : Size) (data : Reg) (ea len : Word) (s : State) : Outcome :=
  commit s ((memWrite s ea sz (s.regLow sz data)).map fun t => t.advance len)

/-- A compare on `n` bytes (44_compare_flags.md R220). -/
def compare {w : Nat} (a b : BitVec w) (len : Word) (s : State) : Outcome :=
  .next ({ s with flags := flagsSub s.par.subCarry a b }.advance len)

/-- `Z`, `N`, `C` or `V` given a value by a format OP instruction (44_compare_flags.md R231 to R238). -/
def setFlags (f : Flags) (s : State) : Outcome := .next ({ s with flags := f }.advance lenShort)

/-- A jump with condition `c` (45_jump_call_stack.md R269): to `imm`, or on to `pc + 16`. -/
def jumpIf (c : Bool) (imm : Word) (s : State) : Outcome := .next (if c then s.goTo imm else s.advance lenRI)

/-- PUSHn (45_jump_call_stack.md R265 to R268). -/
def pushReg (sz : Size) (rd : Reg) (s : State) : Outcome :=
  commit s ((push sz (s.regLow sz rd) s).map fun t => t.advance lenShort)

/-- POPn (45_jump_call_stack.md R261 to R264). -/
def popReg (sz : Size) (rd : Reg) (s : State) : Outcome :=
  commit s ((pop sz s).map fun (v, t) => moveFinish sz rd v lenShort t)

end Sys2Proof.Machine
end

