-- ==== Sys2Proof/Machine/Arithmetic.lean ====
section
/-! DEFINITION. The meanings of the integer arithmetic instructions (spec/41_arithmetic.md R100 to R142), one for each. -/

namespace Sys2Proof.Machine

/-- ADD: addition, 8 bytes (R101). -/
def execAdd (rd rs : Reg) (s : State) : Outcome :=
  aluRR .b8 (· + ·) rd rs s

/-- SUB: subtraction, 8 bytes (R102). -/
def execSub (rd rs : Reg) (s : State) : Outcome :=
  aluRR .b8 (· - ·) rd rs s

/-- MULS: signed multiplication, 8 bytes (R103). -/
def execMuls (rd rs : Reg) (s : State) : Outcome :=
  aluRR .b8 mulSigned rd rs s

/-- MUL: unsigned multiplication, 8 bytes (R104). -/
def execMul (rd rs : Reg) (s : State) : Outcome :=
  aluRR .b8 mulUnsigned rd rs s

/-- DIV: division, 8 bytes (R105). -/
def execDiv (rd rs : Reg) (s : State) : Outcome :=
  divRR .b8 rd rs s

/-- ADDV: addition of an immediate, 8 bytes (R106). -/
def execAddv (rd : Reg) (imm : Word) (s : State) : Outcome :=
  aluRI .b8 (· + ·) rd imm s

/-- SUBV: subtraction of an immediate, 8 bytes (R107). -/
def execSubv (rd : Reg) (imm : Word) (s : State) : Outcome :=
  aluRI .b8 (· - ·) rd imm s

/-- INC: increment, 64 bits (R108). -/
def execInc (rd : Reg) (s : State) : Outcome :=
  aluR .b8 (· + 1) rd s

/-- DEC: decrement, 64 bits (R109). -/
def execDec (rd : Reg) (s : State) : Outcome :=
  aluR .b8 (· - 1) rd s

/-- CLR: the register becomes zero (R110). -/
def execClr (rd : Reg) (s : State) : Outcome :=
  .next (aluFinish .b8 rd 0 lenShort s)

/-- ADD1: addition, 1 byte (R111). -/
def execAdd1 (rd rs : Reg) (s : State) : Outcome :=
  aluRR .b1 (· + ·) rd rs s

/-- SUB1: subtraction, 1 byte (R112). -/
def execSub1 (rd rs : Reg) (s : State) : Outcome :=
  aluRR .b1 (· - ·) rd rs s

/-- MUL1: unsigned multiplication, 1 byte (R113). -/
def execMul1 (rd rs : Reg) (s : State) : Outcome :=
  aluRR .b1 mulUnsigned rd rs s

/-- MULS1: signed multiplication, 1 byte (R114). -/
def execMuls1 (rd rs : Reg) (s : State) : Outcome :=
  aluRR .b1 mulSigned rd rs s

/-- DIV1: division, 1 byte (R115). -/
def execDiv1 (rd rs : Reg) (s : State) : Outcome :=
  divRR .b1 rd rs s

/-- ADDV1: addition of an immediate, 1 byte (R116). -/
def execAddv1 (rd : Reg) (imm : Word) (s : State) : Outcome :=
  aluRI .b1 (· + ·) rd imm s

/-- SUBV1: subtraction of an immediate, 1 byte (R117). -/
def execSubv1 (rd : Reg) (imm : Word) (s : State) : Outcome :=
  aluRI .b1 (· - ·) rd imm s

/-- ADD2: addition, 2 bytes (R118). -/
def execAdd2 (rd rs : Reg) (s : State) : Outcome :=
  aluRR .b2 (· + ·) rd rs s

/-- SUB2: subtraction, 2 bytes (R119). -/
def execSub2 (rd rs : Reg) (s : State) : Outcome :=
  aluRR .b2 (· - ·) rd rs s

/-- MUL2: unsigned multiplication, 2 bytes (R120). -/
def execMul2 (rd rs : Reg) (s : State) : Outcome :=
  aluRR .b2 mulUnsigned rd rs s

/-- MULS2: signed multiplication, 2 bytes (R121). -/
def execMuls2 (rd rs : Reg) (s : State) : Outcome :=
  aluRR .b2 mulSigned rd rs s

/-- DIV2: division, 2 bytes (R122). -/
def execDiv2 (rd rs : Reg) (s : State) : Outcome :=
  divRR .b2 rd rs s

/-- ADDV2: addition of an immediate, 2 bytes (R123). -/
def execAddv2 (rd : Reg) (imm : Word) (s : State) : Outcome :=
  aluRI .b2 (· + ·) rd imm s

/-- SUBV2: subtraction of an immediate, 2 bytes (R124). -/
def execSubv2 (rd : Reg) (imm : Word) (s : State) : Outcome :=
  aluRI .b2 (· - ·) rd imm s

/-- ADD4: addition, 4 bytes (R125). -/
def execAdd4 (rd rs : Reg) (s : State) : Outcome :=
  aluRR .b4 (· + ·) rd rs s

/-- SUB4: subtraction, 4 bytes (R126). -/
def execSub4 (rd rs : Reg) (s : State) : Outcome :=
  aluRR .b4 (· - ·) rd rs s

/-- MUL4: unsigned multiplication, 4 bytes (R127). -/
def execMul4 (rd rs : Reg) (s : State) : Outcome :=
  aluRR .b4 mulUnsigned rd rs s

/-- MULS4: signed multiplication, 4 bytes (R128). -/
def execMuls4 (rd rs : Reg) (s : State) : Outcome :=
  aluRR .b4 mulSigned rd rs s

/-- DIV4: division, 4 bytes (R129). -/
def execDiv4 (rd rs : Reg) (s : State) : Outcome :=
  divRR .b4 rd rs s

/-- ADDV4: addition of an immediate, 4 bytes (R130). -/
def execAddv4 (rd : Reg) (imm : Word) (s : State) : Outcome :=
  aluRI .b4 (· + ·) rd imm s

/-- SUBV4: subtraction of an immediate, 4 bytes (R131). -/
def execSubv4 (rd : Reg) (imm : Word) (s : State) : Outcome :=
  aluRI .b4 (· - ·) rd imm s

/-- ADD8: addition, 8 bytes (R132). -/
def execAdd8 (rd rs : Reg) (s : State) : Outcome :=
  aluRR .b8 (· + ·) rd rs s

/-- SUB8: subtraction, 8 bytes (R133). -/
def execSub8 (rd rs : Reg) (s : State) : Outcome :=
  aluRR .b8 (· - ·) rd rs s

/-- MUL8: unsigned multiplication, 8 bytes (R134). -/
def execMul8 (rd rs : Reg) (s : State) : Outcome :=
  aluRR .b8 mulUnsigned rd rs s

/-- MULS8: signed multiplication, 8 bytes (R135). -/
def execMuls8 (rd rs : Reg) (s : State) : Outcome :=
  aluRR .b8 mulSigned rd rs s

/-- DIV8: division, 8 bytes (R136). -/
def execDiv8 (rd rs : Reg) (s : State) : Outcome :=
  divRR .b8 rd rs s

/-- ADDV8: addition of an immediate, 8 bytes (R137). -/
def execAddv8 (rd : Reg) (imm : Word) (s : State) : Outcome :=
  aluRI .b8 (· + ·) rd imm s

/-- SUBV8: subtraction of an immediate, 8 bytes (R138). -/
def execSubv8 (rd : Reg) (imm : Word) (s : State) : Outcome :=
  aluRI .b8 (· - ·) rd imm s

end Sys2Proof.Machine
end

