-- ==== Sys2Proof/Machine/Compare.lean ====
section
/-! DEFINITION. The meanings of the compare and flag instructions (spec/44_compare_flags.md R220 to R238), one for each. -/

namespace Sys2Proof.Machine

/-- CMP: compare of two registers, 8 bytes (R221). -/
def execCmp (rd rs : Reg) (s : State) : Outcome :=
  compare (s.regLow .b8 rd) (s.regLow .b8 rs) lenShort s

/-- CMPV: compare with an immediate, 8 bytes (R222). -/
def execCmpv (rd : Reg) (imm : Word) (s : State) : Outcome :=
  compare (s.regLow .b8 rd) (low .b8 imm) lenRI s

/-- CLR.Z: `Z <- 0` (R231). -/
def execClrZ (s : State) : Outcome :=
  setFlags { s.flags with z := false } s

/-- SET.Z: `Z <- 1` (R232). -/
def execSetZ (s : State) : Outcome :=
  setFlags { s.flags with z := true } s

/-- CLR.N: `N <- 0` (R233). -/
def execClrN (s : State) : Outcome :=
  setFlags { s.flags with n := false } s

/-- SET.N: `N <- 1` (R234). -/
def execSetN (s : State) : Outcome :=
  setFlags { s.flags with n := true } s

/-- CLR.C: `C <- 0` (R235). -/
def execClrC (s : State) : Outcome :=
  setFlags { s.flags with c := false } s

/-- SET.C: `C <- 1` (R236). -/
def execSetC (s : State) : Outcome :=
  setFlags { s.flags with c := true } s

/-- CLR.V: `V <- 0` (R237). -/
def execClrV (s : State) : Outcome :=
  setFlags { s.flags with v := false } s

/-- SET.V: `V <- 1` (R238). -/
def execSetV (s : State) : Outcome :=
  setFlags { s.flags with v := true } s

/-- CMP1: compare of two registers, 1 byte (R223). -/
def execCmp1 (rd rs : Reg) (s : State) : Outcome :=
  compare (s.regLow .b1 rd) (s.regLow .b1 rs) lenShort s

/-- CMP2: compare of two registers, 2 bytes (R224). -/
def execCmp2 (rd rs : Reg) (s : State) : Outcome :=
  compare (s.regLow .b2 rd) (s.regLow .b2 rs) lenShort s

/-- CMP4: compare of two registers, 4 bytes (R225). -/
def execCmp4 (rd rs : Reg) (s : State) : Outcome :=
  compare (s.regLow .b4 rd) (s.regLow .b4 rs) lenShort s

/-- CMP8: compare of two registers, 8 bytes (R226). -/
def execCmp8 (rd rs : Reg) (s : State) : Outcome :=
  compare (s.regLow .b8 rd) (s.regLow .b8 rs) lenShort s

/-- CMPV1: compare with an immediate, 1 byte (R227). -/
def execCmpv1 (rd : Reg) (imm : Word) (s : State) : Outcome :=
  compare (s.regLow .b1 rd) (low .b1 imm) lenRI s

/-- CMPV2: compare with an immediate, 2 bytes (R228). -/
def execCmpv2 (rd : Reg) (imm : Word) (s : State) : Outcome :=
  compare (s.regLow .b2 rd) (low .b2 imm) lenRI s

/-- CMPV4: compare with an immediate, 4 bytes (R229). -/
def execCmpv4 (rd : Reg) (imm : Word) (s : State) : Outcome :=
  compare (s.regLow .b4 rd) (low .b4 imm) lenRI s

/-- CMPV8: compare with an immediate, 8 bytes (R230). -/
def execCmpv8 (rd : Reg) (imm : Word) (s : State) : Outcome :=
  compare (s.regLow .b8 rd) (low .b8 imm) lenRI s

end Sys2Proof.Machine
end

