-- ==== Sys2Proof/Machine/Fpu.lean ====
section
/-! DEFINITION. The meanings of the floating-point instructions (spec/47_fpu.md R292 to R308), one for each. -/

namespace Sys2Proof.Machine

/-- FADD4: `fp.add32` (R293). -/
def execFadd4 (rd rs : Reg) (s : State) : Outcome :=
  aluRR .b4 Config.fp.add32 rd rs s

/-- FSUB4: `fp.sub32` (R294). -/
def execFsub4 (rd rs : Reg) (s : State) : Outcome :=
  aluRR .b4 Config.fp.sub32 rd rs s

/-- FMUL4: `fp.mul32` (R295). -/
def execFmul4 (rd rs : Reg) (s : State) : Outcome :=
  aluRR .b4 Config.fp.mul32 rd rs s

/-- FDIV4: `fp.div32` (R296). -/
def execFdiv4 (rd rs : Reg) (s : State) : Outcome :=
  aluRR .b4 Config.fp.div32 rd rs s

/-- FADD8: `fp.add64` (R297). -/
def execFadd8 (rd rs : Reg) (s : State) : Outcome :=
  aluRR .b8 Config.fp.add64 rd rs s

/-- FSUB8: `fp.sub64` (R298). -/
def execFsub8 (rd rs : Reg) (s : State) : Outcome :=
  aluRR .b8 Config.fp.sub64 rd rs s

/-- FMUL8: `fp.mul64` (R299). -/
def execFmul8 (rd rs : Reg) (s : State) : Outcome :=
  aluRR .b8 Config.fp.mul64 rd rs s

/-- FDIV8: `fp.div64` (R300). -/
def execFdiv8 (rd rs : Reg) (s : State) : Outcome :=
  aluRR .b8 Config.fp.div64 rd rs s

/-- FSQRT4: `fp.sqrt32` (R301). -/
def execFsqrt4 (rd : Reg) (s : State) : Outcome :=
  aluR .b4 Config.fp.sqrt32 rd s

/-- FSQRT8: `fp.sqrt64` (R302). -/
def execFsqrt8 (rd : Reg) (s : State) : Outcome :=
  aluR .b8 Config.fp.sqrt64 rd s

/-- FSIN4: `fp.sin32` (R303). -/
def execFsin4 (rd : Reg) (s : State) : Outcome :=
  aluR .b4 Config.fp.sin32 rd s

/-- FCOS4: `fp.cos32` (R304). -/
def execFcos4 (rd : Reg) (s : State) : Outcome :=
  aluR .b4 Config.fp.cos32 rd s

/-- FSIN8: `fp.sin64` (R305). -/
def execFsin8 (rd : Reg) (s : State) : Outcome :=
  aluR .b8 Config.fp.sin64 rd s

/-- FCOS8: `fp.cos64` (R306). -/
def execFcos8 (rd : Reg) (s : State) : Outcome :=
  aluR .b8 Config.fp.cos64 rd s

/-- INTFLOAT4: `fp.intfloat32` (R307). -/
def execIntfloat4 (rd : Reg) (s : State) : Outcome :=
  aluR .b4 Config.fp.intfloat32 rd s

/-- INTFLOAT8: `fp.intfloat64` (R308). -/
def execIntfloat8 (rd : Reg) (s : State) : Outcome :=
  aluR .b8 Config.fp.intfloat64 rd s

end Sys2Proof.Machine
end

