-- ==== Sys2Proof/Machine/Io.lean ====
section
/-! DEFINITION. The meanings of the I/O instructions (spec/46_io.md R282 to R284), one for each. -/

namespace Sys2Proof.Machine

/-- SVIO: the low byte of RD to the I/O system (R282). -/
def execSvio (rd : Reg) (imm : Word) (s : State) : Outcome :=
  commit s ((ioWrite imm (s.regLow .b1 rd) s).map fun t => t.advance lenRI)

/-- LOADIO: one byte from the I/O system into RD (R283). -/
def execLoadio (rd : Reg) (imm : Word) (s : State) : Outcome :=
  commit s ((ioRead imm s).map fun t => moveFinish .b1 rd (ioAnswer s) lenRI t)

/-- SHOWIO: the I/O system is asked to show an address (R284). -/
def execShowio (imm : Word) (s : State) : Outcome :=
  commit s ((ioShow imm s).map fun t => t.advance lenRI)

end Sys2Proof.Machine
end

