-- ==== Sys2Proof/Machine/Jump.lean ====
section
/-! DEFINITION. The meanings of the jumps and CALL (spec/45_jump_call_stack.md R250 to R259, R269), one for each. -/

namespace Sys2Proof.Machine

/-- JMP: jump always (R250). -/
def execJmp (imm : Word) (s : State) : Outcome :=
  jumpIf true imm s

/-- JEQ: jump if Z = 1 (R251). -/
def execJeq (imm : Word) (s : State) : Outcome :=
  jumpIf s.flags.z imm s

/-- JNE: jump if Z = 0 (R252). -/
def execJne (imm : Word) (s : State) : Outcome :=
  jumpIf (!s.flags.z) imm s

/-- JN: jump if N = 1 (R253). -/
def execJn (imm : Word) (s : State) : Outcome :=
  jumpIf s.flags.n imm s

/-- JNN: jump if N = 0 (R254). -/
def execJnn (imm : Word) (s : State) : Outcome :=
  jumpIf (!s.flags.n) imm s

/-- JC: jump if C = 1 (R255). -/
def execJc (imm : Word) (s : State) : Outcome :=
  jumpIf s.flags.c imm s

/-- JNC: jump if C = 0 (R256). -/
def execJnc (imm : Word) (s : State) : Outcome :=
  jumpIf (!s.flags.c) imm s

/-- JLT: jump if V xor N = 1 (R257). -/
def execJlt (imm : Word) (s : State) : Outcome :=
  jumpIf s.flags.signedLess imm s

/-- JGE: jump if V xor N = 0 (R258). -/
def execJge (imm : Word) (s : State) : Outcome :=
  jumpIf (!s.flags.signedLess) imm s

/-- CALL: the address of the next instruction pushed as 8 bytes, then a jump (R259). -/
def execCall (imm : Word) (s : State) : Outcome :=
  commit s ((push .b8 (s.pc + lenRI) s).map fun t => t.goTo imm)

end Sys2Proof.Machine
end

