-- ==== Sys2Proof/Machine/Logic.lean ====
section
/-! DEFINITION. The meanings of the logic and shift instructions (spec/42_logic_shift.md R150 to R161), one for each. -/

namespace Sys2Proof.Machine

/-- NOT: one's complement (R151). -/
def execNot (rd : Reg) (s : State) : Outcome :=
  aluR .b8 (~~~·) rd s

/-- AND: bitwise AND (R152). -/
def execAnd (rd rs : Reg) (s : State) : Outcome :=
  aluRR .b8 (· &&& ·) rd rs s

/-- ANDV: bitwise AND with an immediate (R153). -/
def execAndv (rd : Reg) (imm : Word) (s : State) : Outcome :=
  aluRI .b8 (· &&& ·) rd imm s

/-- OR: bitwise OR (R154). -/
def execOr (rd rs : Reg) (s : State) : Outcome :=
  aluRR .b8 (· ||| ·) rd rs s

/-- ORV: bitwise OR with an immediate (R155). -/
def execOrv (rd : Reg) (imm : Word) (s : State) : Outcome :=
  aluRI .b8 (· ||| ·) rd imm s

/-- XOR: bitwise exclusive OR (R156). -/
def execXor (rd rs : Reg) (s : State) : Outcome :=
  aluRR .b8 (· ^^^ ·) rd rs s

/-- XORV: bitwise exclusive OR with an immediate (R157). -/
def execXorv (rd : Reg) (imm : Word) (s : State) : Outcome :=
  aluRI .b8 (· ^^^ ·) rd imm s

/-- SHI: shift left by `SHIFT_COUNT` (R158). -/
def execShi (rd : Reg) (s : State) : Outcome :=
  aluR .b8 (· <<< s.par.shiftCount.val) rd s

/-- SHD: arithmetic shift right by `SHIFT_COUNT` (R159). -/
def execShd (rd : Reg) (s : State) : Outcome :=
  aluR .b8 (·.sshiftRight s.par.shiftCount.val) rd s

/-- USHI: shift left by `SHIFT_COUNT` (R160). -/
def execUshi (rd : Reg) (s : State) : Outcome :=
  aluR .b8 (· <<< s.par.shiftCount.val) rd s

/-- USHD: logical shift right by `SHIFT_COUNT` (R161). -/
def execUshd (rd : Reg) (s : State) : Outcome :=
  aluR .b8 (· >>> s.par.shiftCount.val) rd s

end Sys2Proof.Machine
end

