-- ==== Sys2Proof/Machine/Move.lean ====
section
/-! DEFINITION. The meanings of the move, load and store instructions (spec/43_move_load_store.md R170 to R198), one for each. -/

namespace Sys2Proof.Machine

/-- LOAD: load of 8 bytes from an immediate address (R171). -/
def execLoad (rd : Reg) (imm : Word) (s : State) : Outcome :=
  loadFrom .b8 rd (eaImm imm) lenRI s

/-- LOADV: the immediate value (R172). -/
def execLoadv (rd : Reg) (imm : Word) (s : State) : Outcome :=
  .next ((s.setReg rd imm).advance lenRI)

/-- LOADR: load of 8 bytes from the address in RS (R173). -/
def execLoadr (rd rs : Reg) (s : State) : Outcome :=
  loadFrom .b8 rd (eaReg rs s) lenShort s

/-- STOREV: store of 8 bytes to an immediate address (R174). -/
def execStorev (rd : Reg) (imm : Word) (s : State) : Outcome :=
  storeTo .b8 rd (eaImm imm) lenRI s

/-- MOV1: copy of the low 1 byte of RS (R175). -/
def execMov1 (rd rs : Reg) (s : State) : Outcome :=
  .next (moveFinish .b1 rd (s.regLow .b1 rs) lenShort s)

/-- MOV2: copy of the low 2 bytes of RS (R176). -/
def execMov2 (rd rs : Reg) (s : State) : Outcome :=
  .next (moveFinish .b2 rd (s.regLow .b2 rs) lenShort s)

/-- MOV4: copy of the low 4 bytes of RS (R177). -/
def execMov4 (rd rs : Reg) (s : State) : Outcome :=
  .next (moveFinish .b4 rd (s.regLow .b4 rs) lenShort s)

/-- MOV8: copy of the low 8 bytes of RS (R178). -/
def execMov8 (rd rs : Reg) (s : State) : Outcome :=
  .next (moveFinish .b8 rd (s.regLow .b8 rs) lenShort s)

/-- MOVV1: copy of the low 1 byte of the immediate (R179). -/
def execMovv1 (rd : Reg) (imm : Word) (s : State) : Outcome :=
  .next (moveFinish .b1 rd (low .b1 imm) lenRI s)

/-- MOVV2: copy of the low 2 bytes of the immediate (R180). -/
def execMovv2 (rd : Reg) (imm : Word) (s : State) : Outcome :=
  .next (moveFinish .b2 rd (low .b2 imm) lenRI s)

/-- MOVV4: copy of the low 4 bytes of the immediate (R181). -/
def execMovv4 (rd : Reg) (imm : Word) (s : State) : Outcome :=
  .next (moveFinish .b4 rd (low .b4 imm) lenRI s)

/-- MOVV8: copy of the low 8 bytes of the immediate (R182). -/
def execMovv8 (rd : Reg) (imm : Word) (s : State) : Outcome :=
  .next (moveFinish .b8 rd (low .b8 imm) lenRI s)

/-- LOAD1: load of 1 byte from an immediate address (R183). -/
def execLoad1 (rd : Reg) (imm : Word) (s : State) : Outcome :=
  loadFrom .b1 rd (eaImm imm) lenRI s

/-- LOAD2: load of 2 bytes from an immediate address (R184). -/
def execLoad2 (rd : Reg) (imm : Word) (s : State) : Outcome :=
  loadFrom .b2 rd (eaImm imm) lenRI s

/-- LOAD4: load of 4 bytes from an immediate address (R185). -/
def execLoad4 (rd : Reg) (imm : Word) (s : State) : Outcome :=
  loadFrom .b4 rd (eaImm imm) lenRI s

/-- LOAD8: load of 8 bytes from an immediate address (R186). -/
def execLoad8 (rd : Reg) (imm : Word) (s : State) : Outcome :=
  loadFrom .b8 rd (eaImm imm) lenRI s

/-- LOADR1: load of 1 byte from the address in RS (R187). -/
def execLoadr1 (rd rs : Reg) (s : State) : Outcome :=
  loadFrom .b1 rd (eaReg rs s) lenShort s

/-- LOADR2: load of 2 bytes from the address in RS (R188). -/
def execLoadr2 (rd rs : Reg) (s : State) : Outcome :=
  loadFrom .b2 rd (eaReg rs s) lenShort s

/-- LOADR4: load of 4 bytes from the address in RS (R189). -/
def execLoadr4 (rd rs : Reg) (s : State) : Outcome :=
  loadFrom .b4 rd (eaReg rs s) lenShort s

/-- LOADR8: load of 8 bytes from the address in RS (R190). -/
def execLoadr8 (rd rs : Reg) (s : State) : Outcome :=
  loadFrom .b8 rd (eaReg rs s) lenShort s

/-- STORE1: store of 1 byte to an immediate address (R191). -/
def execStore1 (rd : Reg) (imm : Word) (s : State) : Outcome :=
  storeTo .b1 rd (eaImm imm) lenRI s

/-- STORE2: store of 2 bytes to an immediate address (R192). -/
def execStore2 (rd : Reg) (imm : Word) (s : State) : Outcome :=
  storeTo .b2 rd (eaImm imm) lenRI s

/-- STORE4: store of 4 bytes to an immediate address (R193). -/
def execStore4 (rd : Reg) (imm : Word) (s : State) : Outcome :=
  storeTo .b4 rd (eaImm imm) lenRI s

/-- STORE8: store of 8 bytes to an immediate address (R194). -/
def execStore8 (rd : Reg) (imm : Word) (s : State) : Outcome :=
  storeTo .b8 rd (eaImm imm) lenRI s

/-- STORER1: store of 1 byte to the address in a register (R195). -/
def execStorer1 (rd rs : Reg) (s : State) : Outcome :=
  storeTo .b1 (storerRoles rd rs).2 (eaReg (storerRoles rd rs).1 s) lenShort s

/-- STORER2: store of 2 bytes to the address in a register (R196). -/
def execStorer2 (rd rs : Reg) (s : State) : Outcome :=
  storeTo .b2 (storerRoles rd rs).2 (eaReg (storerRoles rd rs).1 s) lenShort s

/-- STORER4: store of 4 bytes to the address in a register (R197). -/
def execStorer4 (rd rs : Reg) (s : State) : Outcome :=
  storeTo .b4 (storerRoles rd rs).2 (eaReg (storerRoles rd rs).1 s) lenShort s

/-- STORER8: store of 8 bytes to the address in a register (R198). -/
def execStorer8 (rd rs : Reg) (s : State) : Outcome :=
  storeTo .b8 (storerRoles rd rs).2 (eaReg (storerRoles rd rs).1 s) lenShort s

end Sys2Proof.Machine
end

