-- ==== Sys2Proof/Machine/Stack.lean ====
section
/-! DEFINITION. The meanings of RET, POPn and PUSHn (spec/45_jump_call_stack.md R260 to R268, R270), one for each. -/

namespace Sys2Proof.Machine

/-- RET: a jump to the 8 bytes popped (R260). -/
def execRet (s : State) : Outcome :=
  commit s ((pop .b8 s).map fun (v, t) => t.goTo v)

/-- POP1: pop of 1 byte into RD (R261). -/
def execPop1 (rd : Reg) (s : State) : Outcome :=
  popReg .b1 rd s

/-- POP2: pop of 2 bytes into RD (R262). -/
def execPop2 (rd : Reg) (s : State) : Outcome :=
  popReg .b2 rd s

/-- POP4: pop of 4 bytes into RD (R263). -/
def execPop4 (rd : Reg) (s : State) : Outcome :=
  popReg .b4 rd s

/-- POP8: pop of 8 bytes into RD (R264). -/
def execPop8 (rd : Reg) (s : State) : Outcome :=
  popReg .b8 rd s

/-- PUSH1: push of the low 1 byte of RD (R265). -/
def execPush1 (rd : Reg) (s : State) : Outcome :=
  pushReg .b1 rd s

/-- PUSH2: push of the low 2 bytes of RD (R266). -/
def execPush2 (rd : Reg) (s : State) : Outcome :=
  pushReg .b2 rd s

/-- PUSH4: push of the low 4 bytes of RD (R267). -/
def execPush4 (rd : Reg) (s : State) : Outcome :=
  pushReg .b4 rd s

/-- PUSH8: push of the low 8 bytes of RD (R268). -/
def execPush8 (rd : Reg) (s : State) : Outcome :=
  pushReg .b8 rd s

end Sys2Proof.Machine
end

