-- ==== Sys2Proof/Machine/System.lean ====
section
/-! DEFINITION. The meanings of PARAR, NOP and the reserved opcodes (spec/40_system.md R90 to R93), one for each. -/

namespace Sys2Proof.Machine

/-- PARAR: stops the CPU; `pc` stays at the PARAR (R90). -/
def execParar (s : State) : Outcome :=
  .next { s with run := .halted }

/-- NOP: does nothing (R91). -/
def execNop (s : State) : Outcome :=
  .next (s.advance lenShort)

/-- Opcode 0x00A3: `raise Fault(IllegalOpcode, w)`, `w` the whole word (R92). -/
def execReserved00A3 (low : BitVec 48) (s : State) : Outcome :=
  raise ⟨.illegalOpcode, 0x00A3#16 ++ low⟩ s

/-- Opcode 0x00A4: `raise Fault(IllegalOpcode, w)`, `w` the whole word (R93). -/
def execReserved00A4 (low : BitVec 48) (s : State) : Outcome :=
  raise ⟨.illegalOpcode, 0x00A4#16 ++ low⟩ s

end Sys2Proof.Machine
end

