-- ==== Sys2Proof/Syntax.lean ====
section
/-! DEFINITION. The instructions of the SIA CPU: one constructor for each row of spec/opcode_table.json, in its order
(30_encoding.md R70). `rd` and `rs` are the register operands RD and RS (R61), `imm` the 64-bit immediate of format RI
(R66); a format RI instruction without a register operand (R69) has `imm` alone. -/

namespace Sys2Proof

/-- An instruction with its operands (30_encoding.md R70). -/
inductive Instr where
  /-- `PARAR` (R90). -/
  | parar
  /-- `NOP` (R91). -/
  | nop
  /-- `ADD Rd, Rs` (R101). -/
  | add (rd rs : Reg)
  /-- `SUB Rd, Rs` (R102). -/
  | sub (rd rs : Reg)
  /-- `MULS Rd, Rs` (R103). -/
  | muls (rd rs : Reg)
  /-- `MUL Rd, Rs` (R104). -/
  | mul (rd rs : Reg)
  /-- `DIV Rd, Rs` (R105). -/
  | div (rd rs : Reg)
  /-- `ADDV Rd, imm` (R106). -/
  | addv (rd : Reg) (imm : Word)
  /-- `SUBV Rd, imm` (R107). -/
  | subv (rd : Reg) (imm : Word)
  /-- `INC Rd` (R108). -/
  | inc (rd : Reg)
  /-- `DEC Rd` (R109). -/
  | dec (rd : Reg)
  /-- `CLR Rd` (R110). -/
  | clr (rd : Reg)
  /-- `NOT Rd` (R151). -/
  | not (rd : Reg)
  /-- `AND Rd, Rs` (R152). -/
  | and (rd rs : Reg)
  /-- `ANDV Rd, imm` (R153). -/
  | andv (rd : Reg) (imm : Word)
  /-- `OR Rd, Rs` (R154). -/
  | or (rd rs : Reg)
  /-- `ORV Rd, imm` (R155). -/
  | orv (rd : Reg) (imm : Word)
  /-- `XOR Rd, Rs` (R156). -/
  | xor (rd rs : Reg)
  /-- `XORV Rd, imm` (R157). -/
  | xorv (rd : Reg) (imm : Word)
  /-- `SHI Rd` (R158). -/
  | shi (rd : Reg)
  /-- `SHD Rd` (R159). -/
  | shd (rd : Reg)
  /-- `USHI Rd` (R160). -/
  | ushi (rd : Reg)
  /-- `USHD Rd` (R161). -/
  | ushd (rd : Reg)
  /-- `LOAD Rd, imm` (R171). -/
  | load (rd : Reg) (imm : Word)
  /-- `LOADV Rd, imm` (R172). -/
  | loadv (rd : Reg) (imm : Word)
  /-- `LOADR Rd, [Rs]` (R173). -/
  | loadr (rd rs : Reg)
  /-- `STOREV imm, Rd` (R174). -/
  | storev (rd : Reg) (imm : Word)
  /-- `CMP Rd, Rs` (R221). -/
  | cmp (rd rs : Reg)
  /-- `CMPV Rd, imm` (R222). -/
  | cmpv (rd : Reg) (imm : Word)
  /-- `CLR.Z` (R231). -/
  | clrZ
  /-- `SET.Z` (R232). -/
  | setZ
  /-- `CLR.N` (R233). -/
  | clrN
  /-- `SET.N` (R234). -/
  | setN
  /-- `CLR.C` (R235). -/
  | clrC
  /-- `SET.C` (R236). -/
  | setC
  /-- `CLR.V` (R237). -/
  | clrV
  /-- `SET.V` (R238). -/
  | setV
  /-- `JMP imm` (R250). -/
  | jmp (imm : Word)
  /-- `JEQ imm` (R251). -/
  | jeq (imm : Word)
  /-- `JNE imm` (R252). -/
  | jne (imm : Word)
  /-- `JN imm` (R253). -/
  | jn (imm : Word)
  /-- `JNN imm` (R254). -/
  | jnn (imm : Word)
  /-- `JC imm` (R255). -/
  | jc (imm : Word)
  /-- `JNC imm` (R256). -/
  | jnc (imm : Word)
  /-- `JLT imm` (R257). -/
  | jlt (imm : Word)
  /-- `JGE imm` (R258). -/
  | jge (imm : Word)
  /-- `CALL imm` (R259). -/
  | call (imm : Word)
  /-- `SVIO imm, Rd` (R282). -/
  | svio (rd : Reg) (imm : Word)
  /-- `LOADIO Rd, imm` (R283). -/
  | loadio (rd : Reg) (imm : Word)
  /-- `SHOWIO imm` (R284). -/
  | showio (imm : Word)
  /-- reserved opcode 0x00A3, `low` the 48 bits below it (R92). -/
  | reserved00A3 (low : BitVec 48)
  /-- reserved opcode 0x00A4, `low` the 48 bits below it (R93). -/
  | reserved00A4 (low : BitVec 48)
  /-- `ADD1 Rd, Rs` (R111). -/
  | add1 (rd rs : Reg)
  /-- `SUB1 Rd, Rs` (R112). -/
  | sub1 (rd rs : Reg)
  /-- `MUL1 Rd, Rs` (R113). -/
  | mul1 (rd rs : Reg)
  /-- `MULS1 Rd, Rs` (R114). -/
  | muls1 (rd rs : Reg)
  /-- `DIV1 Rd, Rs` (R115). -/
  | div1 (rd rs : Reg)
  /-- `ADDV1 Rd, imm` (R116). -/
  | addv1 (rd : Reg) (imm : Word)
  /-- `SUBV1 Rd, imm` (R117). -/
  | subv1 (rd : Reg) (imm : Word)
  /-- `ADD2 Rd, Rs` (R118). -/
  | add2 (rd rs : Reg)
  /-- `SUB2 Rd, Rs` (R119). -/
  | sub2 (rd rs : Reg)
  /-- `MUL2 Rd, Rs` (R120). -/
  | mul2 (rd rs : Reg)
  /-- `MULS2 Rd, Rs` (R121). -/
  | muls2 (rd rs : Reg)
  /-- `DIV2 Rd, Rs` (R122). -/
  | div2 (rd rs : Reg)
  /-- `ADDV2 Rd, imm` (R123). -/
  | addv2 (rd : Reg) (imm : Word)
  /-- `SUBV2 Rd, imm` (R124). -/
  | subv2 (rd : Reg) (imm : Word)
  /-- `ADD4 Rd, Rs` (R125). -/
  | add4 (rd rs : Reg)
  /-- `SUB4 Rd, Rs` (R126). -/
  | sub4 (rd rs : Reg)
  /-- `MUL4 Rd, Rs` (R127). -/
  | mul4 (rd rs : Reg)
  /-- `MULS4 Rd, Rs` (R128). -/
  | muls4 (rd rs : Reg)
  /-- `DIV4 Rd, Rs` (R129). -/
  | div4 (rd rs : Reg)
  /-- `ADDV4 Rd, imm` (R130). -/
  | addv4 (rd : Reg) (imm : Word)
  /-- `SUBV4 Rd, imm` (R131). -/
  | subv4 (rd : Reg) (imm : Word)
  /-- `ADD8 Rd, Rs` (R132). -/
  | add8 (rd rs : Reg)
  /-- `SUB8 Rd, Rs` (R133). -/
  | sub8 (rd rs : Reg)
  /-- `MUL8 Rd, Rs` (R134). -/
  | mul8 (rd rs : Reg)
  /-- `MULS8 Rd, Rs` (R135). -/
  | muls8 (rd rs : Reg)
  /-- `DIV8 Rd, Rs` (R136). -/
  | div8 (rd rs : Reg)
  /-- `ADDV8 Rd, imm` (R137). -/
  | addv8 (rd : Reg) (imm : Word)
  /-- `SUBV8 Rd, imm` (R138). -/
  | subv8 (rd : Reg) (imm : Word)
  /-- `MOV1 Rd, Rs` (R175). -/
  | mov1 (rd rs : Reg)
  /-- `MOV2 Rd, Rs` (R176). -/
  | mov2 (rd rs : Reg)
  /-- `MOV4 Rd, Rs` (R177). -/
  | mov4 (rd rs : Reg)
  /-- `MOV8 Rd, Rs` (R178). -/
  | mov8 (rd rs : Reg)
  /-- `MOVV1 Rd, imm` (R179). -/
  | movv1 (rd : Reg) (imm : Word)
  /-- `MOVV2 Rd, imm` (R180). -/
  | movv2 (rd : Reg) (imm : Word)
  /-- `MOVV4 Rd, imm` (R181). -/
  | movv4 (rd : Reg) (imm : Word)
  /-- `MOVV8 Rd, imm` (R182). -/
  | movv8 (rd : Reg) (imm : Word)
  /-- `LOAD1 Rd, imm` (R183). -/
  | load1 (rd : Reg) (imm : Word)
  /-- `LOAD2 Rd, imm` (R184). -/
  | load2 (rd : Reg) (imm : Word)
  /-- `LOAD4 Rd, imm` (R185). -/
  | load4 (rd : Reg) (imm : Word)
  /-- `LOAD8 Rd, imm` (R186). -/
  | load8 (rd : Reg) (imm : Word)
  /-- `LOADR1 Rd, [Rs]` (R187). -/
  | loadr1 (rd rs : Reg)
  /-- `LOADR2 Rd, [Rs]` (R188). -/
  | loadr2 (rd rs : Reg)
  /-- `LOADR4 Rd, [Rs]` (R189). -/
  | loadr4 (rd rs : Reg)
  /-- `LOADR8 Rd, [Rs]` (R190). -/
  | loadr8 (rd rs : Reg)
  /-- `STORE1 imm, Rd` (R191). -/
  | store1 (rd : Reg) (imm : Word)
  /-- `STORE2 imm, Rd` (R192). -/
  | store2 (rd : Reg) (imm : Word)
  /-- `STORE4 imm, Rd` (R193). -/
  | store4 (rd : Reg) (imm : Word)
  /-- `STORE8 imm, Rd` (R194). -/
  | store8 (rd : Reg) (imm : Word)
  /-- `STORER1 [Rd], Rs` (R195). -/
  | storer1 (rd rs : Reg)
  /-- `STORER2 [Rd], Rs` (R196). -/
  | storer2 (rd rs : Reg)
  /-- `STORER4 [Rd], Rs` (R197). -/
  | storer4 (rd rs : Reg)
  /-- `STORER8 [Rd], Rs` (R198). -/
  | storer8 (rd rs : Reg)
  /-- `FADD4 Rd, Rs` (R293). -/
  | fadd4 (rd rs : Reg)
  /-- `FSUB4 Rd, Rs` (R294). -/
  | fsub4 (rd rs : Reg)
  /-- `FMUL4 Rd, Rs` (R295). -/
  | fmul4 (rd rs : Reg)
  /-- `FDIV4 Rd, Rs` (R296). -/
  | fdiv4 (rd rs : Reg)
  /-- `FADD8 Rd, Rs` (R297). -/
  | fadd8 (rd rs : Reg)
  /-- `FSUB8 Rd, Rs` (R298). -/
  | fsub8 (rd rs : Reg)
  /-- `FMUL8 Rd, Rs` (R299). -/
  | fmul8 (rd rs : Reg)
  /-- `FDIV8 Rd, Rs` (R300). -/
  | fdiv8 (rd rs : Reg)
  /-- `FSQRT4 Rd` (R301). -/
  | fsqrt4 (rd : Reg)
  /-- `FSQRT8 Rd` (R302). -/
  | fsqrt8 (rd : Reg)
  /-- `FSIN4 Rd` (R303). -/
  | fsin4 (rd : Reg)
  /-- `FCOS4 Rd` (R304). -/
  | fcos4 (rd : Reg)
  /-- `FSIN8 Rd` (R305). -/
  | fsin8 (rd : Reg)
  /-- `FCOS8 Rd` (R306). -/
  | fcos8 (rd : Reg)
  /-- `INTFLOAT4 Rd` (R307). -/
  | intfloat4 (rd : Reg)
  /-- `INTFLOAT8 Rd` (R308). -/
  | intfloat8 (rd : Reg)
  /-- `RET` (R260). -/
  | ret
  /-- `POP1 Rd` (R261). -/
  | pop1 (rd : Reg)
  /-- `POP2 Rd` (R262). -/
  | pop2 (rd : Reg)
  /-- `POP4 Rd` (R263). -/
  | pop4 (rd : Reg)
  /-- `POP8 Rd` (R264). -/
  | pop8 (rd : Reg)
  /-- `PUSH1 Rd` (R265). -/
  | push1 (rd : Reg)
  /-- `PUSH2 Rd` (R266). -/
  | push2 (rd : Reg)
  /-- `PUSH4 Rd` (R267). -/
  | push4 (rd : Reg)
  /-- `PUSH8 Rd` (R268). -/
  | push8 (rd : Reg)
  /-- `CMP1 Rd, Rs` (R223). -/
  | cmp1 (rd rs : Reg)
  /-- `CMP2 Rd, Rs` (R224). -/
  | cmp2 (rd rs : Reg)
  /-- `CMP4 Rd, Rs` (R225). -/
  | cmp4 (rd rs : Reg)
  /-- `CMP8 Rd, Rs` (R226). -/
  | cmp8 (rd rs : Reg)
  /-- `CMPV1 Rd, imm` (R227). -/
  | cmpv1 (rd : Reg) (imm : Word)
  /-- `CMPV2 Rd, imm` (R228). -/
  | cmpv2 (rd : Reg) (imm : Word)
  /-- `CMPV4 Rd, imm` (R229). -/
  | cmpv4 (rd : Reg) (imm : Word)
  /-- `CMPV8 Rd, imm` (R230). -/
  | cmpv8 (rd : Reg) (imm : Word)
deriving DecidableEq, Repr

end Sys2Proof
end

