-- ==== Sys2Proof/Machine/Dispatch.lean ====
section
/-! DEFINITION. The meaning of every instruction: one arm for each constructor of `Instr`, in the order of
spec/opcode_table.json. -/

namespace Sys2Proof.Machine

def exec (i : Instr) (s : State) : Host.Outcome State Fault Refusal :=
  match i with
  | .parar => Sys2Proof.Machine.execParar s
  | .nop => Sys2Proof.Machine.execNop s
  | .add rd rs => Sys2Proof.Machine.execAdd rd rs s
  | .sub rd rs => Sys2Proof.Machine.execSub rd rs s
  | .muls rd rs => Sys2Proof.Machine.execMuls rd rs s
  | .mul rd rs => Sys2Proof.Machine.execMul rd rs s
  | .div rd rs => Sys2Proof.Machine.execDiv rd rs s
  | .addv rd imm => Sys2Proof.Machine.execAddv rd imm s
  | .subv rd imm => Sys2Proof.Machine.execSubv rd imm s
  | .inc rd => Sys2Proof.Machine.execInc rd s
  | .dec rd => Sys2Proof.Machine.execDec rd s
  | .clr rd => Sys2Proof.Machine.execClr rd s
  | .not rd => Sys2Proof.Machine.execNot rd s
  | .and rd rs => Sys2Proof.Machine.execAnd rd rs s
  | .andv rd imm => Sys2Proof.Machine.execAndv rd imm s
  | .or rd rs => Sys2Proof.Machine.execOr rd rs s
  | .orv rd imm => Sys2Proof.Machine.execOrv rd imm s
  | .xor rd rs => Sys2Proof.Machine.execXor rd rs s
  | .xorv rd imm => Sys2Proof.Machine.execXorv rd imm s
  | .shi rd => Sys2Proof.Machine.execShi rd s
  | .shd rd => Sys2Proof.Machine.execShd rd s
  | .ushi rd => Sys2Proof.Machine.execUshi rd s
  | .ushd rd => Sys2Proof.Machine.execUshd rd s
  | .load rd imm => Sys2Proof.Machine.execLoad rd imm s
  | .loadv rd imm => Sys2Proof.Machine.execLoadv rd imm s
  | .loadr rd rs => Sys2Proof.Machine.execLoadr rd rs s
  | .storev rd imm => Sys2Proof.Machine.execStorev rd imm s
  | .cmp rd rs => Sys2Proof.Machine.execCmp rd rs s
  | .cmpv rd imm => Sys2Proof.Machine.execCmpv rd imm s
  | .clrZ => Sys2Proof.Machine.execClrZ s
  | .setZ => Sys2Proof.Machine.execSetZ s
  | .clrN => Sys2Proof.Machine.execClrN s
  | .setN => Sys2Proof.Machine.execSetN s
  | .clrC => Sys2Proof.Machine.execClrC s
  | .setC => Sys2Proof.Machine.execSetC s
  | .clrV => Sys2Proof.Machine.execClrV s
  | .setV => Sys2Proof.Machine.execSetV s
  | .jmp imm => Sys2Proof.Machine.execJmp imm s
  | .jeq imm => Sys2Proof.Machine.execJeq imm s
  | .jne imm => Sys2Proof.Machine.execJne imm s
  | .jn imm => Sys2Proof.Machine.execJn imm s
  | .jnn imm => Sys2Proof.Machine.execJnn imm s
  | .jc imm => Sys2Proof.Machine.execJc imm s
  | .jnc imm => Sys2Proof.Machine.execJnc imm s
  | .jlt imm => Sys2Proof.Machine.execJlt imm s
  | .jge imm => Sys2Proof.Machine.execJge imm s
  | .call imm => Sys2Proof.Machine.execCall imm s
  | .svio rd imm => Sys2Proof.Machine.execSvio rd imm s
  | .loadio rd imm => Sys2Proof.Machine.execLoadio rd imm s
  | .showio imm => Sys2Proof.Machine.execShowio imm s
  | .reserved00A3 low => Sys2Proof.Machine.execReserved00A3 low s
  | .reserved00A4 low => Sys2Proof.Machine.execReserved00A4 low s
  | .add1 rd rs => Sys2Proof.Machine.execAdd1 rd rs s
  | .sub1 rd rs => Sys2Proof.Machine.execSub1 rd rs s
  | .mul1 rd rs => Sys2Proof.Machine.execMul1 rd rs s
  | .muls1 rd rs => Sys2Proof.Machine.execMuls1 rd rs s
  | .div1 rd rs => Sys2Proof.Machine.execDiv1 rd rs s
  | .addv1 rd imm => Sys2Proof.Machine.execAddv1 rd imm s
  | .subv1 rd imm => Sys2Proof.Machine.execSubv1 rd imm s
  | .add2 rd rs => Sys2Proof.Machine.execAdd2 rd rs s
  | .sub2 rd rs => Sys2Proof.Machine.execSub2 rd rs s
  | .mul2 rd rs => Sys2Proof.Machine.execMul2 rd rs s
  | .muls2 rd rs => Sys2Proof.Machine.execMuls2 rd rs s
  | .div2 rd rs => Sys2Proof.Machine.execDiv2 rd rs s
  | .addv2 rd imm => Sys2Proof.Machine.execAddv2 rd imm s
  | .subv2 rd imm => Sys2Proof.Machine.execSubv2 rd imm s
  | .add4 rd rs => Sys2Proof.Machine.execAdd4 rd rs s
  | .sub4 rd rs => Sys2Proof.Machine.execSub4 rd rs s
  | .mul4 rd rs => Sys2Proof.Machine.execMul4 rd rs s
  | .muls4 rd rs => Sys2Proof.Machine.execMuls4 rd rs s
  | .div4 rd rs => Sys2Proof.Machine.execDiv4 rd rs s
  | .addv4 rd imm => Sys2Proof.Machine.execAddv4 rd imm s
  | .subv4 rd imm => Sys2Proof.Machine.execSubv4 rd imm s
  | .add8 rd rs => Sys2Proof.Machine.execAdd8 rd rs s
  | .sub8 rd rs => Sys2Proof.Machine.execSub8 rd rs s
  | .mul8 rd rs => Sys2Proof.Machine.execMul8 rd rs s
  | .muls8 rd rs => Sys2Proof.Machine.execMuls8 rd rs s
  | .div8 rd rs => Sys2Proof.Machine.execDiv8 rd rs s
  | .addv8 rd imm => Sys2Proof.Machine.execAddv8 rd imm s
  | .subv8 rd imm => Sys2Proof.Machine.execSubv8 rd imm s
  | .mov1 rd rs => Sys2Proof.Machine.execMov1 rd rs s
  | .mov2 rd rs => Sys2Proof.Machine.execMov2 rd rs s
  | .mov4 rd rs => Sys2Proof.Machine.execMov4 rd rs s
  | .mov8 rd rs => Sys2Proof.Machine.execMov8 rd rs s
  | .movv1 rd imm => Sys2Proof.Machine.execMovv1 rd imm s
  | .movv2 rd imm => Sys2Proof.Machine.execMovv2 rd imm s
  | .movv4 rd imm => Sys2Proof.Machine.execMovv4 rd imm s
  | .movv8 rd imm => Sys2Proof.Machine.execMovv8 rd imm s
  | .load1 rd imm => Sys2Proof.Machine.execLoad1 rd imm s
  | .load2 rd imm => Sys2Proof.Machine.execLoad2 rd imm s
  | .load4 rd imm => Sys2Proof.Machine.execLoad4 rd imm s
  | .load8 rd imm => Sys2Proof.Machine.execLoad8 rd imm s
  | .loadr1 rd rs => Sys2Proof.Machine.execLoadr1 rd rs s
  | .loadr2 rd rs => Sys2Proof.Machine.execLoadr2 rd rs s
  | .loadr4 rd rs => Sys2Proof.Machine.execLoadr4 rd rs s
  | .loadr8 rd rs => Sys2Proof.Machine.execLoadr8 rd rs s
  | .store1 rd imm => Sys2Proof.Machine.execStore1 rd imm s
  | .store2 rd imm => Sys2Proof.Machine.execStore2 rd imm s
  | .store4 rd imm => Sys2Proof.Machine.execStore4 rd imm s
  | .store8 rd imm => Sys2Proof.Machine.execStore8 rd imm s
  | .storer1 rd rs => Sys2Proof.Machine.execStorer1 rd rs s
  | .storer2 rd rs => Sys2Proof.Machine.execStorer2 rd rs s
  | .storer4 rd rs => Sys2Proof.Machine.execStorer4 rd rs s
  | .storer8 rd rs => Sys2Proof.Machine.execStorer8 rd rs s
  | .fadd4 rd rs => Sys2Proof.Machine.execFadd4 rd rs s
  | .fsub4 rd rs => Sys2Proof.Machine.execFsub4 rd rs s
  | .fmul4 rd rs => Sys2Proof.Machine.execFmul4 rd rs s
  | .fdiv4 rd rs => Sys2Proof.Machine.execFdiv4 rd rs s
  | .fadd8 rd rs => Sys2Proof.Machine.execFadd8 rd rs s
  | .fsub8 rd rs => Sys2Proof.Machine.execFsub8 rd rs s
  | .fmul8 rd rs => Sys2Proof.Machine.execFmul8 rd rs s
  | .fdiv8 rd rs => Sys2Proof.Machine.execFdiv8 rd rs s
  | .fsqrt4 rd => Sys2Proof.Machine.execFsqrt4 rd s
  | .fsqrt8 rd => Sys2Proof.Machine.execFsqrt8 rd s
  | .fsin4 rd => Sys2Proof.Machine.execFsin4 rd s
  | .fcos4 rd => Sys2Proof.Machine.execFcos4 rd s
  | .fsin8 rd => Sys2Proof.Machine.execFsin8 rd s
  | .fcos8 rd => Sys2Proof.Machine.execFcos8 rd s
  | .intfloat4 rd => Sys2Proof.Machine.execIntfloat4 rd s
  | .intfloat8 rd => Sys2Proof.Machine.execIntfloat8 rd s
  | .ret => Sys2Proof.Machine.execRet s
  | .pop1 rd => Sys2Proof.Machine.execPop1 rd s
  | .pop2 rd => Sys2Proof.Machine.execPop2 rd s
  | .pop4 rd => Sys2Proof.Machine.execPop4 rd s
  | .pop8 rd => Sys2Proof.Machine.execPop8 rd s
  | .push1 rd => Sys2Proof.Machine.execPush1 rd s
  | .push2 rd => Sys2Proof.Machine.execPush2 rd s
  | .push4 rd => Sys2Proof.Machine.execPush4 rd s
  | .push8 rd => Sys2Proof.Machine.execPush8 rd s
  | .cmp1 rd rs => Sys2Proof.Machine.execCmp1 rd rs s
  | .cmp2 rd rs => Sys2Proof.Machine.execCmp2 rd rs s
  | .cmp4 rd rs => Sys2Proof.Machine.execCmp4 rd rs s
  | .cmp8 rd rs => Sys2Proof.Machine.execCmp8 rd rs s
  | .cmpv1 rd imm => Sys2Proof.Machine.execCmpv1 rd imm s
  | .cmpv2 rd imm => Sys2Proof.Machine.execCmpv2 rd imm s
  | .cmpv4 rd imm => Sys2Proof.Machine.execCmpv4 rd imm s
  | .cmpv8 rd imm => Sys2Proof.Machine.execCmpv8 rd imm s

end Sys2Proof.Machine
end

