-- ==== Sys2Proof/Decode.lean ====
section
/-! DEFINITION. Decoding (spec/30_encoding.md R60 to R76) and, after it, encoding (R80). -/

namespace Sys2Proof

open Sys2Proof.Machine

/-- What an opcode selects: the format, and the instruction to build from the format's fields (30_encoding.md R60, R62 to
R67). Format I has no row, because no opcode selects it (R67, conflict C1 of 90_conflicts.md). `reserved` is an opcode that
the source reserves: its other 48 bits are not checked (40_system.md R92). -/
inductive Row where
  /-- Format OP: bits 47:0 zero (R62). -/
  | op (i : Instr)
  /-- Format R: RD in 47:44, bits 43:0 zero (R63). -/
  | r (f : Reg → Instr)
  /-- Format RR: bits 47:8 zero, RD in 7:4, RS in 3:0 (R64). -/
  | rr (f : Reg → Reg → Instr)
  /-- Format RI: RD in 47:44, bits 43:0 zero, a second word `imm` (R65, R68). -/
  | ri (f : Reg → Word → Instr)
  /-- Format RI without a register operand: bits 47:0 zero, a second word `imm` (R69). -/
  | riNoReg (f : Word → Instr)
  /-- A reserved opcode (R73). -/
  | reserved (f : BitVec 48 → Instr)

/-- Opcode map, the main table (30_encoding.md R70). -/
def opcodeRowsMain : List (Nat × Row) :=
  [ (0x0000, .op .parar),
    (0x0001, .op .nop),
    (0x0010, .rr .add),
    (0x0011, .rr .sub),
    (0x0012, .rr .muls),
    (0x0013, .rr .mul),
    (0x0014, .rr .div),
    (0x0020, .ri .addv),
    (0x0021, .ri .subv),
    (0x0030, .r .inc),
    (0x0031, .r .dec),
    (0x0064, .r .clr),
    (0x0040, .r .not),
    (0x0041, .rr .and),
    (0x0042, .ri .andv),
    (0x0043, .rr .or),
    (0x0044, .ri .orv),
    (0x0045, .rr .xor),
    (0x0046, .ri .xorv),
    (0x0050, .r .shi),
    (0x0051, .r .shd),
    (0x0052, .r .ushi),
    (0x0053, .r .ushd),
    (0x0060, .ri .load),
    (0x0061, .ri .loadv),
    (0x0062, .rr .loadr),
    (0x0063, .ri .storev),
    (0x0070, .rr .cmp),
    (0x0071, .ri .cmpv),
    (0x0080, .op .clrZ),
    (0x0081, .op .setZ),
    (0x0082, .op .clrN),
    (0x0083, .op .setN),
    (0x0084, .op .clrC),
    (0x0085, .op .setC),
    (0x0086, .op .clrV),
    (0x0087, .op .setV),
    (0x0090, .riNoReg .jmp),
    (0x0091, .riNoReg .jeq),
    (0x0092, .riNoReg .jne),
    (0x0093, .riNoReg .jn),
    (0x0094, .riNoReg .jnn),
    (0x0095, .riNoReg .jc),
    (0x0096, .riNoReg .jnc),
    (0x0097, .riNoReg .jlt),
    (0x0098, .riNoReg .jge),
    (0x0099, .riNoReg .call),
    (0x00A0, .ri .svio),
    (0x00A1, .ri .loadio),
    (0x00A2, .riNoReg .showio),
    (0x00A3, .reserved .reserved00A3),
    (0x00A4, .reserved .reserved00A4) ]

/-- Opcode map, the tables "Instrucciones con sufijo de tamaño" (30_encoding.md R70). -/
def opcodeRowsArith1 : List (Nat × Row) :=
  [ (0x0100, .rr .add1),
    (0x0101, .rr .sub1),
    (0x0102, .rr .mul1),
    (0x0103, .rr .muls1),
    (0x0104, .rr .div1),
    (0x0110, .ri .addv1),
    (0x0111, .ri .subv1),
    (0x0200, .rr .add2),
    (0x0201, .rr .sub2),
    (0x0202, .rr .mul2),
    (0x0203, .rr .muls2),
    (0x0204, .rr .div2),
    (0x0210, .ri .addv2),
    (0x0211, .ri .subv2),
    (0x0300, .rr .add4),
    (0x0301, .rr .sub4),
    (0x0302, .rr .mul4),
    (0x0303, .rr .muls4),
    (0x0304, .rr .div4),
    (0x0310, .ri .addv4),
    (0x0311, .ri .subv4),
    (0x0312, .rr .add8),
    (0x0313, .rr .sub8),
    (0x0314, .rr .mul8),
    (0x0315, .rr .muls8),
    (0x0316, .rr .div8),
    (0x0317, .ri .addv8),
    (0x0318, .ri .subv8) ]

/-- Opcode map, the tables "MOV / MOVV", "LOAD / LOADR", "STORE / STORER" (30_encoding.md R70). -/
def opcodeRowsMove : List (Nat × Row) :=
  [ (0x0400, .rr .mov1),
    (0x0401, .rr .mov2),
    (0x0402, .rr .mov4),
    (0x0403, .rr .mov8),
    (0x0410, .ri .movv1),
    (0x0411, .ri .movv2),
    (0x0412, .ri .movv4),
    (0x0413, .ri .movv8),
    (0x0500, .ri .load1),
    (0x0501, .ri .load2),
    (0x0502, .ri .load4),
    (0x0503, .ri .load8),
    (0x0510, .rr .loadr1),
    (0x0511, .rr .loadr2),
    (0x0512, .rr .loadr4),
    (0x0513, .rr .loadr8),
    (0x0600, .ri .store1),
    (0x0601, .ri .store2),
    (0x0602, .ri .store4),
    (0x0603, .ri .store8),
    (0x0610, .rr .storer1),
    (0x0611, .rr .storer2),
    (0x0612, .rr .storer4),
    (0x0613, .rr .storer8) ]

/-- Opcode map, the table "FPU" (30_encoding.md R70). -/
def opcodeRowsFpu : List (Nat × Row) :=
  [ (0x0700, .rr .fadd4),
    (0x0701, .rr .fsub4),
    (0x0702, .rr .fmul4),
    (0x0703, .rr .fdiv4),
    (0x0710, .rr .fadd8),
    (0x0711, .rr .fsub8),
    (0x0712, .rr .fmul8),
    (0x0713, .rr .fdiv8),
    (0x0720, .r .fsqrt4),
    (0x0721, .r .fsqrt8),
    (0x0722, .r .fsin4),
    (0x0723, .r .fcos4),
    (0x0724, .r .fsin8),
    (0x0725, .r .fcos8),
    (0x0726, .r .intfloat4),
    (0x0727, .r .intfloat8) ]

/-- Opcode map, the tables "Stack / PUSH / POP" and "CMP size-specific" (30_encoding.md R70). -/
def opcodeRowsStack : List (Nat × Row) :=
  [ (0x0800, .op .ret),
    (0x0810, .r .pop1),
    (0x0811, .r .pop2),
    (0x0812, .r .pop4),
    (0x0813, .r .pop8),
    (0x0820, .r .push1),
    (0x0821, .r .push2),
    (0x0822, .r .push4),
    (0x0823, .r .push8),
    (0x0830, .rr .cmp1),
    (0x0831, .rr .cmp2),
    (0x0832, .rr .cmp4),
    (0x0833, .rr .cmp8),
    (0x0840, .ri .cmpv1),
    (0x0841, .ri .cmpv2),
    (0x0842, .ri .cmpv4),
    (0x0843, .ri .cmpv8) ]

/-- The opcode map (30_encoding.md R70), in the source's order. -/
def opcodeRows : List (Nat × Row) :=
  opcodeRowsMain ++ opcodeRowsArith1 ++ opcodeRowsMove ++ opcodeRowsFpu ++ opcodeRowsStack

/-- The row of an opcode in a list of rows. -/
def lookupRow : List (Nat × Row) → Nat → Option Row
  | [], _ => none
  | (k, row) :: rows, op => if op = k then some row else lookupRow rows op

/-- Step (2) of decoding: the row of a 16-bit opcode, `none` for the 65 399 that are not in the map (30_encoding.md
R71, R74). -/
def findRow (op : BitVec 16) : Option Row := lookupRow opcodeRows op.toNat

/-- Bits 63:48, the opcode, of an instruction word (30_encoding.md R60). -/
def opcodeField (w : Word) : BitVec 16 := w.extractLsb' 48 16

/-- RD of formats R and RI, bits 47:44 (30_encoding.md R61). -/
def rdHigh (w : Word) : Reg := (w.extractLsb' 44 4).toFin

/-- RD of format RR, bits 7:4 (30_encoding.md R61). -/
def rdLow (w : Word) : Reg := (w.extractLsb' 4 4).toFin

/-- RS of format RR, bits 3:0 (30_encoding.md R61). -/
def rsLow (w : Word) : Reg := (w.extractLsb' 0 4).toFin

/-- Why bytes are not decoded. The first two are the spec's fault kinds (30_encoding.md R71); `truncated` says that a list
of bytes handed to `decodeBytes` ends inside an instruction, which a fetch from memory cannot meet. -/
inductive DecodeError where
  | illegalOpcode | illegalEncoding | truncated
deriving DecidableEq, Repr

/-- What an instruction word decodes to: an instruction, or one that waits for its second word (30_encoding.md R65). -/
inductive Decoded where
  | whole (i : Instr)
  | needsImm (f : Word → Instr)

/-- Step (4) of decoding: the zero fields of the row's format hold zero (30_encoding.md R68, R69, R71). -/
def zeroFieldsOk (row : Row) (w : Word) : Bool :=
  match row with
  | .op _ => w.extractLsb' 0 48 == 0
  | .r _ => w.extractLsb' 0 44 == 0
  | .rr _ => w.extractLsb' 8 40 == 0
  | .ri _ => w.extractLsb' 0 44 == 0
  | .riNoReg _ => w.extractLsb' 0 48 == 0
  | .reserved _ => true

/-- Step (5) of decoding: the operands out of the word (30_encoding.md R61, R71). -/
def rowOperands (row : Row) (w : Word) : Decoded :=
  match row with
  | .op i => .whole i
  | .r f => .whole (f (rdHigh w))
  | .rr f => .whole (f (rdLow w) (rsLow w))
  | .ri f => .needsImm (f (rdHigh w))
  | .riNoReg f => .needsImm f
  | .reserved f => .whole (f (w.extractLsb' 0 48))

/-- Decoding an instruction word (30_encoding.md R71 (1) to (5)): the opcode first, then the zero fields. -/
def decodeWord (w : Word) : Except DecodeError Decoded :=
  match findRow (opcodeField w) with
  | none => .error .illegalOpcode
  | some row => if zeroFieldsOk row w then .ok (rowOperands row w) else .error .illegalEncoding

/-- The first word of a list of bytes in address order, and the bytes after it; `none` if there are fewer than 8. -/
def takeWord (e : Endian) (bs : List Byte) : Option (Word × List Byte) :=
  if bs.length < 8 then none else some (assemble e 8 (bs.take 8), bs.drop 8)

/-- Decoding the first instruction of a list of bytes in address order, and the bytes after it (30_encoding.md R71;
20_memory.md R41). -/
def decodeBytes (e : Endian) (bs : List Byte) : Except DecodeError (Instr × List Byte) :=
  match takeWord e bs with
  | none => .error .truncated
  | some (w, rest) =>
    match decodeWord w with
    | .error x => .error x
    | .ok (.whole i) => .ok (i, rest)
    | .ok (.needsImm f) =>
      match takeWord e rest with
      | none => .error .truncated
      | some (imm, rest') => .ok (f imm, rest')

/-- The two words of an instruction whose bits are `w`, `nbits` of them, numbered from the first word's bit 0; the bits
above are 0. -/
def tableWords (nbits w : Nat) : Word × Word :=
  (BitVec.ofNat 64 (w % 2 ^ nbits), BitVec.ofNat 64 (w % 2 ^ nbits / 2 ^ 64))

/-- Those two words laid out in memory order. -/
def tableBytes (e : Endian) (nbits w : Nat) : List Byte :=
  disassemble e 8 (tableWords nbits w).1 ++ disassemble e 8 (tableWords nbits w).2

/-- The instruction the decoder reads from an instruction whose bits are `w`. -/
def decodeTableWord (nbits w : Nat) : Option Instr :=
  match decodeBytes Params.working.endian (tableBytes Params.working.endian nbits w) with
  | .ok (i, _) => some i
  | .error _ => none

/-! ## Encoding (30_encoding.md R80) -/

/-- The fields an instruction is encoded in, by format (30_encoding.md R62 to R65, R69). -/
inductive Fields where
  | op (opcode : BitVec 16)
  | r (opcode : BitVec 16) (rd : Reg)
  | rr (opcode : BitVec 16) (rd rs : Reg)
  | ri (opcode : BitVec 16) (rd : Reg) (imm : Word)
  | riNoReg (opcode : BitVec 16) (imm : Word)
  | reserved (opcode : BitVec 16) (low : BitVec 48)
deriving DecidableEq, Repr

/-- The fields of an instruction (30_encoding.md R70: opcode and format columns). -/
def fields : Instr → Fields
  | .parar => .op 0x0000
  | .nop => .op 0x0001
  | .add rd rs => .rr 0x0010 rd rs
  | .sub rd rs => .rr 0x0011 rd rs
  | .muls rd rs => .rr 0x0012 rd rs
  | .mul rd rs => .rr 0x0013 rd rs
  | .div rd rs => .rr 0x0014 rd rs
  | .addv rd imm => .ri 0x0020 rd imm
  | .subv rd imm => .ri 0x0021 rd imm
  | .inc rd => .r 0x0030 rd
  | .dec rd => .r 0x0031 rd
  | .clr rd => .r 0x0064 rd
  | .not rd => .r 0x0040 rd
  | .and rd rs => .rr 0x0041 rd rs
  | .andv rd imm => .ri 0x0042 rd imm
  | .or rd rs => .rr 0x0043 rd rs
  | .orv rd imm => .ri 0x0044 rd imm
  | .xor rd rs => .rr 0x0045 rd rs
  | .xorv rd imm => .ri 0x0046 rd imm
  | .shi rd => .r 0x0050 rd
  | .shd rd => .r 0x0051 rd
  | .ushi rd => .r 0x0052 rd
  | .ushd rd => .r 0x0053 rd
  | .load rd imm => .ri 0x0060 rd imm
  | .loadv rd imm => .ri 0x0061 rd imm
  | .loadr rd rs => .rr 0x0062 rd rs
  | .storev rd imm => .ri 0x0063 rd imm
  | .cmp rd rs => .rr 0x0070 rd rs
  | .cmpv rd imm => .ri 0x0071 rd imm
  | .clrZ => .op 0x0080
  | .setZ => .op 0x0081
  | .clrN => .op 0x0082
  | .setN => .op 0x0083
  | .clrC => .op 0x0084
  | .setC => .op 0x0085
  | .clrV => .op 0x0086
  | .setV => .op 0x0087
  | .jmp imm => .riNoReg 0x0090 imm
  | .jeq imm => .riNoReg 0x0091 imm
  | .jne imm => .riNoReg 0x0092 imm
  | .jn imm => .riNoReg 0x0093 imm
  | .jnn imm => .riNoReg 0x0094 imm
  | .jc imm => .riNoReg 0x0095 imm
  | .jnc imm => .riNoReg 0x0096 imm
  | .jlt imm => .riNoReg 0x0097 imm
  | .jge imm => .riNoReg 0x0098 imm
  | .call imm => .riNoReg 0x0099 imm
  | .svio rd imm => .ri 0x00A0 rd imm
  | .loadio rd imm => .ri 0x00A1 rd imm
  | .showio imm => .riNoReg 0x00A2 imm
  | .reserved00A3 low => .reserved 0x00A3 low
  | .reserved00A4 low => .reserved 0x00A4 low
  | .add1 rd rs => .rr 0x0100 rd rs
  | .sub1 rd rs => .rr 0x0101 rd rs
  | .mul1 rd rs => .rr 0x0102 rd rs
  | .muls1 rd rs => .rr 0x0103 rd rs
  | .div1 rd rs => .rr 0x0104 rd rs
  | .addv1 rd imm => .ri 0x0110 rd imm
  | .subv1 rd imm => .ri 0x0111 rd imm
  | .add2 rd rs => .rr 0x0200 rd rs
  | .sub2 rd rs => .rr 0x0201 rd rs
  | .mul2 rd rs => .rr 0x0202 rd rs
  | .muls2 rd rs => .rr 0x0203 rd rs
  | .div2 rd rs => .rr 0x0204 rd rs
  | .addv2 rd imm => .ri 0x0210 rd imm
  | .subv2 rd imm => .ri 0x0211 rd imm
  | .add4 rd rs => .rr 0x0300 rd rs
  | .sub4 rd rs => .rr 0x0301 rd rs
  | .mul4 rd rs => .rr 0x0302 rd rs
  | .muls4 rd rs => .rr 0x0303 rd rs
  | .div4 rd rs => .rr 0x0304 rd rs
  | .addv4 rd imm => .ri 0x0310 rd imm
  | .subv4 rd imm => .ri 0x0311 rd imm
  | .add8 rd rs => .rr 0x0312 rd rs
  | .sub8 rd rs => .rr 0x0313 rd rs
  | .mul8 rd rs => .rr 0x0314 rd rs
  | .muls8 rd rs => .rr 0x0315 rd rs
  | .div8 rd rs => .rr 0x0316 rd rs
  | .addv8 rd imm => .ri 0x0317 rd imm
  | .subv8 rd imm => .ri 0x0318 rd imm
  | .mov1 rd rs => .rr 0x0400 rd rs
  | .mov2 rd rs => .rr 0x0401 rd rs
  | .mov4 rd rs => .rr 0x0402 rd rs
  | .mov8 rd rs => .rr 0x0403 rd rs
  | .movv1 rd imm => .ri 0x0410 rd imm
  | .movv2 rd imm => .ri 0x0411 rd imm
  | .movv4 rd imm => .ri 0x0412 rd imm
  | .movv8 rd imm => .ri 0x0413 rd imm
  | .load1 rd imm => .ri 0x0500 rd imm
  | .load2 rd imm => .ri 0x0501 rd imm
  | .load4 rd imm => .ri 0x0502 rd imm
  | .load8 rd imm => .ri 0x0503 rd imm
  | .loadr1 rd rs => .rr 0x0510 rd rs
  | .loadr2 rd rs => .rr 0x0511 rd rs
  | .loadr4 rd rs => .rr 0x0512 rd rs
  | .loadr8 rd rs => .rr 0x0513 rd rs
  | .store1 rd imm => .ri 0x0600 rd imm
  | .store2 rd imm => .ri 0x0601 rd imm
  | .store4 rd imm => .ri 0x0602 rd imm
  | .store8 rd imm => .ri 0x0603 rd imm
  | .storer1 rd rs => .rr 0x0610 rd rs
  | .storer2 rd rs => .rr 0x0611 rd rs
  | .storer4 rd rs => .rr 0x0612 rd rs
  | .storer8 rd rs => .rr 0x0613 rd rs
  | .fadd4 rd rs => .rr 0x0700 rd rs
  | .fsub4 rd rs => .rr 0x0701 rd rs
  | .fmul4 rd rs => .rr 0x0702 rd rs
  | .fdiv4 rd rs => .rr 0x0703 rd rs
  | .fadd8 rd rs => .rr 0x0710 rd rs
  | .fsub8 rd rs => .rr 0x0711 rd rs
  | .fmul8 rd rs => .rr 0x0712 rd rs
  | .fdiv8 rd rs => .rr 0x0713 rd rs
  | .fsqrt4 rd => .r 0x0720 rd
  | .fsqrt8 rd => .r 0x0721 rd
  | .fsin4 rd => .r 0x0722 rd
  | .fcos4 rd => .r 0x0723 rd
  | .fsin8 rd => .r 0x0724 rd
  | .fcos8 rd => .r 0x0725 rd
  | .intfloat4 rd => .r 0x0726 rd
  | .intfloat8 rd => .r 0x0727 rd
  | .ret => .op 0x0800
  | .pop1 rd => .r 0x0810 rd
  | .pop2 rd => .r 0x0811 rd
  | .pop4 rd => .r 0x0812 rd
  | .pop8 rd => .r 0x0813 rd
  | .push1 rd => .r 0x0820 rd
  | .push2 rd => .r 0x0821 rd
  | .push4 rd => .r 0x0822 rd
  | .push8 rd => .r 0x0823 rd
  | .cmp1 rd rs => .rr 0x0830 rd rs
  | .cmp2 rd rs => .rr 0x0831 rd rs
  | .cmp4 rd rs => .rr 0x0832 rd rs
  | .cmp8 rd rs => .rr 0x0833 rd rs
  | .cmpv1 rd imm => .ri 0x0840 rd imm
  | .cmpv2 rd imm => .ri 0x0841 rd imm
  | .cmpv4 rd imm => .ri 0x0842 rd imm
  | .cmpv8 rd imm => .ri 0x0843 rd imm

/-- A register number as a 4-bit field. -/
def regField (r : Reg) : BitVec 4 := BitVec.ofFin r

/-- The words that hold the fields (30_encoding.md R80): the opcode in 63:48, the registers in the places of R61, zero
elsewhere, and `imm` in the second word. -/
def wordsOf : Fields → List Word
  | .op opc => [opc ++ 0#48]
  | .r opc rd => [opc ++ regField rd ++ 0#44]
  | .rr opc rd rs => [opc ++ 0#40 ++ regField rd ++ regField rs]
  | .ri opc rd imm => [opc ++ regField rd ++ 0#44, imm]
  | .riNoReg opc imm => [opc ++ 0#48, imm]
  | .reserved opc low => [opc ++ low]

/-- The words of an instruction (30_encoding.md R80). -/
def encode (i : Instr) : List Word := wordsOf (fields i)

/-- The first word of an instruction, the one that holds its opcode (30_encoding.md R60). -/
def firstWord (i : Instr) : Word := (encode i).headD 0

/-- The length of an instruction in bytes: 16 for format RI, 8 for the others (30_encoding.md R65, R76). -/
def Instr.length (i : Instr) : Nat := 8 * (encode i).length

/-- The bytes of an instruction at rising addresses (30_encoding.md R80, 20_memory.md R41). -/
def encodeBytes (e : Endian) (i : Instr) : List Byte := (encode i).flatMap (disassemble e 8)

end Sys2Proof
end

