-- ==== Sys2Proof/Machine/Fetch.lean ====
section
/-! DEFINITION. Fetching and decoding the next instruction from memory (spec/00_scope.md R10, R16; 30_encoding.md R71), and
placing words in memory where the fetch finds them (70_reset_and_hazards.md R345). -/

namespace Sys2Proof.Machine

/-- `Fetch(a)` (00_scope.md R10): the alignment check of 20_memory.md R43, then `MemRead(a, 8)`. -/
def fetchWord (s : State) (a : Word) : Except FaultInfo Word :=
  if a.toNat % 8 ≠ 0 then .error ⟨.misalignedFetch, a⟩ else memRead s a .b8

/-- The fault of a word that does not decode; the info is the word (30_encoding.md R71). The last case cannot occur in a
fetch, which reads whole words: `decodeWord` never answers it. -/
def decodeFault (x : DecodeError) (w : Word) : FaultInfo :=
  match x with
  | .illegalOpcode => ⟨.illegalOpcode, w⟩
  | .illegalEncoding => ⟨.illegalEncoding, w⟩
  | .truncated => ⟨.illegalEncoding, w⟩

/-- The word at `pc` (00_scope.md R16). A `pc` that left memory by an advance past the top faults as one outside memory, after the
alignment check (10_state.md R24, 60_exceptions.md R322 (1), (2); notes/assumptions/22.md). -/
def fetchFirst (s : State) : Except FaultInfo Word :=
  match fetchWord s s.pc with
  | .error f => .error f
  | .ok w => if s.pcWrapped then .error ⟨.memOutOfRange, s.pc⟩ else .ok w

/-- The second word of a format RI instruction, at `pc + 8`, its range computed on natural numbers (20_memory.md R45, 60_exceptions.md
R322 (5)). -/
def fetchSecond (s : State) : Except FaultInfo Word :=
  if s.pc.toNat + 16 ≤ s.par.memSize then memRead s (s.pc + 8) .b8 else .error ⟨.memOutOfRange, s.pc + 8⟩

/-- The instruction at `pc`, or the first fault in the order of 60_exceptions.md R322 (1) to (5): the second word is read only
after the first has decoded to format RI. -/
def fetchInstr (s : State) : Except FaultInfo Instr :=
  match fetchFirst s with
  | .error f => .error f
  | .ok w =>
    match decodeWord w with
    | .error x => .error (decodeFault x w)
    | .ok (.whole i) => .ok i
    | .ok (.needsImm f) => (fetchSecond s).map f

/-- Two words put where the next fetch reads an instruction, at `pc` and `pc + 8`, in the machine's byte order; bytes that lie
outside memory are not stored (20_memory.md R45). -/
def placeAtPc (s : State) (ws : Word × Word) : State :=
  { s with
    mem := Memory.writeCells s.mem
      (((List.range' s.pc.toNat 16).zip
        (disassemble s.par.endian 8 ws.1 ++ disassemble s.par.endian 8 ws.2)).filter
          fun c => decide (c.1 < s.par.memSize)) }

end Sys2Proof.Machine
end

