-- ==== Sys2Proof/Machine/Step.lean ====
section
/-! DEFINITION. One step of the machine (spec/00_scope.md R16). -/

namespace Sys2Proof.Machine

/-- One step (00_scope.md R16): none when the run state is Halted or Faulted; otherwise fetch and decode, where a fault is
raised with nothing else changed, and then the instruction's rule. -/
def step (s : State) : Host.Outcome State Fault Refusal :=
  match s.run with
  | .halted => .fault .halted
  | .faulted k info => .fault (.faulted k info)
  | .running =>
    match fetchInstr s with
    | .error f => raise f s
    | .ok i => exec i s

/-- `s` with an instruction whose bits are `w`, `nbits` of them, stored where `step` fetches next: at `pc`. It stands for the
host's load of a program (70_reset_and_hazards.md R345; notes/assumptions/21.md). -/
def State.withFetchWord (s : State) (nbits w : Nat) : State := placeAtPc s (tableWords nbits w)

end Sys2Proof.Machine
end

