-- ==== Sys2Proof/WellFormed.lean ====
section
/-! DEFINITION. What makes the parameters and a program image well formed. An `Instr` is well formed by its type: a register
operand is one of the 16 registers (10_state.md R20 to R22), an immediate is any 64 bits (30_encoding.md R66, R71) and a
format RI instruction without a register operand has none to be non-zero (R69), so there is no instruction to refuse
here; the encodings that are no instruction are refused by the decoder (Decode.lean). -/

namespace Sys2Proof

/-- The parameters are ones the spec allows: `0 < MEM_SIZE <= 2^64` and `CODE_RANGE` a range of memory (00_scope.md
section 4, 20_memory.md R47). `SHIFT_COUNT` in 0..63 is its type. -/
def Params.wf (p : Params) : Bool :=
  decide (0 < p.memSize) && decide (p.memSize ≤ 2 ^ 64)
    && decide (p.codeRange.lo ≤ p.codeRange.hi) && decide (p.codeRange.hi ≤ p.memSize)

/-- A program image (70_reset_and_hazards.md R345): the 64-bit instruction and immediate words of the code part, from
address `base` upwards, and the initial data bytes, each at its address. -/
structure Image where
  base : Nat
  code : List Word
  data : List Host.Cell
deriving DecidableEq, Repr

/-- The range the code part fills, the image's `CODE_RANGE` (70_reset_and_hazards.md R345). -/
def Image.codeRange (img : Image) : CodeRange := ⟨img.base, img.base + 8 * img.code.length⟩

/-- An image the spec allows under parameters `p` (70_reset_and_hazards.md R345): its words stand at multiples of 8, the
code part lies in memory and contains `RESET_PC`, and every data byte lies in memory outside the code part. -/
def Image.wf (p : Params) (img : Image) : Bool :=
  decide (img.base % 8 = 0) && decide (img.codeRange.hi ≤ p.memSize)
    && decide (img.codeRange.lo ≤ p.resetPc.toNat) && decide (p.resetPc.toNat < img.codeRange.hi)
    && img.data.all fun c =>
      decide (c.1 < p.memSize) && (decide (c.1 < img.codeRange.lo) || decide (img.codeRange.hi ≤ c.1))

end Sys2Proof
end

