-- ==== Sys2Proof/Machine/Load.lean ====
section
/-! DEFINITION. How a program comes to run: the host places its image in memory before the first step
(spec/70_reset_and_hazards.md R345). -/

namespace Sys2Proof.Machine

/-- The machine right after reset under parameters `p` with the image loaded: the code words in the byte order of
20_memory.md R40, then the data bytes; `CODE_RANGE` is the range the code part fills. -/
def loadImage (p : Params) (img : Image) : State :=
  { State.resetWith { p with codeRange := img.codeRange } with
    mem := Memory.writeCells (Memory.writeWords p.endian [] img.base img.code) img.data }

end Sys2Proof.Machine
end

