-- ==== Sys2Proof/Machine/Effects.lean ====
section
/-! DEFINITION. Which parts of the state each instruction reaches, as the tables of the spec list them (spec/20_memory.md R44, 10_state.md
R22, R25, R27): the vocabulary of whole-machine statements. The meanings do not use these tables. -/

namespace Sys2Proof.Machine

/-- A data access: `size` bytes at `addr`, written if `store`. -/
structure Access where
  addr : Word
  size : Size
  store : Bool
deriving DecidableEq, Repr

/-- The one data access of an instruction, by the table of 20_memory.md R44; instruction fetch apart. The addresses are computed by
the operations the meanings use. -/
def access (i : Instr) (s : State) : Option Access :=
  match i with
  | .load _ imm => some ⟨eaImm imm, .b8, false⟩
  | .loadr _ rs => some ⟨eaReg rs s, .b8, false⟩
  | .storev _ imm => some ⟨eaImm imm, .b8, true⟩
  | .call _ => some ⟨pushAddr .b8 s, .b8, true⟩
  | .load1 _ imm => some ⟨eaImm imm, .b1, false⟩
  | .load2 _ imm => some ⟨eaImm imm, .b2, false⟩
  | .load4 _ imm => some ⟨eaImm imm, .b4, false⟩
  | .load8 _ imm => some ⟨eaImm imm, .b8, false⟩
  | .loadr1 _ rs => some ⟨eaReg rs s, .b1, false⟩
  | .loadr2 _ rs => some ⟨eaReg rs s, .b2, false⟩
  | .loadr4 _ rs => some ⟨eaReg rs s, .b4, false⟩
  | .loadr8 _ rs => some ⟨eaReg rs s, .b8, false⟩
  | .store1 _ imm => some ⟨eaImm imm, .b1, true⟩
  | .store2 _ imm => some ⟨eaImm imm, .b2, true⟩
  | .store4 _ imm => some ⟨eaImm imm, .b4, true⟩
  | .store8 _ imm => some ⟨eaImm imm, .b8, true⟩
  | .storer1 rd rs => some ⟨eaReg (storerRoles rd rs).1 s, .b1, true⟩
  | .storer2 rd rs => some ⟨eaReg (storerRoles rd rs).1 s, .b2, true⟩
  | .storer4 rd rs => some ⟨eaReg (storerRoles rd rs).1 s, .b4, true⟩
  | .storer8 rd rs => some ⟨eaReg (storerRoles rd rs).1 s, .b8, true⟩
  | .ret => some ⟨s.sp, .b8, false⟩
  | .pop1 _ => some ⟨s.sp, .b1, false⟩
  | .pop2 _ => some ⟨s.sp, .b2, false⟩
  | .pop4 _ => some ⟨s.sp, .b4, false⟩
  | .pop8 _ => some ⟨s.sp, .b8, false⟩
  | .push1 _ => some ⟨pushAddr .b1 s, .b1, true⟩
  | .push2 _ => some ⟨pushAddr .b2 s, .b2, true⟩
  | .push4 _ => some ⟨pushAddr .b4 s, .b4, true⟩
  | .push8 _ => some ⟨pushAddr .b8 s, .b8, true⟩
  | .parar | .nop | .add _ _ | .sub _ _ | .muls _ _ | .mul _ _ | .div _ _ | .addv _ _ | .subv _ _ | .inc _
  | .dec _ | .clr _ | .not _ | .and _ _ | .andv _ _ | .or _ _ | .orv _ _ | .xor _ _ | .xorv _ _ | .shi _
  | .shd _ | .ushi _ | .ushd _ | .loadv _ _ | .cmp _ _ | .cmpv _ _ | .clrZ | .setZ | .clrN | .setN | .clrC
  | .setC | .clrV | .setV | .jmp _ | .jeq _ | .jne _ | .jn _ | .jnn _ | .jc _ | .jnc _ | .jlt _ | .jge _
  | .svio _ _ | .loadio _ _ | .showio _ | .reserved00A3 _ | .reserved00A4 _ | .add1 _ _ | .sub1 _ _
  | .mul1 _ _ | .muls1 _ _ | .div1 _ _ | .addv1 _ _ | .subv1 _ _ | .add2 _ _ | .sub2 _ _ | .mul2 _ _
  | .muls2 _ _ | .div2 _ _ | .addv2 _ _ | .subv2 _ _ | .add4 _ _ | .sub4 _ _ | .mul4 _ _ | .muls4 _ _
  | .div4 _ _ | .addv4 _ _ | .subv4 _ _ | .add8 _ _ | .sub8 _ _ | .mul8 _ _ | .muls8 _ _ | .div8 _ _
  | .addv8 _ _ | .subv8 _ _ | .mov1 _ _ | .mov2 _ _ | .mov4 _ _ | .mov8 _ _ | .movv1 _ _ | .movv2 _ _
  | .movv4 _ _ | .movv8 _ _ | .fadd4 _ _ | .fsub4 _ _ | .fmul4 _ _ | .fdiv4 _ _ | .fadd8 _ _ | .fsub8 _ _
  | .fmul8 _ _ | .fdiv8 _ _ | .fsqrt4 _ | .fsqrt8 _ | .fsin4 _ | .fcos4 _ | .fsin8 _ | .fcos8 _
  | .intfloat4 _ | .intfloat8 _ | .cmp1 _ _ | .cmp2 _ _ | .cmp4 _ _ | .cmp8 _ _ | .cmpv1 _ _ | .cmpv2 _ _
  | .cmpv4 _ _ | .cmpv8 _ _ => none

/-- How an instruction treats the flags (10_state.md R27). -/
inductive FlagRule where
  /-- Writes the one named flag (CLR.Z to SET.V). -/
  | one
  /-- Writes all four by `FlagsSub` (the compares). -/
  | compare
  /-- Ends with `HavocFlags()` (arithmetic, logic, shifts, FPU). -/
  | havoc
  /-- Leaves all four. -/
  | keep
deriving DecidableEq, Repr

/-- The flag rule of an instruction, by the table of 10_state.md R27; a reserved opcode, which faults, leaves the flags (40_system.md
R92). -/
def flagRule : Instr → FlagRule
  | .clrZ | .setZ | .clrN | .setN | .clrC | .setC | .clrV | .setV => .one
  | .cmp _ _ | .cmpv _ _ | .cmp1 _ _ | .cmp2 _ _ | .cmp4 _ _ | .cmp8 _ _ | .cmpv1 _ _ | .cmpv2 _ _
  | .cmpv4 _ _ | .cmpv8 _ _ => .compare
  | .add _ _ | .sub _ _ | .muls _ _ | .mul _ _ | .div _ _ | .addv _ _ | .subv _ _ | .inc _ | .dec _ | .clr _
  | .not _ | .and _ _ | .andv _ _ | .or _ _ | .orv _ _ | .xor _ _ | .xorv _ _ | .shi _ | .shd _ | .ushi _
  | .ushd _ | .add1 _ _ | .sub1 _ _ | .mul1 _ _ | .muls1 _ _ | .div1 _ _ | .addv1 _ _ | .subv1 _ _
  | .add2 _ _ | .sub2 _ _ | .mul2 _ _ | .muls2 _ _ | .div2 _ _ | .addv2 _ _ | .subv2 _ _ | .add4 _ _
  | .sub4 _ _ | .mul4 _ _ | .muls4 _ _ | .div4 _ _ | .addv4 _ _ | .subv4 _ _ | .add8 _ _ | .sub8 _ _
  | .mul8 _ _ | .muls8 _ _ | .div8 _ _ | .addv8 _ _ | .subv8 _ _ | .fadd4 _ _ | .fsub4 _ _ | .fmul4 _ _
  | .fdiv4 _ _ | .fadd8 _ _ | .fsub8 _ _ | .fmul8 _ _ | .fdiv8 _ _ | .fsqrt4 _ | .fsqrt8 _ | .fsin4 _
  | .fcos4 _ | .fsin8 _ | .fcos8 _ | .intfloat4 _ | .intfloat8 _ => .havoc
  | .parar | .nop | .load _ _ | .loadv _ _ | .loadr _ _ | .storev _ _ | .jmp _ | .jeq _ | .jne _ | .jn _
  | .jnn _ | .jc _ | .jnc _ | .jlt _ | .jge _ | .call _ | .svio _ _ | .loadio _ _ | .showio _
  | .reserved00A3 _ | .reserved00A4 _ | .mov1 _ _ | .mov2 _ _ | .mov4 _ _ | .mov8 _ _ | .movv1 _ _
  | .movv2 _ _ | .movv4 _ _ | .movv8 _ _ | .load1 _ _ | .load2 _ _ | .load4 _ _ | .load8 _ _ | .loadr1 _ _
  | .loadr2 _ _ | .loadr4 _ _ | .loadr8 _ _ | .store1 _ _ | .store2 _ _ | .store4 _ _ | .store8 _ _
  | .storer1 _ _ | .storer2 _ _ | .storer4 _ _ | .storer8 _ _ | .ret | .pop1 _ | .pop2 _ | .pop4 _ | .pop8 _
  | .push1 _ | .push2 _ | .push4 _ | .push8 _ => .keep

/-- The instructions that write `sp` (10_state.md R25). -/
def writesSp : Instr → Bool
  | .call _ | .ret | .pop1 _ | .pop2 _ | .pop4 _ | .pop8 _ | .push1 _ | .push2 _ | .push4 _ | .push8 _ => true
  | .parar | .nop | .add _ _ | .sub _ _ | .muls _ _ | .mul _ _ | .div _ _ | .addv _ _ | .subv _ _ | .inc _
  | .dec _ | .clr _ | .not _ | .and _ _ | .andv _ _ | .or _ _ | .orv _ _ | .xor _ _ | .xorv _ _ | .shi _
  | .shd _ | .ushi _ | .ushd _ | .load _ _ | .loadv _ _ | .loadr _ _ | .storev _ _ | .cmp _ _ | .cmpv _ _
  | .clrZ | .setZ | .clrN | .setN | .clrC | .setC | .clrV | .setV | .jmp _ | .jeq _ | .jne _ | .jn _
  | .jnn _ | .jc _ | .jnc _ | .jlt _ | .jge _ | .svio _ _ | .loadio _ _ | .showio _ | .reserved00A3 _
  | .reserved00A4 _ | .add1 _ _ | .sub1 _ _ | .mul1 _ _ | .muls1 _ _ | .div1 _ _ | .addv1 _ _ | .subv1 _ _
  | .add2 _ _ | .sub2 _ _ | .mul2 _ _ | .muls2 _ _ | .div2 _ _ | .addv2 _ _ | .subv2 _ _ | .add4 _ _
  | .sub4 _ _ | .mul4 _ _ | .muls4 _ _ | .div4 _ _ | .addv4 _ _ | .subv4 _ _ | .add8 _ _ | .sub8 _ _
  | .mul8 _ _ | .muls8 _ _ | .div8 _ _ | .addv8 _ _ | .subv8 _ _ | .mov1 _ _ | .mov2 _ _ | .mov4 _ _
  | .mov8 _ _ | .movv1 _ _ | .movv2 _ _ | .movv4 _ _ | .movv8 _ _ | .load1 _ _ | .load2 _ _ | .load4 _ _
  | .load8 _ _ | .loadr1 _ _ | .loadr2 _ _ | .loadr4 _ _ | .loadr8 _ _ | .store1 _ _ | .store2 _ _
  | .store4 _ _ | .store8 _ _ | .storer1 _ _ | .storer2 _ _ | .storer4 _ _ | .storer8 _ _ | .fadd4 _ _
  | .fsub4 _ _ | .fmul4 _ _ | .fdiv4 _ _ | .fadd8 _ _ | .fsub8 _ _ | .fmul8 _ _ | .fdiv8 _ _ | .fsqrt4 _
  | .fsqrt8 _ | .fsin4 _ | .fcos4 _ | .fsin8 _ | .fcos8 _ | .intfloat4 _ | .intfloat8 _ | .cmp1 _ _
  | .cmp2 _ _ | .cmp4 _ _ | .cmp8 _ _ | .cmpv1 _ _ | .cmpv2 _ _ | .cmpv4 _ _ | .cmpv8 _ _ => false

/-- The I/O address of an instruction that reaches the I/O system (10_state.md R32, 46_io.md R282 to R284). -/
def ioAddress : Instr → Option Word
  | .svio _ imm | .loadio _ imm | .showio imm => some imm
  | .parar | .nop | .add _ _ | .sub _ _ | .muls _ _ | .mul _ _ | .div _ _ | .addv _ _ | .subv _ _ | .inc _
  | .dec _ | .clr _ | .not _ | .and _ _ | .andv _ _ | .or _ _ | .orv _ _ | .xor _ _ | .xorv _ _ | .shi _
  | .shd _ | .ushi _ | .ushd _ | .load _ _ | .loadv _ _ | .loadr _ _ | .storev _ _ | .cmp _ _ | .cmpv _ _
  | .clrZ | .setZ | .clrN | .setN | .clrC | .setC | .clrV | .setV | .jmp _ | .jeq _ | .jne _ | .jn _ | .jnn _
  | .jc _ | .jnc _ | .jlt _ | .jge _ | .call _ | .reserved00A3 _ | .reserved00A4 _ | .add1 _ _ | .sub1 _ _
  | .mul1 _ _ | .muls1 _ _ | .div1 _ _ | .addv1 _ _ | .subv1 _ _ | .add2 _ _ | .sub2 _ _ | .mul2 _ _
  | .muls2 _ _ | .div2 _ _ | .addv2 _ _ | .subv2 _ _ | .add4 _ _ | .sub4 _ _ | .mul4 _ _ | .muls4 _ _
  | .div4 _ _ | .addv4 _ _ | .subv4 _ _ | .add8 _ _ | .sub8 _ _ | .mul8 _ _ | .muls8 _ _ | .div8 _ _
  | .addv8 _ _ | .subv8 _ _ | .mov1 _ _ | .mov2 _ _ | .mov4 _ _ | .mov8 _ _ | .movv1 _ _ | .movv2 _ _
  | .movv4 _ _ | .movv8 _ _ | .load1 _ _ | .load2 _ _ | .load4 _ _ | .load8 _ _ | .loadr1 _ _ | .loadr2 _ _
  | .loadr4 _ _ | .loadr8 _ _ | .store1 _ _ | .store2 _ _ | .store4 _ _ | .store8 _ _ | .storer1 _ _
  | .storer2 _ _ | .storer4 _ _ | .storer8 _ _ | .fadd4 _ _ | .fsub4 _ _ | .fmul4 _ _ | .fdiv4 _ _ | .fadd8 _ _
  | .fsub8 _ _ | .fmul8 _ _ | .fdiv8 _ _ | .fsqrt4 _ | .fsqrt8 _ | .fsin4 _ | .fcos4 _ | .fsin8 _ | .fcos8 _
  | .intfloat4 _ | .intfloat8 _ | .ret | .pop1 _ | .pop2 _ | .pop4 _ | .pop8 _ | .push1 _ | .push2 _ | .push4 _
  | .push8 _ | .cmp1 _ _ | .cmp2 _ _ | .cmp4 _ _ | .cmp8 _ _ | .cmpv1 _ _ | .cmpv2 _ _ | .cmpv4 _ _ | .cmpv8 _ _ => none

/-- The size and the registers of dividend and divisor of a division (41_arithmetic.md R141). -/
def divides : Instr → Option (Size × Reg × Reg)
  | .div rd rs => some (.b8, rd, rs)
  | .div1 rd rs => some (.b1, rd, rs)
  | .div2 rd rs => some (.b2, rd, rs)
  | .div4 rd rs => some (.b4, rd, rs)
  | .div8 rd rs => some (.b8, rd, rs)
  | .parar | .nop | .add _ _ | .sub _ _ | .muls _ _ | .mul _ _ | .addv _ _ | .subv _ _ | .inc _ | .dec _
  | .clr _ | .not _ | .and _ _ | .andv _ _ | .or _ _ | .orv _ _ | .xor _ _ | .xorv _ _ | .shi _ | .shd _
  | .ushi _ | .ushd _ | .load _ _ | .loadv _ _ | .loadr _ _ | .storev _ _ | .cmp _ _ | .cmpv _ _ | .clrZ | .setZ
  | .clrN | .setN | .clrC | .setC | .clrV | .setV | .jmp _ | .jeq _ | .jne _ | .jn _ | .jnn _ | .jc _ | .jnc _
  | .jlt _ | .jge _ | .call _ | .svio _ _ | .loadio _ _ | .showio _ | .reserved00A3 _ | .reserved00A4 _
  | .add1 _ _ | .sub1 _ _ | .mul1 _ _ | .muls1 _ _ | .addv1 _ _ | .subv1 _ _ | .add2 _ _ | .sub2 _ _ | .mul2 _ _
  | .muls2 _ _ | .addv2 _ _ | .subv2 _ _ | .add4 _ _ | .sub4 _ _ | .mul4 _ _ | .muls4 _ _ | .addv4 _ _
  | .subv4 _ _ | .add8 _ _ | .sub8 _ _ | .mul8 _ _ | .muls8 _ _ | .addv8 _ _ | .subv8 _ _ | .mov1 _ _
  | .mov2 _ _ | .mov4 _ _ | .mov8 _ _ | .movv1 _ _ | .movv2 _ _ | .movv4 _ _ | .movv8 _ _ | .load1 _ _
  | .load2 _ _ | .load4 _ _ | .load8 _ _ | .loadr1 _ _ | .loadr2 _ _ | .loadr4 _ _ | .loadr8 _ _ | .store1 _ _
  | .store2 _ _ | .store4 _ _ | .store8 _ _ | .storer1 _ _ | .storer2 _ _ | .storer4 _ _ | .storer8 _ _
  | .fadd4 _ _ | .fsub4 _ _ | .fmul4 _ _ | .fdiv4 _ _ | .fadd8 _ _ | .fsub8 _ _ | .fmul8 _ _ | .fdiv8 _ _
  | .fsqrt4 _ | .fsqrt8 _ | .fsin4 _ | .fcos4 _ | .fsin8 _ | .fcos8 _ | .intfloat4 _ | .intfloat8 _ | .ret
  | .pop1 _ | .pop2 _ | .pop4 _ | .pop8 _ | .push1 _ | .push2 _ | .push4 _ | .push8 _ | .cmp1 _ _ | .cmp2 _ _
  | .cmp4 _ _ | .cmp8 _ _ | .cmpv1 _ _ | .cmpv2 _ _ | .cmpv4 _ _ | .cmpv8 _ _ => none

/-- The instructions that write `pc` themselves (45_jump_call_stack.md R250 to R260). -/
def transfersControl : Instr → Bool
  | .jmp _ | .jeq _ | .jne _ | .jn _ | .jnn _ | .jc _ | .jnc _ | .jlt _ | .jge _ | .call _ | .ret => true
  | .parar | .nop | .add _ _ | .sub _ _ | .muls _ _ | .mul _ _ | .div _ _ | .addv _ _ | .subv _ _ | .inc _
  | .dec _ | .clr _ | .not _ | .and _ _ | .andv _ _ | .or _ _ | .orv _ _ | .xor _ _ | .xorv _ _ | .shi _
  | .shd _ | .ushi _ | .ushd _ | .load _ _ | .loadv _ _ | .loadr _ _ | .storev _ _ | .cmp _ _ | .cmpv _ _
  | .clrZ | .setZ | .clrN | .setN | .clrC | .setC | .clrV | .setV | .svio _ _ | .loadio _ _ | .showio _
  | .reserved00A3 _ | .reserved00A4 _ | .add1 _ _ | .sub1 _ _ | .mul1 _ _ | .muls1 _ _ | .div1 _ _ | .addv1 _ _
  | .subv1 _ _ | .add2 _ _ | .sub2 _ _ | .mul2 _ _ | .muls2 _ _ | .div2 _ _ | .addv2 _ _ | .subv2 _ _
  | .add4 _ _ | .sub4 _ _ | .mul4 _ _ | .muls4 _ _ | .div4 _ _ | .addv4 _ _ | .subv4 _ _ | .add8 _ _ | .sub8 _ _
  | .mul8 _ _ | .muls8 _ _ | .div8 _ _ | .addv8 _ _ | .subv8 _ _ | .mov1 _ _ | .mov2 _ _ | .mov4 _ _ | .mov8 _ _
  | .movv1 _ _ | .movv2 _ _ | .movv4 _ _ | .movv8 _ _ | .load1 _ _ | .load2 _ _ | .load4 _ _ | .load8 _ _
  | .loadr1 _ _ | .loadr2 _ _ | .loadr4 _ _ | .loadr8 _ _ | .store1 _ _ | .store2 _ _ | .store4 _ _
  | .store8 _ _ | .storer1 _ _ | .storer2 _ _ | .storer4 _ _ | .storer8 _ _ | .fadd4 _ _ | .fsub4 _ _
  | .fmul4 _ _ | .fdiv4 _ _ | .fadd8 _ _ | .fsub8 _ _ | .fmul8 _ _ | .fdiv8 _ _ | .fsqrt4 _ | .fsqrt8 _
  | .fsin4 _ | .fcos4 _ | .fsin8 _ | .fcos8 _ | .intfloat4 _ | .intfloat8 _ | .pop1 _ | .pop2 _ | .pop4 _
  | .pop8 _ | .push1 _ | .push2 _ | .push4 _ | .push8 _ | .cmp1 _ _ | .cmp2 _ _ | .cmp4 _ _ | .cmp8 _ _
  | .cmpv1 _ _ | .cmpv2 _ _ | .cmpv4 _ _ | .cmpv8 _ _ => false

/-- The register an instruction writes, by 10_state.md R22. -/
def destReg : Instr → Option Reg
  | .add rd _ | .sub rd _ | .muls rd _ | .mul rd _ | .div rd _ | .addv rd _ | .subv rd _ | .inc rd | .dec rd
  | .clr rd | .not rd | .and rd _ | .andv rd _ | .or rd _ | .orv rd _ | .xor rd _ | .xorv rd _ | .shi rd
  | .shd rd | .ushi rd | .ushd rd | .load rd _ | .loadv rd _ | .loadr rd _ | .loadio rd _ | .add1 rd _
  | .sub1 rd _ | .mul1 rd _ | .muls1 rd _ | .div1 rd _ | .addv1 rd _ | .subv1 rd _ | .add2 rd _ | .sub2 rd _
  | .mul2 rd _ | .muls2 rd _ | .div2 rd _ | .addv2 rd _ | .subv2 rd _ | .add4 rd _ | .sub4 rd _ | .mul4 rd _
  | .muls4 rd _ | .div4 rd _ | .addv4 rd _ | .subv4 rd _ | .add8 rd _ | .sub8 rd _ | .mul8 rd _
  | .muls8 rd _ | .div8 rd _ | .addv8 rd _ | .subv8 rd _ | .mov1 rd _ | .mov2 rd _ | .mov4 rd _ | .mov8 rd _
  | .movv1 rd _ | .movv2 rd _ | .movv4 rd _ | .movv8 rd _ | .load1 rd _ | .load2 rd _ | .load4 rd _
  | .load8 rd _ | .loadr1 rd _ | .loadr2 rd _ | .loadr4 rd _ | .loadr8 rd _ | .fadd4 rd _ | .fsub4 rd _
  | .fmul4 rd _ | .fdiv4 rd _ | .fadd8 rd _ | .fsub8 rd _ | .fmul8 rd _ | .fdiv8 rd _ | .fsqrt4 rd
  | .fsqrt8 rd | .fsin4 rd | .fcos4 rd | .fsin8 rd | .fcos8 rd | .intfloat4 rd | .intfloat8 rd | .pop1 rd
  | .pop2 rd | .pop4 rd | .pop8 rd => some rd
  | .parar | .nop | .storev _ _ | .cmp _ _ | .cmpv _ _ | .clrZ | .setZ | .clrN | .setN | .clrC | .setC
  | .clrV | .setV | .jmp _ | .jeq _ | .jne _ | .jn _ | .jnn _ | .jc _ | .jnc _ | .jlt _ | .jge _ | .call _
  | .svio _ _ | .showio _ | .reserved00A3 _ | .reserved00A4 _ | .store1 _ _ | .store2 _ _ | .store4 _ _
  | .store8 _ _ | .storer1 _ _ | .storer2 _ _ | .storer4 _ _ | .storer8 _ _ | .ret | .push1 _ | .push2 _
  | .push4 _ | .push8 _ | .cmp1 _ _ | .cmp2 _ _ | .cmp4 _ _ | .cmp8 _ _ | .cmpv1 _ _ | .cmpv2 _ _
  | .cmpv4 _ _ | .cmpv8 _ _ => none

end Sys2Proof.Machine
end

