-- ==== Sys2Proof/Safety.lean ====
section
/-! DEFINITION. The terms in which claims are made: the invariant of the machine, what a step leaves unchanged, when a run has
ended well, and the cautious reading of code and data (spec/10_state.md R28, 20_memory.md R52). -/

namespace Sys2Proof.Machine

/-! ## The invariant -/

/-- Memory is in its canonical form and lists only addresses `0 .. MEM_SIZE-1` (10_state.md R31), the parameters are ones the
spec allows, and `pc` has left the 64 bits only past the last byte of a memory that fills them (10_state.md R24). -/
def State.Inv (s : State) : Prop :=
  Memory.wf s.mem = true ∧ (∀ c ∈ s.mem, c.1 < s.par.memSize) ∧ s.par.wf = true
    ∧ (s.pcWrapped = true → s.pc = 0 ∧ s.par.memSize = 2 ^ 64)

/-! ## What is unchanged -/

/-- The byte at an address. -/
def State.byteAt (s : State) (a : Nat) : Byte := Memory.read s.mem a

/-- Every byte of memory reads as before. -/
def SameBytes (s t : State) : Prop := ∀ a : Nat, t.byteAt a = s.byteAt a

/-- Every byte of memory outside the `n` bytes from `addr` reads as before. -/
def SameBytesOutside (addr n : Nat) (s t : State) : Prop :=
  ∀ a : Nat, a < addr ∨ addr + n ≤ a → t.byteAt a = s.byteAt a

/-- Every general register holds what it held. -/
def SameRegs (s t : State) : Prop := ∀ r : Reg, t.reg r = s.reg r

/-- Every general register but `rd` holds what it held. -/
def SameRegsBut (rd : Reg) (s t : State) : Prop := ∀ r : Reg, r ≠ rd → t.reg r = s.reg r

/-- After a `WriteLow(rd, n, v)` (00_scope.md R9): bits `8n-1:0` are `v`; the upper bits are zero, copies of the top bit of `v`,
or the old ones, as `SUBWORD_WRITE` says, and nothing is said of them when it is `unspecified`. For `n = 8` there are no
upper bits. -/
def WroteLow (sz : Size) (rd : Reg) (v : BitVec sz.bits) (s t : State) : Prop :=
  low sz (t.reg rd) = v
    ∧ (s.par.subwordWrite = .zero → t.reg rd = v.setWidth 64)
    ∧ (s.par.subwordWrite = .sign → t.reg rd = v.signExtend 64)
    ∧ (s.par.subwordWrite = .preserve →
        ∀ j : Nat, sz.bits ≤ j → (t.reg rd).getLsbD j = (s.reg rd).getLsbD j)

/-- What an instruction that writes `rd` and the flags by `HavocFlags()` (00_scope.md R8) leaves unchanged. -/
def AluFrame (rd : Reg) (s t : State) : Prop :=
  SameRegsBut rd s t ∧ SameBytes s t ∧ t.sp = s.sp ∧ t.run = s.run ∧ t.ioTrace = s.ioTrace ∧ t.par = s.par
    ∧ (s.par.aluFlags = .unchanged → t.flags = s.flags)

/-- What an instruction that writes `rd` and perhaps `sp` and the I/O trace leaves unchanged. -/
def RegFrame (rd : Reg) (s t : State) : Prop :=
  SameRegsBut rd s t ∧ SameBytes s t ∧ t.flags = s.flags ∧ t.run = s.run ∧ t.par = s.par

/-- What an instruction that writes `rd` alone leaves unchanged. -/
def MoveFrame (rd : Reg) (s t : State) : Prop := RegFrame rd s t ∧ t.sp = s.sp ∧ t.ioTrace = s.ioTrace

/-- What an instruction that writes the flags alone leaves unchanged. -/
def FlagFrame (s t : State) : Prop :=
  SameRegs s t ∧ SameBytes s t ∧ t.sp = s.sp ∧ t.run = s.run ∧ t.ioTrace = s.ioTrace ∧ t.par = s.par

/-- What an instruction that writes `pc` alone leaves unchanged. -/
def PcFrame (s t : State) : Prop := FlagFrame s t ∧ t.flags = s.flags

/-- What an instruction that stores `n` bytes at `addr` leaves unchanged, `sp` apart. -/
def StoreFrame (addr n : Nat) (s t : State) : Prop :=
  SameRegs s t ∧ SameBytesOutside addr n s t ∧ t.flags = s.flags ∧ t.run = s.run ∧ t.ioTrace = s.ioTrace
    ∧ t.par = s.par

/-! ## What an instruction does -/

/-- `pc` has advanced by `len` modulo 2^64, and it is known whether it left the 64 bits by that (10_state.md R23, R24). -/
def PcAdvanced (len : Word) (s t : State) : Prop :=
  t.pc = s.pc + len ∧ (t.pcWrapped = true ↔ 2 ^ 64 ≤ s.pc.toNat + len.toNat)

/-- `pc` has become `target`, by a transfer of control (00_scope.md R7). -/
def PcAt (target : Word) (t : State) : Prop := t.pc = target ∧ t.pcWrapped = false

/-- The `n` bytes from `a` are those of the value `v`, in the byte order of the run (20_memory.md R40): with `little` the byte at
`a + k` is bits `8k+7:8k` of `v`, with `big` the byte at `a + n-1-k`. -/
def BytesAt (s : State) (a : Nat) (sz : Size) (v : BitVec sz.bits) : Prop :=
  ∀ k : Nat, k < sz.bytes →
    s.byteAt (a + match s.par.endian with | .little => k | .big => sz.bytes - 1 - k) = v.extractLsb' (8 * k) 8

/-- The machine is running and the word that the next fetch reads is `w`: `pc` is a multiple of 8, has not
left memory at the top, and the 8 bytes at it lie in memory (20_memory.md R41, R43, R45, 10_state.md R24). -/
def WordAtPc (s : State) (w : Word) : Prop :=
  s.run = .running ∧ s.pc.toNat % 8 = 0 ∧ s.pcWrapped = false ∧ s.pc.toNat + 8 ≤ s.par.memSize ∧ BytesAt s s.pc.toNat .b8 w

/-- In every state the instruction takes its own effect: it writes the `n`-byte result `v` to `rd`, havocs the flags, moves `pc` on by
`len` and changes nothing else (41_arithmetic.md R100, 42_logic_shift.md R150, 47_fpu.md R292). -/
def AluResult (i : Instr) (sz : Size) (rd : Reg) (v : State → BitVec sz.bits) (len : Word) : Prop :=
  ∀ s : State, ∃ t : State, exec i s = .next t ∧ WroteLow sz rd (v s) s t ∧ PcAdvanced len s t ∧ AluFrame rd s t

/-- `rd` becomes `f rd rs` on `n` bytes, format RR. -/
def RegReg (i : Instr) (sz : Size) (f : BitVec sz.bits → BitVec sz.bits → BitVec sz.bits) (rd rs : Reg) : Prop :=
  AluResult i sz rd (fun s => f (s.regLow sz rd) (s.regLow sz rs)) 8

/-- `rd` becomes `f rd imm` on `n` bytes, format RI. -/
def RegImm (i : Instr) (sz : Size) (f : BitVec sz.bits → BitVec sz.bits → BitVec sz.bits) (rd : Reg) (imm : Word) : Prop :=
  AluResult i sz rd (fun s => f (s.regLow sz rd) (low sz imm)) 16

/-- `rd` becomes `f rd` on `n` bytes, format R. -/
def RegOnly (i : Instr) (sz : Size) (f : BitVec sz.bits → BitVec sz.bits) (rd : Reg) : Prop :=
  AluResult i sz rd (fun s => f (s.regLow sz rd)) 8

/-- `(u(a) + u(b)) mod 2^W` (41_arithmetic.md R139). -/
def sumMod {w : Nat} (a b : BitVec w) : BitVec w := BitVec.ofNat w (a.toNat + b.toNat)

/-- `(u(a) - u(b)) mod 2^W` (41_arithmetic.md R139), the difference taken on integers. -/
def diffMod {w : Nat} (a b : BitVec w) : BitVec w := BitVec.ofInt w ((a.toNat : Int) - (b.toNat : Int))

/-- The low `W` bits of the product of the unsigned values (41_arithmetic.md R104, R140). -/
def productUnsigned {w : Nat} (a b : BitVec w) : BitVec w := BitVec.ofNat w (a.toNat * b.toNat)

/-- The low `W` bits of the product of the signed values (41_arithmetic.md R103, R140). -/
def productSigned {w : Nat} (a b : BitVec w) : BitVec w := BitVec.ofInt w (a.toInt * b.toInt)

/-- The instruction's result is a function of the low `n` bytes of `rd` and `rs` alone: the same in any two states that agree on them
(47_fpu.md R290). -/
def FunctionOf (i : Instr) (sz : Size) (rd rs : Reg) : Prop :=
  ∀ s₁ s₂ t₁ t₂ : State, s₁.regLow sz rd = s₂.regLow sz rd → s₁.regLow sz rs = s₂.regLow sz rs →
    exec i s₁ = .next t₁ → exec i s₂ = .next t₂ → t₁.regLow sz rd = t₂.regLow sz rd

/-- Two instructions give one result: both complete, and from any two states that agree on the low `n` bytes of `rd` and `rs` they
leave the same low `n` bytes in `rd`. Nothing is said of the flags and upper bits, which are draws (00_scope.md R8, R9). -/
def SameResult (i j : Instr) (sz : Size) (rd rs : Reg) : Prop :=
  ∀ s₁ s₂ : State, s₁.regLow sz rd = s₂.regLow sz rd → s₁.regLow sz rs = s₂.regLow sz rs →
    ∃ t₁ t₂ : State, exec i s₁ = .next t₁ ∧ exec j s₂ = .next t₂ ∧ t₁.regLow sz rd = t₂.regLow sz rd

/-- In every state the instruction writes the `n`-byte value `v` to `rd`, moves `pc` on by `len` and changes nothing else, the
flags included (43_move_load_store.md R170). -/
def MoveResult (i : Instr) (sz : Size) (rd : Reg) (v : State → BitVec sz.bits) (len : Word) : Prop :=
  ∀ s : State, ∃ t : State, exec i s = .next t ∧ WroteLow sz rd (v s) s t ∧ PcAdvanced len s t ∧ MoveFrame rd s t

/-- Whenever the `n` bytes from the effective address lie in memory, the instruction loads them into `rd`, moves `pc` on by `len`
and changes nothing else; otherwise it raises `MemOutOfRange` with that address and changes nothing but the run state
(43_move_load_store.md R170, 20_memory.md R45). -/
def LoadResult (i : Instr) (sz : Size) (rd : Reg) (ea : State → Word) (len : Word) : Prop :=
  ∀ s : State,
    ((ea s).toNat + sz.bytes ≤ s.par.memSize →
      ∃ (t : State) (v : BitVec sz.bits), exec i s = .next t ∧ BytesAt s (ea s).toNat sz v ∧ WroteLow sz rd v s t
        ∧ PcAdvanced len s t ∧ MoveFrame rd s t)
    ∧ (s.par.memSize < (ea s).toNat + sz.bytes →
      exec i s = .next { s with run := .faulted .memOutOfRange (ea s) })

/-- Whenever the `n` bytes from the effective address lie in memory, the instruction stores the low `n` bytes of register `data`
there, moves `pc` on by `len` and changes nothing else; otherwise it raises `MemOutOfRange` with that address and changes
nothing but the run state (43_move_load_store.md R170, 20_memory.md R45). -/
def StoreResult (i : Instr) (sz : Size) (data : Reg) (ea : State → Word) (len : Word) : Prop :=
  ∀ s : State,
    ((ea s).toNat + sz.bytes ≤ s.par.memSize →
      ∃ t : State, exec i s = .next t ∧ BytesAt t (ea s).toNat sz (low sz (s.reg data))
        ∧ StoreFrame (ea s).toNat sz.bytes s t ∧ t.sp = s.sp ∧ PcAdvanced len s t)
    ∧ (s.par.memSize < (ea s).toNat + sz.bytes →
      exec i s = .next { s with run := .faulted .memOutOfRange (ea s) })

/-- Division of `rd` by `rs` on `n` bytes (41_arithmetic.md R141): the quotient of the unsigned values or, when `DIV_SIGNED`, that
of the signed values rounded toward zero, written as any arithmetic result; the two faults, which write nothing. -/
def DivResult (i : Instr) (sz : Size) (rd rs : Reg) : Prop :=
  ∀ s : State,
    (s.regLow sz rs ≠ 0 → s.par.divSigned = false →
      ∃ t : State, exec i s = .next t
        ∧ WroteLow sz rd (BitVec.ofNat sz.bits ((s.regLow sz rd).toNat / (s.regLow sz rs).toNat)) s t
        ∧ PcAdvanced 8 s t ∧ AluFrame rd s t)
    ∧ (s.regLow sz rs ≠ 0 → s.par.divSigned = true →
      ¬ ((s.regLow sz rd).toInt = -(2 ^ (sz.bits - 1)) ∧ (s.regLow sz rs).toInt = -1) →
      ∃ t : State, exec i s = .next t
        ∧ WroteLow sz rd (BitVec.ofInt sz.bits ((s.regLow sz rd).toInt.tdiv (s.regLow sz rs).toInt)) s t
        ∧ PcAdvanced 8 s t ∧ AluFrame rd s t)
    ∧ (s.regLow sz rs = 0 → exec i s = .next { s with run := .faulted .divideByZero s.pc })
    ∧ (s.par.divSigned = true → (s.regLow sz rd).toInt = -(2 ^ (sz.bits - 1)) → (s.regLow sz rs).toInt = -1 →
      exec i s = .next { s with run := .faulted .divideOverflow s.pc })

/-- Push of the low `n` bytes of `rd` (00_scope.md R11, 45_jump_call_stack.md R270): the bytes go to `sp - n`, which becomes `sp`;
below address 0 or above memory the fault writes nothing. -/
def PushResult (i : Instr) (sz : Size) (rd : Reg) : Prop :=
  ∀ s : State,
    (sz.bytes ≤ s.sp.toNat → s.sp.toNat ≤ s.par.memSize →
      ∃ t : State, exec i s = .next t ∧ BytesAt t (pushAddr sz s).toNat sz (low sz (s.reg rd))
        ∧ t.sp = pushAddr sz s ∧ PcAdvanced 8 s t ∧ StoreFrame (pushAddr sz s).toNat sz.bytes s t)
    ∧ (s.sp.toNat < sz.bytes ∨ s.par.memSize < s.sp.toNat →
      exec i s = .next { s with run := .faulted .memOutOfRange (pushAddr sz s) })

/-- Pop of `n` bytes into `rd` (00_scope.md R11, 45_jump_call_stack.md R270): the bytes at `sp`, and `sp` moves up by `n`; outside
memory the fault writes nothing. -/
def PopResult (i : Instr) (sz : Size) (rd : Reg) : Prop :=
  ∀ s : State,
    (s.sp.toNat + sz.bytes ≤ s.par.memSize →
      ∃ (t : State) (v : BitVec sz.bits), exec i s = .next t ∧ BytesAt s s.sp.toNat sz v ∧ WroteLow sz rd v s t
        ∧ t.sp = s.sp + BitVec.ofNat 64 sz.bytes ∧ PcAdvanced 8 s t ∧ RegFrame rd s t ∧ t.ioTrace = s.ioTrace)
    ∧ (s.par.memSize < s.sp.toNat + sz.bytes → exec i s = .next { s with run := .faulted .memOutOfRange s.sp })

/-- In every state the instruction goes to `imm` if the condition holds and to `pc + 16` otherwise, and changes nothing else
(45_jump_call_stack.md R269). -/
def JumpResult (i : Instr) (taken : Flags → Prop) (imm : Word) : Prop :=
  ∀ s : State, ∃ t : State, exec i s = .next t ∧ (taken s.flags → PcAt imm t)
    ∧ (¬ taken s.flags → PcAdvanced 16 s t) ∧ PcFrame s t

/-- An instruction of `len` bytes that ends at or past the top of the 64 bits, in a state whose flags let it go on to its
successor: it completes, and the next step raises `MemOutOfRange` and changes nothing else (10_state.md R24). -/
def LeavesAtTheTop (i : Instr) (falls : Flags → Prop) (len : Nat) : Prop :=
  ∀ s : State, s.run = .running → s.pc.toNat % 8 = 0 → 2 ^ 64 ≤ s.pc.toNat + len → falls s.flags →
    ∃ t : State, exec i s = .next t ∧ step t = .next { t with run := .faulted .memOutOfRange t.pc }

/-- In every state the instruction gives the flags the values of a subtraction of the `n`-byte operands (00_scope.md R13), moves
`pc` on by `len` and changes nothing else (44_compare_flags.md R220). -/
def CompareResult (i : Instr) (sz : Size) (a b : State → BitVec sz.bits) (len : Word) : Prop :=
  ∀ s : State, ∃ t : State, exec i s = .next t
    ∧ (t.flags.z = true ↔ a s = b s)
    ∧ t.flags.n = (a s - b s).msb
    ∧ (t.flags.v = true ↔ (a s).msb ≠ (b s).msb ∧ (a s - b s).msb ≠ (a s).msb)
    ∧ (s.par.subCarry = .borrow → (t.flags.c = true ↔ (a s).toNat < (b s).toNat))
    ∧ (s.par.subCarry = .notBorrow → (t.flags.c = true ↔ (b s).toNat ≤ (a s).toNat))
    ∧ PcAdvanced len s t ∧ FlagFrame s t

/-- In every state the instruction gives the flags the values `f`, moves `pc` on by 8 and changes nothing else
(44_compare_flags.md R231 to R238). -/
def FlagResult (i : Instr) (f : Flags → Flags) : Prop :=
  ∀ s : State, ∃ t : State, exec i s = .next t ∧ t.flags = f s.flags ∧ PcAdvanced 8 s t ∧ FlagFrame s t

/-! ## The end of a run -/

/-- `n` steps lead from `s` to `t`. -/
def RunsTo (n : Nat) (s t : State) : Prop := Sys2Proof.core.run n s = .next t

/-- A run that has ended well: the run state is Halted, "the only final state of a run that a claim may call successful"
(10_state.md R28). -/
def Succeeds (s : State) : Prop := ∃ n t, RunsTo n s t ∧ t.run = .halted

/-- A run that never reaches Faulted (60_exceptions.md R324). -/
def FaultFree (s : State) : Prop := ∀ n t k info, RunsTo n s t → t.run ≠ .faulted k info

/-! ## Code and data -/

/-- The data access of `i` touches the program's own instructions. A claim that should hold also for a machine with a separate
program store is made about runs in which no step does this (20_memory.md R52; notes/assumptions/14.md). -/
def touchesCode (i : Instr) (s : State) : Bool :=
  match access i s with
  | none => false
  | some x =>
    decide (x.addr.toNat < s.par.codeRange.hi) && decide (s.par.codeRange.lo < x.addr.toNat + x.size.bytes)

/-- No step of the run from `s` touches the program's own instructions as data (20_memory.md R52). -/
def KeepsOffCode (s : State) : Prop :=
  ∀ n t i, RunsTo n s t → t.run = .running → fetchInstr t = .ok i → touchesCode i t = false

end Sys2Proof.Machine
end

