-- ==== Sys2Proof/Certificates/Slice0/Obligations.lean ====
section
/-! DEFINITION. The statements for the provers, in the terms of Safety.lean. Each docstring names the rules of spec/ it rests on; the
spec's decisions (92_eei_decisions.md) are rules of the spec (notes/assumptions/20.md). -/

open Sys2Proof Sys2Proof.Machine

/-- For every instruction the words are: opcode << 48 for format OP; with d << 44 for format R; with d << 4 and s for
format RR; for format RI that first word (d = 0 without a register operand) and imm as second word. For the reserved
opcodes 0x00A3 and 0x00A4 it is opcode << 48 with any 48 low bits; that such words are encodings of an instruction is
the model's deduction (log entry 13), not R80's. Decoding is the inverse. The examples of the rule have the words and
bytes it gives. (R80, R92, R93) -/
def Obligations.EncodingPutsFieldsInPlace : Prop :=
  (∀ i : Instr,
    encode i = (match fields i with
      | .op opc => [opc.setWidth 64 <<< 48]
      | .r opc d => [opc.setWidth 64 <<< 48 ||| BitVec.ofNat 64 d.val <<< 44]
      | .rr opc d s => [opc.setWidth 64 <<< 48 ||| BitVec.ofNat 64 d.val <<< 4 ||| BitVec.ofNat 64 s.val]
      | .ri opc d imm => [opc.setWidth 64 <<< 48 ||| BitVec.ofNat 64 d.val <<< 44, imm]
      | .riNoReg opc imm => [opc.setWidth 64 <<< 48, imm]
      | .reserved opc rest => [opc.setWidth 64 <<< 48 ||| rest.setWidth 64])) ∧
    (∀ i : Instr, ∀ e : Endian, decodeBytes e (encodeBytes e i) = .ok (i, [])) ∧
    encode (.add 3 5) = [0x0010000000000035] ∧
    encode (.inc 3) = [0x0030300000000000] ∧
    encode (.loadv 2 0x1122334455667788) = [0x0061200000000000, 0x1122334455667788] ∧
    encode .parar = [0x0000000000000000] ∧
    encodeBytes .little (.add 3 5) = [0x35, 0x00, 0x00, 0x00, 0x00, 0x00, 0x10, 0x00]

/-- For every instruction i with any operands, either byte order and any bytes after it, the decoder reads i from the
bytes of i and leaves exactly the bytes after it. (R71, R80, R41) -/
def Obligations.DecodeOfEncodeIsIdentity : Prop :=
  ∀ (e : Endian) (i : Instr) (rest : List Byte), decodeBytes e (encodeBytes e i ++ rest) = .ok (i, rest)

/-- If the decoder reads an instruction i from a list of bytes and leaves some, then the list is the bytes of i
followed by those: no two words stand for one instruction and no bit of an accepted word is ignored. (R71, R80, R68,
R69) -/
def Obligations.EncodeOfDecodeIsIdentity : Prop :=
  ∀ (e : Endian) (bs rest : List Byte) (i : Instr), decodeBytes e bs = .ok (i, rest) → bs = encodeBytes e i ++ rest

/-- One word of each format and family, written out from the encoding diagrams, decodes to the instruction it stands
for. That the last word, of the reserved opcode 0x00A3, decodes to an instruction (reserved00A3) at all is the model's
deduction (log entry 13), not R92's. (R62, R63, R64, R65, R69, R92, R61) -/
def Obligations.SampleWordsDecode : Prop :=
  decodeTableWord 64 0x0000000000000000 = some .parar ∧
    decodeTableWord 64 0x0010000000000035 = some (.add 3 5) ∧
    decodeTableWord 64 0x0316000000000012 = some (.div8 1 2) ∧
    decodeTableWord 64 0x0053200000000000 = some (.ushd 2) ∧
    decodeTableWord 128 0x11223344556677880061200000000000 = some (.loadv 2 0x1122334455667788) ∧
    decodeTableWord 64 0x0613000000000012 = some (.storer8 1 2) ∧
    decodeTableWord 128 0x00000000000000070841500000000000 = some (.cmpv2 5 7) ∧
    decodeTableWord 128 0x00000000000000400097000000000000 = some (.jlt 0x40) ∧
    decodeTableWord 64 0x0823100000000000 = some (.push8 1) ∧
    decodeTableWord 128 0x000000000000001000A0100000000000 = some (.svio 1 0x10) ∧
    decodeTableWord 64 0x0725100000000000 = some (.fcos8 1) ∧
    decodeTableWord 64 0x00A3000000000000 = some (.reserved00A3 0)

/-- When the machine runs and the word at pc has an opcode that no instruction has, the step raises IllegalOpcode with
that word and changes nothing but the run state. (R74, R71) -/
def Obligations.UnknownOpcodeFaults : Prop :=
  ∀ (s : State) (w : Word), WordAtPc s w → (∀ i : Instr, opcodeField (firstWord i) ≠ opcodeField w) →
    step s = .next { s with run := .faulted .illegalOpcode w }

/-- When the word at pc has the opcode of a (not reserved) instruction i and a zero field of its format is not zero
(OP and RI without register: bits 47:0; R and RI: 43:0; RR: 47:8), the step raises IllegalEncoding with that word and
changes nothing but the run state. (R68, R69, R71) -/
def Obligations.NonzeroZeroFieldFaults : Prop :=
  ∀ (s : State) (w : Word) (i : Instr), WordAtPc s w → opcodeField w = opcodeField (firstWord i) →
    (match fields i with
      | .op _ => w.extractLsb' 0 48 ≠ 0
      | .r _ _ => w.extractLsb' 0 44 ≠ 0
      | .rr _ _ _ => w.extractLsb' 8 40 ≠ 0
      | .ri _ _ _ => w.extractLsb' 0 44 ≠ 0
      | .riNoReg _ _ => w.extractLsb' 0 48 ≠ 0
      | .reserved _ _ => False) →
    step s = .next { s with run := .faulted .illegalEncoding w }

/-- When the machine runs, pc is a multiple of 8 and has not left memory by an advance past the top (log entry 22),
the bytes of the instruction lie in memory and they decode to i, the step is exactly exec of i at that state: nothing
is added around it. (R16, R41, R71, R24) -/
def Obligations.StepRunsDecodedInstruction : Prop :=
  ∀ (s : State) (i : Instr), s.run = .running → s.par.wf = true → s.pc.toNat % 8 = 0 → s.pcWrapped = false →
    s.pc.toNat + i.length ≤ s.par.memSize →
    decodeBytes s.par.endian (Memory.readBytes s.mem s.pc.toNat i.length) = .ok (i, []) → step s = exec i s

/-- In every state, step answers a next state if and only if the run state is Running; in Halted and Faulted it
answers a fault outcome that says which, and it never refuses. (R16, R28) -/
def Obligations.StepsExactlyWhileRunning : Prop :=
  ∀ s : State,
    ((∃ t : State, step s = .next t) ↔ s.run = .running) ∧
    (s.run = .halted → step s = .fault .halted) ∧
    (∀ (k : FaultKind) (info : Word), s.run = .faulted k info → step s = .fault (.faulted k info))

/-- When the machine runs and pc mod 8 is not 0, the step raises MisalignedFetch with pc and changes nothing else. An
instruction that does not transfer control keeps a pc that is a multiple of 8 one. (R43, R24) -/
def Obligations.MisalignedFetchFaults : Prop :=
  (∀ s : State, s.run = .running → s.pc.toNat % 8 ≠ 0 →
    step s = .next { s with run := .faulted .misalignedFetch s.pc }) ∧
    (∀ (i : Instr) (s t : State), transfersControl i = false → s.pc.toNat % 8 = 0 → exec i s = .next t →
      t.pc.toNat % 8 = 0)

/-- When the machine runs at an aligned pc whose 8 bytes do not lie in memory, the step raises MemOutOfRange with pc;
so it does when an advance has carried pc past the top of the 64 bits. When the word at pc is the first word of a
16-byte instruction and the 8 bytes at pc + 8 do not lie in memory, it raises MemOutOfRange with pc + 8. Nothing else
changes. For a fetch past the top of the 64 bits (the first word after such an advance, or the second at pc = 2^64 -
8) the info is the address modulo 2^64, that is 0: this info is the model's choice (log entry 22). (R45, R322, R65,
R24) -/
def Obligations.FetchOutsideMemoryFaults : Prop :=
  (∀ s : State, s.run = .running → s.pc.toNat % 8 = 0 → s.pcWrapped = true ∨ s.par.memSize < s.pc.toNat + 8 →
    step s = .next { s with run := .faulted .memOutOfRange s.pc }) ∧
    (∀ (s : State) (i : Instr), WordAtPc s (firstWord i) → i.length = 16 → s.par.memSize < s.pc.toNat + 16 →
      step s = .next { s with run := .faulted .memOutOfRange (s.pc + 8) })

/-- If a step leads to Faulted(kind, info), the state is the state before with the run state Faulted(kind, info):
registers, flags, memory, pc, sp and the I/O trace are as before; and there is no step afterwards. (R14) -/
def Obligations.FaultsArePrecise : Prop :=
  ∀ (s t : State) (k : FaultKind) (info : Word), step s = .next t → t.run = .faulted k info →
    t = { s with run := .faulted k info } ∧ step t = .fault (.faulted k info)

/-- If a step leads to Faulted(kind, info), the condition of that kind in the table (for a fetch at pc also that an
advance carried pc past the top of the 64 bits; for a push or CALL also that sp is below its size) holds of the state
before and info is what the table records: the address, the instruction word, pc or the I/O address. For a fetch past
the top of the 64 bits the table has no row of its own: the info, pc or pc + 8 modulo 2^64, that is 0, is the model's
choice (log entry 22). (R321, R322, R24, R270) -/
def Obligations.FaultsHaveTheListedCauses : Prop :=
  ∀ (s t : State) (k : FaultKind) (info : Word), step s = .next t → t.run = .faulted k info →
    match k with
    | .misalignedFetch => info = s.pc ∧ s.pc.toNat % 8 ≠ 0
    | .memOutOfRange =>
      (info = s.pc ∧ (s.pcWrapped = true ∨ s.par.memSize < s.pc.toNat + 8)) ∨
      (info = s.pc + 8 ∧ s.par.memSize < s.pc.toNat + 16) ∨
      (∃ (i : Instr) (x : Access), fetchInstr s = .ok i ∧ access i s = some x ∧ info = x.addr ∧
        (s.par.memSize < x.addr.toNat + x.size.bytes ∨
          (writesSp i = true ∧ x.store = true ∧ s.sp.toNat < x.size.bytes)))
    | .illegalOpcode =>
      BytesAt s s.pc.toNat .b8 info ∧
        (opcodeField info = 0x00A3 ∨ opcodeField info = 0x00A4 ∨
          ∀ i : Instr, opcodeField (firstWord i) ≠ opcodeField info)
    | .illegalEncoding =>
      BytesAt s s.pc.toNat .b8 info ∧ (∃ i : Instr, opcodeField (firstWord i) = opcodeField info) ∧
        ∀ i : Instr, firstWord i ≠ info
    | .divideByZero =>
      info = s.pc ∧ ∃ (i : Instr) (sz : Size) (rd rs : Reg), fetchInstr s = .ok i ∧
        divides i = some (sz, rd, rs) ∧ s.regLow sz rs = 0
    | .divideOverflow =>
      info = s.pc ∧ s.par.divSigned = true ∧ ∃ (i : Instr) (sz : Size) (rd rs : Reg), fetchInstr s = .ok i ∧
        divides i = some (sz, rd, rs) ∧ (s.regLow sz rd).toInt = -(2 ^ (sz.bits - 1)) ∧ (s.regLow sz rs).toInt = -1
    | .ioOutOfRange =>
      s.par.ioSize ≤ info.toNat ∧ ∃ i : Instr, fetchInstr s = .ok i ∧ ioAddress i = some info

/-- If a step from a state leads to a next state, the run state of that is Halted if and only if the instruction
fetched is PARAR. (R28, R90, R332) -/
def Obligations.OnlyPararHalts : Prop :=
  ∀ s t : State, step s = .next t → (t.run = .halted ↔ fetchInstr s = .ok .parar)

/-- For every state that satisfies the invariant (the memory list is in its canonical form and lists only addresses
below MEM_SIZE, the parameters are ones the spec allows, and pc is marked as past the top of the 64 bits only when it
is 0 and MEM_SIZE is 2^64), if step answers a next state, that satisfies it too. (R31, R45, R40, R24) -/
def Obligations.StepKeepsInvariant : Prop :=
  ∀ s t : State, s.Inv → step s = .next t → t.Inv

/-- The state after reset under any legal parameters satisfies the invariant, and so does State.reset, whose
parameters (MEM_SIZE 0x10000 and IO_SIZE 2^64 are the model's choice, log entries 2 and 3) are legal. (R34, R31) -/
def Obligations.ResetSatisfiesInvariant : Prop :=
  (∀ p : Params, p.wf = true → (State.resetWith p).Inv) ∧ State.reset.Inv

/-- The byte order and every other parameter of a run are the same after every step. (R40, 00_scope.md section 4) -/
def Obligations.StepKeepsParameters : Prop :=
  ∀ s t : State, step s = .next t → t.par = s.par

/-- For all parameters: after reset pc = RESET_PC, sp = RESET_SP, the run state is Running and io_trace is empty, and
memory lists no byte. State.reset is the reset state with the working values RESET_PC 0 and RESET_SP = MEM_SIZE.
Nothing is said of registers, flags and unwritten memory, which the rule leaves unspecified. (R34, R340) -/
def Obligations.ResetLeavesTheStatedValues : Prop :=
  (∀ p : Params,
    (State.resetWith p).pc = p.resetPc ∧ (State.resetWith p).sp = p.resetSp ∧ (State.resetWith p).run = .running ∧
      (State.resetWith p).ioTrace = [] ∧ (State.resetWith p).mem = [] ∧ (State.resetWith p).par = p) ∧
    State.reset.pc = 0 ∧ State.reset.sp.toNat = State.reset.par.memSize ∧ State.reset.run = .running ∧
    State.reset.ioTrace = []

/-- For legal parameters and a legal image: the word k of the code part is what a fetch at base + 8k reads; the code
range is the range the code part fills and contains pc; every data byte stands at its address if the data addresses
are all different; the invariant holds. (R345, R340, R41) -/
def Obligations.LoadedImageIsInMemory : Prop :=
  ∀ (p : Params) (img : Image), p.wf = true → img.wf p = true →
    (∀ (k : Nat) (w : Word), img.code[k]? = some w →
      fetchWord (loadImage p img) (BitVec.ofNat 64 (img.base + 8 * k)) = .ok w) ∧
    (img.data.Pairwise (fun c d => c.1 ≠ d.1) → ∀ c ∈ img.data, (loadImage p img).byteAt c.1 = c.2) ∧
    (loadImage p img).par.codeRange = img.codeRange ∧ (loadImage p img).pc = p.resetPc ∧
    img.codeRange.lo ≤ p.resetPc.toNat ∧ p.resetPc.toNat < img.codeRange.hi ∧ (loadImage p img).Inv

/-- For every instruction but the jumps, CALL and RET: if it runs in the state Running and the machine is still
Running afterwards, pc has advanced by the length in bytes of its encoding, modulo 2^64, and is marked as past the top
exactly when the sum is 2^64 or more. (R23, R7, R65, R76, R24) -/
def Obligations.PcAdvancesByTheLength : Prop :=
  ∀ (i : Instr) (s t : State), transfersControl i = false → exec i s = .next t → t.run = .running →
    PcAdvanced (BitVec.ofNat 64 i.length) s t

/-- If an instruction is none of PUSHn, POPn, CALL, RET, or if it faults, sp is unchanged; otherwise sp is down by the
number of bytes pushed or up by the number of bytes popped. (R25, R11, R270) -/
def Obligations.OnlyStackInstructionsMoveSp : Prop :=
  ∀ (i : Instr) (s t : State), exec i s = .next t →
    (writesSp i = false → t.sp = s.sp) ∧
    (writesSp i = true → ∃ x : Access, access i s = some x ∧
      ((t.run = .faulted .memOutOfRange x.addr ∧ t.sp = s.sp) ∨
        t.sp = if x.store then s.sp - BitVec.ofNat 64 x.size.bytes else s.sp + BitVec.ofNat 64 x.size.bytes))

/-- An instruction that the table lists as leaving the flags leaves all four; one that ends with HavocFlags() leaves
all four when ALU_FLAGS is unchanged. (R27, R8) -/
def Obligations.FlagsChangeOnlyByTheirInstructions : Prop :=
  ∀ (i : Instr) (s t : State), exec i s = .next t →
    (flagRule i = .keep → t.flags = s.flags) ∧
    (flagRule i = .havoc → s.par.aluFlags = .unchanged → t.flags = s.flags)

/-- For every instruction, every general register that is not the destination the summary of the register rule gives
it holds what it held. (R22, R6) -/
def Obligations.RegistersChangeOnlyAsDestination : Prop :=
  ∀ (i : Instr) (s t : State) (r : Reg), exec i s = .next t → destReg i ≠ some r → t.reg r = s.reg r

/-- For every instruction: if the table of memory accesses gives it a store of n bytes at address x (computed in the
state before), every byte outside those n reads as before; if it gives it none, every byte reads as before. (R44, R46,
R45) -/
def Obligations.MemoryChangesOnlyWhereStored : Prop :=
  ∀ (i : Instr) (s t : State), exec i s = .next t →
    (∀ x : Access, access i s = some x → x.store = true → SameBytesOutside x.addr.toNat x.size.bytes s t) ∧
    ((∀ x : Access, access i s = some x → x.store = false) → SameBytes s t)

/-- An instruction that is no I/O instruction leaves the trace. An I/O instruction at address a appends exactly one
event, at a, or has faulted with IOOutOfRange and leaves the trace. (R280, R281) -/
def Obligations.EachIoInstructionMakesOneCall : Prop :=
  ∀ (i : Instr) (s t : State), exec i s = .next t →
    (ioAddress i = none → t.ioTrace = s.ioTrace) ∧
    (∀ a : Word, ioAddress i = some a →
      (t.run = .faulted .ioOutOfRange a ∧ t.ioTrace = s.ioTrace) ∨
      ∃ e : IOEvent, t.ioTrace = s.ioTrace ++ [e] ∧
        (match e with
          | .write x _ => x = a
          | .read x _ => x = a
          | .show x => x = a))

/-- Each completes in every state: RD gets (u(a) + u(b)) mod 2^W of the low W bits of its operands (b = 1 for INC),
with its upper bits as SUBWORD_WRITE says; pc moves on; every other register, memory, sp, the run state and the trace
are unchanged, and the flags too when ALU_FLAGS is unchanged. (R139, R101, R106, R108, R111, R116, R118, R123, R125,
R130, R132, R137) -/
def Obligations.AdditionResults : Prop :=
  ∀ (rd rs : Reg) (imm : Word),
    RegReg (.add rd rs) .b8 sumMod rd rs ∧
    RegReg (.add1 rd rs) .b1 sumMod rd rs ∧
    RegReg (.add2 rd rs) .b2 sumMod rd rs ∧
    RegReg (.add4 rd rs) .b4 sumMod rd rs ∧
    RegReg (.add8 rd rs) .b8 sumMod rd rs ∧
    RegImm (.addv rd imm) .b8 sumMod rd imm ∧
    RegImm (.addv1 rd imm) .b1 sumMod rd imm ∧
    RegImm (.addv2 rd imm) .b2 sumMod rd imm ∧
    RegImm (.addv4 rd imm) .b4 sumMod rd imm ∧
    RegImm (.addv8 rd imm) .b8 sumMod rd imm ∧
    RegOnly (.inc rd) .b8 (fun a => sumMod a 1) rd

/-- Each completes in every state: RD gets (u(a) - u(b)) mod 2^W of the low W bits of its operands, RD the left one (b
= 1 for DEC), with its upper bits as SUBWORD_WRITE says; the frame is that of the additions. (R139, R102, R107, R109,
R112, R117, R119, R124, R126, R131, R133, R138) -/
def Obligations.SubtractionResults : Prop :=
  ∀ (rd rs : Reg) (imm : Word),
    RegReg (.sub rd rs) .b8 diffMod rd rs ∧
    RegReg (.sub1 rd rs) .b1 diffMod rd rs ∧
    RegReg (.sub2 rd rs) .b2 diffMod rd rs ∧
    RegReg (.sub4 rd rs) .b4 diffMod rd rs ∧
    RegReg (.sub8 rd rs) .b8 diffMod rd rs ∧
    RegImm (.subv rd imm) .b8 diffMod rd imm ∧
    RegImm (.subv1 rd imm) .b1 diffMod rd imm ∧
    RegImm (.subv2 rd imm) .b2 diffMod rd imm ∧
    RegImm (.subv4 rd imm) .b4 diffMod rd imm ∧
    RegImm (.subv8 rd imm) .b8 diffMod rd imm ∧
    RegOnly (.dec rd) .b8 (fun a => diffMod a 1) rd

/-- Each completes in every state: RD gets the low W bits of the product of the unsigned (MUL) or signed (MULS) values
of the low W bits of RD and RS; the frame is that of the additions. (R140, R103, R104, R113, R114, R120, R121, R127,
R128, R134, R135) -/
def Obligations.MultiplicationResults : Prop :=
  ∀ rd rs : Reg,
    RegReg (.mul rd rs) .b8 productUnsigned rd rs ∧
    RegReg (.mul1 rd rs) .b1 productUnsigned rd rs ∧
    RegReg (.mul2 rd rs) .b2 productUnsigned rd rs ∧
    RegReg (.mul4 rd rs) .b4 productUnsigned rd rs ∧
    RegReg (.mul8 rd rs) .b8 productUnsigned rd rs ∧
    RegReg (.muls rd rs) .b8 productSigned rd rs ∧
    RegReg (.muls1 rd rs) .b1 productSigned rd rs ∧
    RegReg (.muls2 rd rs) .b2 productSigned rd rs ∧
    RegReg (.muls4 rd rs) .b4 productSigned rd rs ∧
    RegReg (.muls8 rd rs) .b8 productSigned rd rs

/-- For every size the low W bits of the unsigned and of the signed product are one bit pattern, and from any two
states that agree on the low W bits of RD and RS, MUL and MULS both complete and leave the same low W bits in RD.
Nothing is said of the flags and of upper bits, which are unspecified after both. (R140) -/
def Obligations.MulAndMulsWriteTheSame : Prop :=
  (∀ (sz : Size) (a b : BitVec sz.bits), productUnsigned a b = productSigned a b) ∧
    ∀ rd rs : Reg,
      SameResult (.mul rd rs) (.muls rd rs) .b8 rd rs ∧
      SameResult (.mul1 rd rs) (.muls1 rd rs) .b1 rd rs ∧
      SameResult (.mul2 rd rs) (.muls2 rd rs) .b2 rd rs ∧
      SameResult (.mul4 rd rs) (.muls4 rd rs) .b4 rd rs ∧
      SameResult (.mul8 rd rs) (.muls8 rd rs) .b8 rd rs

/-- With a divisor whose low W bits are not zero each completes: RD gets the quotient of the unsigned values or, under
DIV_SIGNED, of the signed values rounded toward zero. A zero divisor raises DivideByZero with pc; under DIV_SIGNED the
most negative value by -1 raises DivideOverflow with pc; a fault changes nothing else. (R141, R105, R115, R122, R129,
R136) -/
def Obligations.DivisionResults : Prop :=
  ∀ rd rs : Reg,
    DivResult (.div rd rs) .b8 rd rs ∧
    DivResult (.div1 rd rs) .b1 rd rs ∧
    DivResult (.div2 rd rs) .b2 rd rs ∧
    DivResult (.div4 rd rs) .b4 rd rs ∧
    DivResult (.div8 rd rs) .b8 rd rs

/-- When the divisor is not zero and the top bits of both operands are 0, a division of any size completes and RD gets
the floor of the unsigned quotient, whatever DIV_SIGNED is. (R141) -/
def Obligations.DivisionOfNonnegativesIgnoresSign : Prop :=
  ∀ (i : Instr) (sz : Size) (rd rs : Reg) (s : State), divides i = some (sz, rd, rs) →
    (s.regLow sz rd).msb = false → (s.regLow sz rs).msb = false → s.regLow sz rs ≠ 0 →
    ∃ t : State, exec i s = .next t ∧
      WroteLow sz rd (BitVec.ofNat sz.bits ((s.regLow sz rd).toNat / (s.regLow sz rs).toNat)) s t ∧
      PcAdvanced 8 s t ∧ AluFrame rd s t

/-- Each completes in every state: bit j of RD becomes 0 (CLR), the complement of bit j of RD (NOT), or the AND, OR or
exclusive OR of bit j of RD and of RS or the immediate; all 64 bits; the frame is that of the additions. (R110, R151,
R152, R153, R154, R155, R156, R157, R150) -/
def Obligations.LogicResults : Prop :=
  ∀ (rd rs : Reg) (imm : Word),
    RegOnly (.clr rd) .b8 (fun _ => 0) rd ∧
    RegOnly (.not rd) .b8 (fun a => BitVec.ofNat 64 (2 ^ 64 - 1 - a.toNat)) rd ∧
    RegReg (.and rd rs) .b8 (fun a b => a &&& b) rd rs ∧
    RegImm (.andv rd imm) .b8 (fun a b => a &&& b) rd imm ∧
    RegReg (.or rd rs) .b8 (fun a b => a ||| b) rd rs ∧
    RegImm (.orv rd imm) .b8 (fun a b => a ||| b) rd imm ∧
    RegReg (.xor rd rs) .b8 (fun a b => a ^^^ b) rd rs ∧
    RegImm (.xorv rd imm) .b8 (fun a b => a ^^^ b) rd imm

/-- Each completes in every state, k being SHIFT_COUNT: RD becomes u(x) * 2^k mod 2^64 (SHI, USHI), the floor of s(x)
/ 2^k (SHD), the floor of u(x) / 2^k (USHD); the frame is that of the additions. (R150, R158, R159, R160, R161) -/
def Obligations.ShiftResults : Prop :=
  ∀ rd : Reg,
    AluResult (.shi rd) .b8 rd (fun s => BitVec.ofNat 64 ((s.reg rd).toNat * 2 ^ s.par.shiftCount.val)) 8 ∧
    AluResult (.ushi rd) .b8 rd (fun s => BitVec.ofNat 64 ((s.reg rd).toNat * 2 ^ s.par.shiftCount.val)) 8 ∧
    AluResult (.shd rd) .b8 rd (fun s => BitVec.ofInt 64 ((s.reg rd).toInt / 2 ^ s.par.shiftCount.val)) 8 ∧
    AluResult (.ushd rd) .b8 rd (fun s => BitVec.ofNat 64 ((s.reg rd).toNat / 2 ^ s.par.shiftCount.val)) 8

/-- Each completes in every state, with no fault: RD gets the value of its function of the fp record on the low 4 or
all 8 bytes of its operands, RD the left one, with the upper bits of a 4-byte result as SUBWORD_WRITE says; the frame
is that of the additions. (R290, R292, 47_fpu.md R293 to R308) -/
def Obligations.FloatingPointResults : Prop :=
  ∀ rd rs : Reg,
    RegReg (.fadd4 rd rs) .b4 Config.fp.add32 rd rs ∧
    RegReg (.fsub4 rd rs) .b4 Config.fp.sub32 rd rs ∧
    RegReg (.fmul4 rd rs) .b4 Config.fp.mul32 rd rs ∧
    RegReg (.fdiv4 rd rs) .b4 Config.fp.div32 rd rs ∧
    RegReg (.fadd8 rd rs) .b8 Config.fp.add64 rd rs ∧
    RegReg (.fsub8 rd rs) .b8 Config.fp.sub64 rd rs ∧
    RegReg (.fmul8 rd rs) .b8 Config.fp.mul64 rd rs ∧
    RegReg (.fdiv8 rd rs) .b8 Config.fp.div64 rd rs ∧
    RegOnly (.fsqrt4 rd) .b4 Config.fp.sqrt32 rd ∧
    RegOnly (.fsin4 rd) .b4 Config.fp.sin32 rd ∧
    RegOnly (.fcos4 rd) .b4 Config.fp.cos32 rd ∧
    RegOnly (.intfloat4 rd) .b4 Config.fp.intfloat32 rd ∧
    RegOnly (.fsqrt8 rd) .b8 Config.fp.sqrt64 rd ∧
    RegOnly (.fsin8 rd) .b8 Config.fp.sin64 rd ∧
    RegOnly (.fcos8 rd) .b8 Config.fp.cos64 rd ∧
    RegOnly (.intfloat8 rd) .b8 Config.fp.intfloat64 rd

/-- For each of the sixteen instructions: from two states in which the operand bytes of RD and RS are the same, the
result bytes of RD are the same, whatever the flags, other registers, memory and history are. (R290) -/
def Obligations.FloatingPointIsAFunctionOfItsOperands : Prop :=
  ∀ rd rs : Reg,
    FunctionOf (.fadd4 rd rs) .b4 rd rs ∧
    FunctionOf (.fsub4 rd rs) .b4 rd rs ∧
    FunctionOf (.fmul4 rd rs) .b4 rd rs ∧
    FunctionOf (.fdiv4 rd rs) .b4 rd rs ∧
    FunctionOf (.fadd8 rd rs) .b8 rd rs ∧
    FunctionOf (.fsub8 rd rs) .b8 rd rs ∧
    FunctionOf (.fmul8 rd rs) .b8 rd rs ∧
    FunctionOf (.fdiv8 rd rs) .b8 rd rs ∧
    FunctionOf (.fsqrt4 rd) .b4 rd rd ∧
    FunctionOf (.fsin4 rd) .b4 rd rd ∧
    FunctionOf (.fcos4 rd) .b4 rd rd ∧
    FunctionOf (.intfloat4 rd) .b4 rd rd ∧
    FunctionOf (.fsqrt8 rd) .b8 rd rd ∧
    FunctionOf (.fsin8 rd) .b8 rd rd ∧
    FunctionOf (.fcos8 rd) .b8 rd rd ∧
    FunctionOf (.intfloat8 rd) .b8 rd rd

/-- Each completes in every state: RD gets the immediate (LOADV), the low n bytes of RS (MOVn) or of the immediate
(MOVVn), with its upper bits as SUBWORD_WRITE says; pc moves on; every other register, memory, sp, the flags, the run
state and the trace are unchanged. (R172, R175, R176, R177, R178, R179, R180, R181, R182, R66) -/
def Obligations.MoveResults : Prop :=
  ∀ (rd rs : Reg) (imm : Word),
    MoveResult (.loadv rd imm) .b8 rd (fun _ => imm) 16 ∧
    MoveResult (.mov1 rd rs) .b1 rd (fun s => (s.reg rs).setWidth 8) 8 ∧
    MoveResult (.mov2 rd rs) .b2 rd (fun s => (s.reg rs).setWidth 16) 8 ∧
    MoveResult (.mov4 rd rs) .b4 rd (fun s => (s.reg rs).setWidth 32) 8 ∧
    MoveResult (.mov8 rd rs) .b8 rd (fun s => (s.reg rs).setWidth 64) 8 ∧
    MoveResult (.movv1 rd imm) .b1 rd (fun _ => imm.setWidth 8) 16 ∧
    MoveResult (.movv2 rd imm) .b2 rd (fun _ => imm.setWidth 16) 16 ∧
    MoveResult (.movv4 rd imm) .b4 rd (fun _ => imm.setWidth 32) 16 ∧
    MoveResult (.movv8 rd imm) .b8 rd (fun _ => imm.setWidth 64) 16

/-- Whenever the n bytes from the effective address (the immediate, or the content of RS) lie in memory, each
completes: RD gets the value of these bytes in the byte order of the run; nothing else but pc changes. Otherwise it
raises MemOutOfRange with that address and changes nothing else. (R171, R173, R183, R184, R185, R186, R187, R188,
R189, R190, R45, R170) -/
def Obligations.LoadResults : Prop :=
  ∀ (rd rs : Reg) (imm : Word),
    LoadResult (.load rd imm) .b8 rd (fun _ => eaImm imm) 16 ∧
    LoadResult (.load1 rd imm) .b1 rd (fun _ => eaImm imm) 16 ∧
    LoadResult (.load2 rd imm) .b2 rd (fun _ => eaImm imm) 16 ∧
    LoadResult (.load4 rd imm) .b4 rd (fun _ => eaImm imm) 16 ∧
    LoadResult (.load8 rd imm) .b8 rd (fun _ => eaImm imm) 16 ∧
    LoadResult (.loadr rd rs) .b8 rd (fun s => eaReg rs s) 8 ∧
    LoadResult (.loadr1 rd rs) .b1 rd (fun s => eaReg rs s) 8 ∧
    LoadResult (.loadr2 rd rs) .b2 rd (fun s => eaReg rs s) 8 ∧
    LoadResult (.loadr4 rd rs) .b4 rd (fun s => eaReg rs s) 8 ∧
    LoadResult (.loadr8 rd rs) .b8 rd (fun s => eaReg rs s) 8

/-- Whenever the n bytes from the effective address (the immediate; for STORERn the content of RD, the reading the
spec chose) lie in memory, each completes: these bytes become the low n bytes of the data register in the byte order
of the run, every other byte, the registers, flags and sp are unchanged, pc moves on. Otherwise it raises
MemOutOfRange with that address and changes nothing else. (R174, R191, R192, R193, R194, R195, R196, R197, R198, R45,
R170) -/
def Obligations.StoreResults : Prop :=
  ∀ (rd rs : Reg) (imm : Word),
    StoreResult (.storev rd imm) .b8 rd (fun _ => eaImm imm) 16 ∧
    StoreResult (.store1 rd imm) .b1 rd (fun _ => eaImm imm) 16 ∧
    StoreResult (.store2 rd imm) .b2 rd (fun _ => eaImm imm) 16 ∧
    StoreResult (.store4 rd imm) .b4 rd (fun _ => eaImm imm) 16 ∧
    StoreResult (.store8 rd imm) .b8 rd (fun _ => eaImm imm) 16 ∧
    StoreResult (.storer1 rd rs) .b1 rs (fun s => eaReg (storerRoles rd rs).1 s) 8 ∧
    StoreResult (.storer2 rd rs) .b2 rs (fun s => eaReg (storerRoles rd rs).1 s) 8 ∧
    StoreResult (.storer4 rd rs) .b4 rs (fun s => eaReg (storerRoles rd rs).1 s) 8 ∧
    StoreResult (.storer8 rd rs) .b8 rs (fun s => eaReg (storerRoles rd rs).1 s) 8 ∧
    eaReg (storerRoles rd rs).1 = fun s => s.reg rd

/-- After STOREn (or STOREV) to an address in memory, LOADn of that address completes and gives the low n bytes
stored; the same through STORERn and LOADRn with any register that holds the address. (R46, R40, R49) -/
def Obligations.StoreThenLoadReturnsValue : Prop :=
  ∀ (rd rx : Reg) (imm : Word) (s t : State),
    (imm.toNat + 8 ≤ s.par.memSize → exec (.storev rd imm) s = .next t →
      ∃ u : State, exec (.load rx imm) t = .next u ∧ low .b8 (u.reg rx) = low .b8 (s.reg rd)) ∧
    (imm.toNat + 1 ≤ s.par.memSize → exec (.store1 rd imm) s = .next t →
      ∃ u : State, exec (.load1 rx imm) t = .next u ∧ low .b1 (u.reg rx) = low .b1 (s.reg rd)) ∧
    (imm.toNat + 2 ≤ s.par.memSize → exec (.store2 rd imm) s = .next t →
      ∃ u : State, exec (.load2 rx imm) t = .next u ∧ low .b2 (u.reg rx) = low .b2 (s.reg rd)) ∧
    (imm.toNat + 4 ≤ s.par.memSize → exec (.store4 rd imm) s = .next t →
      ∃ u : State, exec (.load4 rx imm) t = .next u ∧ low .b4 (u.reg rx) = low .b4 (s.reg rd)) ∧
    (imm.toNat + 8 ≤ s.par.memSize → exec (.store8 rd imm) s = .next t →
      ∃ u : State, exec (.load8 rx imm) t = .next u ∧ low .b8 (u.reg rx) = low .b8 (s.reg rd)) ∧
    (∀ ra : Reg, (s.reg ra).toNat + 1 ≤ s.par.memSize → exec (.storer1 ra rd) s = .next t →
      ∃ u : State, exec (.loadr1 rx ra) t = .next u ∧ low .b1 (u.reg rx) = low .b1 (s.reg rd)) ∧
    (∀ ra : Reg, (s.reg ra).toNat + 2 ≤ s.par.memSize → exec (.storer2 ra rd) s = .next t →
      ∃ u : State, exec (.loadr2 rx ra) t = .next u ∧ low .b2 (u.reg rx) = low .b2 (s.reg rd)) ∧
    (∀ ra : Reg, (s.reg ra).toNat + 4 ≤ s.par.memSize → exec (.storer4 ra rd) s = .next t →
      ∃ u : State, exec (.loadr4 rx ra) t = .next u ∧ low .b4 (u.reg rx) = low .b4 (s.reg rd)) ∧
    (∀ ra : Reg, (s.reg ra).toNat + 8 ≤ s.par.memSize → exec (.storer8 ra rd) s = .next t →
      ∃ u : State, exec (.loadr8 rx ra) t = .next u ∧ low .b8 (u.reg rx) = low .b8 (s.reg rd))

/-- With ENDIAN little, after an 8-byte store of v at an address a in memory, a 1-byte load at a gives bits 7:0 of v
and a 4-byte load at a + 4 gives bits 63:32; with big, the 1-byte load gives bits 63:56 and the 4-byte load at a + 4
bits 31:0. (R41, R40) -/
def Obligations.NarrowLoadSeesTheStoredBytes : Prop :=
  ∀ (rd rx : Reg) (a : Word) (s t : State), s.par.wf = true → a.toNat + 8 ≤ s.par.memSize →
    exec (.store8 rd a) s = .next t →
    ∃ u v : State, exec (.load1 rx a) t = .next u ∧ exec (.load4 rx (a + 4)) t = .next v ∧
      (s.par.endian = .little →
        low .b1 (u.reg rx) = (s.reg rd).extractLsb' 0 8 ∧ low .b4 (v.reg rx) = (s.reg rd).extractLsb' 32 32) ∧
      (s.par.endian = .big →
        low .b1 (u.reg rx) = (s.reg rd).extractLsb' 56 8 ∧ low .b4 (v.reg rx) = (s.reg rd).extractLsb' 0 32)

/-- After an 8-byte store of v to an address that is a multiple of 8 and in memory, a fetch at that address reads v:
self-modifying code has the obvious meaning. (R52, R41) -/
def Obligations.StoreIsSeenByFetch : Prop :=
  ∀ (rd : Reg) (a : Word) (s t : State), a.toNat % 8 = 0 → a.toNat + 8 ≤ s.par.memSize →
    exec (.store8 rd a) s = .next t → fetchWord t a = .ok (s.reg rd)

/-- Each completes in every state: Z is a = b, N the top bit of a - b, V signed overflow of a - b, C is u(a) < u(b)
with SUB_CARRY borrow and u(a) >= u(b) with not_borrow, on the low W bits of RD and of RS or the immediate; pc moves
on and nothing else changes. (R220, R221, R222, R223, R224, R225, R226, R227, R228, R229, R230) -/
def Obligations.CompareResults : Prop :=
  ∀ (rd rs : Reg) (imm : Word),
    CompareResult (.cmp rd rs) .b8 (fun s => s.regLow .b8 rd) (fun s => s.regLow .b8 rs) 8 ∧
    CompareResult (.cmp1 rd rs) .b1 (fun s => s.regLow .b1 rd) (fun s => s.regLow .b1 rs) 8 ∧
    CompareResult (.cmp2 rd rs) .b2 (fun s => s.regLow .b2 rd) (fun s => s.regLow .b2 rs) 8 ∧
    CompareResult (.cmp4 rd rs) .b4 (fun s => s.regLow .b4 rd) (fun s => s.regLow .b4 rs) 8 ∧
    CompareResult (.cmp8 rd rs) .b8 (fun s => s.regLow .b8 rd) (fun s => s.regLow .b8 rs) 8 ∧
    CompareResult (.cmpv rd imm) .b8 (fun s => s.regLow .b8 rd) (fun _ => low .b8 imm) 16 ∧
    CompareResult (.cmpv1 rd imm) .b1 (fun s => s.regLow .b1 rd) (fun _ => low .b1 imm) 16 ∧
    CompareResult (.cmpv2 rd imm) .b2 (fun s => s.regLow .b2 rd) (fun _ => low .b2 imm) 16 ∧
    CompareResult (.cmpv4 rd imm) .b4 (fun s => s.regLow .b4 rd) (fun _ => low .b4 imm) 16 ∧
    CompareResult (.cmpv8 rd imm) .b8 (fun s => s.regLow .b8 rd) (fun _ => low .b8 imm) 16

/-- On values a, b of n bytes, with r = (a - b) mod 2^W: Z is r = 0, N the top bit of r, V is a and b differ in the
top bit and r and a do, C is u(a) < u(b) under borrow and u(a) >= u(b) under not_borrow; N xor V = 1 exactly when s(a)
< s(b), Z = 1 exactly when a = b. A compare writes exactly these flags and no register. (R13) -/
def Obligations.CompareFlagsOrderTheOperands : Prop :=
  (∀ (sz : Size) (carry : SubCarry) (a b r : BitVec sz.bits),
    r = BitVec.ofInt sz.bits ((a.toNat : Int) - (b.toNat : Int)) →
    ((flagsSub carry a b).z = true ↔ r = 0) ∧
    (flagsSub carry a b).n = r.getLsbD (sz.bits - 1) ∧
    ((flagsSub carry a b).v = true ↔
      a.getLsbD (sz.bits - 1) ≠ b.getLsbD (sz.bits - 1) ∧ r.getLsbD (sz.bits - 1) ≠ a.getLsbD (sz.bits - 1)) ∧
    (carry = .borrow → ((flagsSub carry a b).c = true ↔ a.toNat < b.toNat)) ∧
    (carry = .notBorrow → ((flagsSub carry a b).c = true ↔ b.toNat ≤ a.toNat)) ∧
    (((flagsSub carry a b).n ^^ (flagsSub carry a b).v) = true ↔ a.toInt < b.toInt) ∧
    ((flagsSub carry a b).z = true ↔ a = b)) ∧
    (∀ (rd rs : Reg) (s : State), ∃ t : State, exec (.cmp rd rs) s = .next t ∧
      t.flags = flagsSub s.par.subCarry (s.regLow .b8 rd) (s.regLow .b8 rs) ∧ SameRegs s t)

/-- CMP Rd, Rs and then JLT is taken exactly when Rd < Rs as signed numbers, JGE exactly when not; JEQ exactly when
they are equal, JNE when not; with SUB_CARRY borrow JC exactly when Rd < Rs as unsigned numbers, JNC when not. Not
taken, the jump goes on to the next instruction. (R220, R251, R252, R255, R256, R257, R258) -/
def Obligations.CompareThenJumpOrdersOperands : Prop :=
  ∀ (rd rs : Reg) (k : Word) (s : State), ∃ t : State, exec (.cmp rd rs) s = .next t ∧
    (∃ u : State, exec (.jlt k) t = .next u ∧
      u.pc = if (s.reg rd).toInt < (s.reg rs).toInt then k else t.pc + 16) ∧
    (∃ u : State, exec (.jge k) t = .next u ∧
      u.pc = if (s.reg rd).toInt < (s.reg rs).toInt then t.pc + 16 else k) ∧
    (∃ u : State, exec (.jeq k) t = .next u ∧ u.pc = if s.reg rd = s.reg rs then k else t.pc + 16) ∧
    (∃ u : State, exec (.jne k) t = .next u ∧ u.pc = if s.reg rd = s.reg rs then t.pc + 16 else k) ∧
    (s.par.subCarry = .borrow →
      (∃ u : State, exec (.jc k) t = .next u ∧
        u.pc = if (s.reg rd).toNat < (s.reg rs).toNat then k else t.pc + 16) ∧
      (∃ u : State, exec (.jnc k) t = .next u ∧
        u.pc = if (s.reg rd).toNat < (s.reg rs).toNat then t.pc + 16 else k))

/-- Each of the eight instructions has the word the rule gives; it completes in every state, the named flag becomes 0
or 1, the other three, the registers, sp and memory are unchanged, and pc advances by 8. (R231, R232, R233, R234,
R235, R236, R237, R238) -/
def Obligations.FlagInstructionResults : Prop :=
  (encode .clrZ = [0x0080000000000000] ∧ FlagResult .clrZ (fun f => { f with z := false })) ∧
    (encode .setZ = [0x0081000000000000] ∧ FlagResult .setZ (fun f => { f with z := true })) ∧
    (encode .clrN = [0x0082000000000000] ∧ FlagResult .clrN (fun f => { f with n := false })) ∧
    (encode .setN = [0x0083000000000000] ∧ FlagResult .setN (fun f => { f with n := true })) ∧
    (encode .clrC = [0x0084000000000000] ∧ FlagResult .clrC (fun f => { f with c := false })) ∧
    (encode .setC = [0x0085000000000000] ∧ FlagResult .setC (fun f => { f with c := true })) ∧
    (encode .clrV = [0x0086000000000000] ∧ FlagResult .clrV (fun f => { f with v := false })) ∧
    (encode .setV = [0x0087000000000000] ∧ FlagResult .setV (fun f => { f with v := true }))

/-- Each completes in every state: if its condition on the flags holds, pc becomes the immediate, whatever that is;
otherwise pc + 16; nothing else changes. (R250, R251, R252, R253, R254, R255, R256, R257, R258, R269) -/
def Obligations.JumpResults : Prop :=
  ∀ imm : Word,
    JumpResult (.jmp imm) (fun _ => True) imm ∧
    JumpResult (.jeq imm) (fun f => f.z = true) imm ∧
    JumpResult (.jne imm) (fun f => f.z = false) imm ∧
    JumpResult (.jn imm) (fun f => f.n = true) imm ∧
    JumpResult (.jnn imm) (fun f => f.n = false) imm ∧
    JumpResult (.jc imm) (fun f => f.c = true) imm ∧
    JumpResult (.jnc imm) (fun f => f.c = false) imm ∧
    JumpResult (.jlt imm) (fun f => f.v ≠ f.n) imm ∧
    JumpResult (.jge imm) (fun f => f.v = f.n) imm

/-- When sp is at least 8 and at most MEM_SIZE, so that the 8 bytes below sp lie in memory, CALL completes: these
bytes become pc + 16, sp becomes sp - 8, pc the immediate, and every other byte, the registers and flags are
unchanged. Otherwise, also below address 0 where sp - 8 wraps, it raises MemOutOfRange with sp - 8 and changes nothing
else. (R259, R11, R269, R270) -/
def Obligations.CallResult : Prop :=
  ∀ (imm : Word) (s : State),
    (8 ≤ s.sp.toNat → s.sp.toNat ≤ s.par.memSize →
      ∃ t : State, exec (.call imm) s = .next t ∧ BytesAt t (pushAddr .b8 s).toNat .b8 (s.pc + 16) ∧
        t.sp = pushAddr .b8 s ∧ PcAt imm t ∧ StoreFrame (pushAddr .b8 s).toNat 8 s t) ∧
    (s.sp.toNat < 8 ∨ s.par.memSize < s.sp.toNat →
      exec (.call imm) s = .next { s with run := .faulted .memOutOfRange (pushAddr .b8 s) }) ∧
    pushAddr .b8 s = s.sp - 8

/-- When the 8 bytes at sp lie in memory, RET completes: pc becomes their value, sp becomes sp + 8, and the registers,
flags and memory are unchanged. Otherwise it raises MemOutOfRange with sp and changes nothing else. (R260, R11) -/
def Obligations.RetResult : Prop :=
  ∀ s : State,
    (s.sp.toNat + 8 ≤ s.par.memSize →
      ∃ t : State, exec .ret s = .next t ∧ BytesAt s s.sp.toNat .b8 t.pc ∧ t.pcWrapped = false ∧ t.sp = s.sp + 8 ∧ SameRegs s t ∧
        SameBytes s t ∧ t.flags = s.flags ∧ t.run = s.run ∧ t.ioTrace = s.ioTrace ∧ t.par = s.par) ∧
    (s.par.memSize < s.sp.toNat + 8 → exec .ret s = .next { s with run := .faulted .memOutOfRange s.sp })

/-- If CALL has pushed its return address inside memory, RET in the state it leads to completes: pc is the address of
the CALL plus 16, and sp, the registers and the flags are as before the CALL. (R259, R260, R270) -/
def Obligations.CallThenRetReturns : Prop :=
  ∀ (imm : Word) (s t : State), 8 ≤ s.sp.toNat → s.sp.toNat ≤ s.par.memSize → exec (.call imm) s = .next t →
    ∃ u : State, exec .ret t = .next u ∧ u.pc = s.pc + 16 ∧ u.sp = s.sp ∧ SameRegs s u ∧ u.flags = s.flags

/-- When sp is at least n and at most MEM_SIZE, so that the n bytes below sp lie in memory, PUSHn completes: these
bytes become the low n bytes of RD in the byte order of the run, sp becomes sp - n, pc moves on, and every other byte,
the registers and flags are unchanged. Otherwise, also below address 0 where sp - n wraps, it raises MemOutOfRange
with sp - n and changes nothing else. (R265, R266, R267, R268, R270, R11) -/
def Obligations.PushResults : Prop :=
  ∀ rd : Reg,
    PushResult (.push1 rd) .b1 rd ∧
    PushResult (.push2 rd) .b2 rd ∧
    PushResult (.push4 rd) .b4 rd ∧
    PushResult (.push8 rd) .b8 rd ∧
    ∀ (sz : Size) (s : State), pushAddr sz s = s.sp - BitVec.ofNat 64 sz.bytes

/-- When the n bytes at sp lie in memory, POPn completes: RD gets their value, with its upper bits as SUBWORD_WRITE
says, sp becomes sp + n, pc moves on, and memory, the other registers and the flags are unchanged. Otherwise it raises
MemOutOfRange with sp and changes nothing else. (R261, R262, R263, R264, R270, R11) -/
def Obligations.PopResults : Prop :=
  ∀ rd : Reg,
    PopResult (.pop1 rd) .b1 rd ∧
    PopResult (.pop2 rd) .b2 rd ∧
    PopResult (.pop4 rd) .b4 rd ∧
    PopResult (.pop8 rd) .b8 rd

/-- If PUSHn has written inside memory, POPn in the state it leads to completes for every register: its low n bytes
are those of the register pushed, and sp is as before the push. (R270, R11, R46) -/
def Obligations.PushThenPopReturnsValue : Prop :=
  ∀ (rd rx : Reg) (s t : State),
    (1 ≤ s.sp.toNat → s.sp.toNat ≤ s.par.memSize → exec (.push1 rd) s = .next t →
      ∃ u : State, exec (.pop1 rx) t = .next u ∧ low .b1 (u.reg rx) = low .b1 (s.reg rd) ∧ u.sp = s.sp) ∧
    (2 ≤ s.sp.toNat → s.sp.toNat ≤ s.par.memSize → exec (.push2 rd) s = .next t →
      ∃ u : State, exec (.pop2 rx) t = .next u ∧ low .b2 (u.reg rx) = low .b2 (s.reg rd) ∧ u.sp = s.sp) ∧
    (4 ≤ s.sp.toNat → s.sp.toNat ≤ s.par.memSize → exec (.push4 rd) s = .next t →
      ∃ u : State, exec (.pop4 rx) t = .next u ∧ low .b4 (u.reg rx) = low .b4 (s.reg rd) ∧ u.sp = s.sp) ∧
    (8 ≤ s.sp.toNat → s.sp.toNat ≤ s.par.memSize → exec (.push8 rd) s = .next t →
      ∃ u : State, exec (.pop8 rx) t = .next u ∧ low .b8 (u.reg rx) = low .b8 (s.reg rd) ∧ u.sp = s.sp)

/-- With ENDIAN little, after a PUSH8 inside memory two POP4 complete: the first gives bits 31:0 of the register
pushed, the second bits 63:32, and sp is as before the push. (R270, R40) -/
def Obligations.PushEightPopFourLowHalfFirst : Prop :=
  ∀ (rd ra rb : Reg) (s t : State), s.par.wf = true → s.par.endian = .little →
    8 ≤ s.sp.toNat → s.sp.toNat ≤ s.par.memSize → exec (.push8 rd) s = .next t →
    ∃ u v : State, exec (.pop4 ra) t = .next u ∧ exec (.pop4 rb) u = .next v ∧
      low .b4 (u.reg ra) = (s.reg rd).extractLsb' 0 32 ∧ low .b4 (v.reg rb) = (s.reg rd).extractLsb' 32 32 ∧
      v.sp = s.sp

/-- When u(imm) < IO_SIZE each completes: SVIO appends Write(imm, the low byte of RD), LOADIO appends Read(imm, b) for
some byte b and writes b to the low byte of RD, SHOWIO appends Show(imm); pc advances by 16 and nothing else changes.
Otherwise each raises IOOutOfRange with imm and changes nothing else. (R282, R283, R284, R280, R281) -/
def Obligations.IoInstructionResults : Prop :=
  ∀ (rd : Reg) (imm : Word) (s : State),
    (imm.toNat < s.par.ioSize →
      (∃ t : State, exec (.svio rd imm) s = .next t ∧
        t.ioTrace = s.ioTrace ++ [.write imm ((s.reg rd).extractLsb' 0 8)] ∧ PcAdvanced 16 s t ∧ SameRegs s t ∧
        SameBytes s t ∧ t.sp = s.sp ∧ t.flags = s.flags ∧ t.run = s.run ∧ t.par = s.par) ∧
      (∃ (t : State) (b : Byte), exec (.loadio rd imm) s = .next t ∧
        t.ioTrace = s.ioTrace ++ [.read imm b] ∧ WroteLow .b1 rd b s t ∧ PcAdvanced 16 s t ∧ t.sp = s.sp ∧
        RegFrame rd s t) ∧
      (∃ t : State, exec (.showio imm) s = .next t ∧
        t.ioTrace = s.ioTrace ++ [.show imm] ∧ PcAdvanced 16 s t ∧ SameRegs s t ∧
        SameBytes s t ∧ t.sp = s.sp ∧ t.flags = s.flags ∧ t.run = s.run ∧ t.par = s.par)) ∧
    (s.par.ioSize ≤ imm.toNat →
      exec (.svio rd imm) s = .next { s with run := .faulted .ioOutOfRange imm } ∧
      exec (.loadio rd imm) s = .next { s with run := .faulted .ioOutOfRange imm } ∧
      exec (.showio imm) s = .next { s with run := .faulted .ioOutOfRange imm })

/-- The word of PARAR is all zero. It completes in every state: the run state becomes Halted; pc keeps the address of
the PARAR, and registers, flags, sp and memory are unchanged; after it there is no further step. (R90) -/
def Obligations.PararHalts : Prop :=
  encode .parar = [0x0000000000000000] ∧
    ∀ s : State, ∃ t : State, exec .parar s = .next t ∧ t.run = .halted ∧ t = { s with run := .halted } ∧
      t.pc = s.pc ∧ step t = .fault .halted

/-- The word of NOP is 0x0001000000000000. It completes in every state: pc becomes pc + 8, and flags, registers, sp,
memory, the run state and the I/O trace are unchanged. (R91) -/
def Obligations.NopOnlyAdvancesPc : Prop :=
  encode .nop = [0x0001000000000000] ∧ ∀ s : State, exec .nop s = .next { s with pc := s.pc + 8, pcWrapped := decide (2 ^ 64 ≤ s.pc.toNat + 8) }

/-- Any word with opcode 0x00A3 or 0x00A4 at pc makes the step raise IllegalOpcode with the whole word and change
nothing else; so does exec of the reserved instructions. (R92, R93) -/
def Obligations.ReservedOpcodesFault : Prop :=
  (∀ (s : State) (w : Word), WordAtPc s w → opcodeField w = 0x00A3 ∨ opcodeField w = 0x00A4 →
    step s = .next { s with run := .faulted .illegalOpcode w }) ∧
    ∀ (s : State) (rest : BitVec 48),
      exec (.reserved00A3 rest) s = .next { s with run := .faulted .illegalOpcode (0x00A3#16 ++ rest) } ∧
      exec (.reserved00A4 rest) s = .next { s with run := .faulted .illegalOpcode (0x00A4#16 ++ rest) }

/-- In State.reset (where sp is MEM_SIZE, the working value of RESET_SP; MEM_SIZE 0x10000 is the model's choice, log
entry 2) RET raises MemOutOfRange with sp and changes nothing else. (R260, R34) -/
def Obligations.RetWithEmptyStackFaults : Prop :=
  exec .ret State.reset = .next { State.reset with run := .faulted .memOutOfRange State.reset.sp }

/-- When an instruction at an aligned pc does not transfer control, the machine still runs after it, and pc plus its
length is 2^64 or more, the next step raises MemOutOfRange with the new pc and changes nothing else; so does the step
after a conditional jump that is not taken there. That the info is pc modulo 2^64 is the model's choice (log entry
22). (R24, R45, R269) -/
def Obligations.PcLeavingTheTopFaults : Prop :=
  (∀ (i : Instr) (s t : State), transfersControl i = false → exec i s = .next t → t.run = .running →
    s.pc.toNat % 8 = 0 → 2 ^ 64 ≤ s.pc.toNat + i.length →
    step t = .next { t with run := .faulted .memOutOfRange t.pc }) ∧
    ∀ imm : Word,
      LeavesAtTheTop (.jeq imm) (fun f => f.z = false) 16 ∧
      LeavesAtTheTop (.jne imm) (fun f => f.z = true) 16 ∧
      LeavesAtTheTop (.jn imm) (fun f => f.n = false) 16 ∧
      LeavesAtTheTop (.jnn imm) (fun f => f.n = true) 16 ∧
      LeavesAtTheTop (.jc imm) (fun f => f.c = false) 16 ∧
      LeavesAtTheTop (.jnc imm) (fun f => f.c = true) 16 ∧
      LeavesAtTheTop (.jlt imm) (fun f => f.v = f.n) 16 ∧
      LeavesAtTheTop (.jge imm) (fun f => f.v ≠ f.n) 16
end

