-- ==== Sys2Proof/Laws/Bytes.lean ====
section
/-! SUPPORT. The laws of the byte order (spec/20_memory.md R40): a value and the list of its bytes determine each other, in
either order. -/

namespace Sys2Proof.Machine

theorem bytesOfNat_length (n v : Nat) : (bytesOfNat n v).length = n := by
  induction n generalizing v with
  | zero => rfl
  | succ n ih => simp [bytesOfNat, ih]

theorem natOfBytes_lt (bs : List Byte) : natOfBytes bs < 256 ^ bs.length := by
  induction bs with
  | nil => simp [natOfBytes]
  | cons b bs ih =>
    have hb : b.toNat < 256 := b.isLt
    simp only [natOfBytes, List.length_cons, Nat.pow_succ]
    omega

/-- The number of the `n` low bytes of `v` is `v mod 256^n`. -/
theorem natOfBytes_bytesOfNat (n v : Nat) : natOfBytes (bytesOfNat n v) = v % 256 ^ n := by
  induction n generalizing v with
  | zero => simp [bytesOfNat, natOfBytes, Nat.mod_one]
  | succ n ih =>
    have h : v % 256 ^ (n + 1) = v % 256 + 256 * (v / 256 % 256 ^ n) := by
      rw [Nat.pow_succ, Nat.mul_comm, Nat.mod_mul]
    simp only [bytesOfNat, natOfBytes, ih, h, BitVec.toNat_ofNat]

/-- A list of bytes is the list of the bytes of its number. -/
theorem bytesOfNat_natOfBytes (bs : List Byte) : bytesOfNat bs.length (natOfBytes bs) = bs := by
  induction bs with
  | nil => rfl
  | cons b bs ih =>
    have hb : b.toNat < 256 := b.isLt
    have h1 : (b.toNat + 256 * natOfBytes bs) / 256 = natOfBytes bs := by omega
    have h2 : BitVec.ofNat 8 (b.toNat + 256 * natOfBytes bs) = b := by
      apply BitVec.eq_of_toNat_eq
      simp only [BitVec.toNat_ofNat]
      omega
    simp only [natOfBytes, List.length_cons, bytesOfNat, h1, h2, ih]

@[simp] theorem ordered_length (e : Endian) (bs : List Byte) : (ordered e bs).length = bs.length := by
  cases e <;> simp [ordered]

@[simp] theorem ordered_ordered (e : Endian) (bs : List Byte) : ordered e (ordered e bs) = bs := by
  cases e <;> simp [ordered]

@[simp] theorem disassemble_length (e : Endian) (n : Nat) (v : BitVec (8 * n)) : (disassemble e n v).length = n := by
  simp [disassemble, bytesOfNat_length]

theorem two_pow_eight_mul (n : Nat) : 2 ^ (8 * n) = 256 ^ n := by
  rw [Nat.pow_mul]

/-- Reading back the bytes of a value gives the value (20_memory.md R40). -/
@[simp] theorem assemble_disassemble (e : Endian) (n : Nat) (v : BitVec (8 * n)) :
    assemble e n (disassemble e n v) = v := by
  apply BitVec.eq_of_toNat_eq
  have hv : v.toNat < 256 ^ n := two_pow_eight_mul n ▸ v.isLt
  simp only [assemble, disassemble, ordered_ordered, natOfBytes_bytesOfNat, BitVec.toNat_ofNat, two_pow_eight_mul]
  simp [Nat.mod_eq_of_lt hv]

/-- The bytes of the value of `n` bytes are those bytes (20_memory.md R40). -/
theorem disassemble_assemble (e : Endian) (n : Nat) (bs : List Byte) (h : bs.length = n) :
    disassemble e n (assemble e n bs) = bs := by
  have hlen : (ordered e bs).length = n := by simp [h]
  have hlt : natOfBytes (ordered e bs) < 256 ^ n := hlen ▸ natOfBytes_lt (ordered e bs)
  simp only [disassemble, assemble, BitVec.toNat_ofNat, two_pow_eight_mul, Nat.mod_eq_of_lt hlt]
  rw [← hlen, bytesOfNat_natOfBytes, ordered_ordered]

end Sys2Proof.Machine
end

