-- ==== Sys2Proof/Laws/PerInstr.lean ====
section
/-! SUPPORT. Statements for all instructions, one lemma for each constructor. -/

namespace Sys2Proof

/-- The instruction that a format's fields stand for: the opcode map has a row of that very format for the opcode, and the
row builds the instruction from the operands. -/
def Fields.instr? : Fields → Option Instr
  | .op opc => match findRow opc with | some (.op i) => some i | _ => none
  | .r opc rd => match findRow opc with | some (.r f) => some (f rd) | _ => none
  | .rr opc rd rs => match findRow opc with | some (.rr f) => some (f rd rs) | _ => none
  | .ri opc rd imm => match findRow opc with | some (.ri f) => some (f rd imm) | _ => none
  | .riNoReg opc imm => match findRow opc with | some (.riNoReg f) => some (f imm) | _ => none
  | .reserved opc low => match findRow opc with | some (.reserved f) => some (f low) | _ => none

end Sys2Proof

namespace Sys2Proof.Laws.LayoutInTable

/-- The encoder's opcode, format and operands of an instruction are those of the decoder's row for that opcode
(30_encoding.md R70): the two tables of Decode.lean agree. -/
def Statement (i : Instr) : Prop := (fields i).instr? = some i

theorem parar : Statement (.parar) := rfl
theorem nop : Statement (.nop) := rfl
theorem add (rd rs : Reg) : Statement (.add rd rs) := rfl
theorem sub (rd rs : Reg) : Statement (.sub rd rs) := rfl
theorem muls (rd rs : Reg) : Statement (.muls rd rs) := rfl
theorem mul (rd rs : Reg) : Statement (.mul rd rs) := rfl
theorem div (rd rs : Reg) : Statement (.div rd rs) := rfl
theorem addv (rd : Reg) (imm : Word) : Statement (.addv rd imm) := rfl
theorem subv (rd : Reg) (imm : Word) : Statement (.subv rd imm) := rfl
theorem inc (rd : Reg) : Statement (.inc rd) := rfl
theorem dec (rd : Reg) : Statement (.dec rd) := rfl
theorem clr (rd : Reg) : Statement (.clr rd) := rfl
theorem not (rd : Reg) : Statement (.not rd) := rfl
theorem and (rd rs : Reg) : Statement (.and rd rs) := rfl
theorem andv (rd : Reg) (imm : Word) : Statement (.andv rd imm) := rfl
theorem or (rd rs : Reg) : Statement (.or rd rs) := rfl
theorem orv (rd : Reg) (imm : Word) : Statement (.orv rd imm) := rfl
theorem xor (rd rs : Reg) : Statement (.xor rd rs) := rfl
theorem xorv (rd : Reg) (imm : Word) : Statement (.xorv rd imm) := rfl
theorem shi (rd : Reg) : Statement (.shi rd) := rfl
theorem shd (rd : Reg) : Statement (.shd rd) := rfl
theorem ushi (rd : Reg) : Statement (.ushi rd) := rfl
theorem ushd (rd : Reg) : Statement (.ushd rd) := rfl
theorem load (rd : Reg) (imm : Word) : Statement (.load rd imm) := rfl
theorem loadv (rd : Reg) (imm : Word) : Statement (.loadv rd imm) := rfl
theorem loadr (rd rs : Reg) : Statement (.loadr rd rs) := rfl
theorem storev (rd : Reg) (imm : Word) : Statement (.storev rd imm) := rfl
theorem cmp (rd rs : Reg) : Statement (.cmp rd rs) := rfl
theorem cmpv (rd : Reg) (imm : Word) : Statement (.cmpv rd imm) := rfl
theorem clrZ : Statement (.clrZ) := rfl
theorem setZ : Statement (.setZ) := rfl
theorem clrN : Statement (.clrN) := rfl
theorem setN : Statement (.setN) := rfl
theorem clrC : Statement (.clrC) := rfl
theorem setC : Statement (.setC) := rfl
theorem clrV : Statement (.clrV) := rfl
theorem setV : Statement (.setV) := rfl
theorem jmp (imm : Word) : Statement (.jmp imm) := rfl
theorem jeq (imm : Word) : Statement (.jeq imm) := rfl
theorem jne (imm : Word) : Statement (.jne imm) := rfl
theorem jn (imm : Word) : Statement (.jn imm) := rfl
theorem jnn (imm : Word) : Statement (.jnn imm) := rfl
theorem jc (imm : Word) : Statement (.jc imm) := rfl
theorem jnc (imm : Word) : Statement (.jnc imm) := rfl
theorem jlt (imm : Word) : Statement (.jlt imm) := rfl
theorem jge (imm : Word) : Statement (.jge imm) := rfl
theorem call (imm : Word) : Statement (.call imm) := rfl
theorem svio (rd : Reg) (imm : Word) : Statement (.svio rd imm) := rfl
theorem loadio (rd : Reg) (imm : Word) : Statement (.loadio rd imm) := rfl
theorem showio (imm : Word) : Statement (.showio imm) := rfl
theorem reserved00A3 (low : BitVec 48) : Statement (.reserved00A3 low) := rfl
theorem reserved00A4 (low : BitVec 48) : Statement (.reserved00A4 low) := rfl
theorem add1 (rd rs : Reg) : Statement (.add1 rd rs) := rfl
theorem sub1 (rd rs : Reg) : Statement (.sub1 rd rs) := rfl
theorem mul1 (rd rs : Reg) : Statement (.mul1 rd rs) := rfl
theorem muls1 (rd rs : Reg) : Statement (.muls1 rd rs) := rfl
theorem div1 (rd rs : Reg) : Statement (.div1 rd rs) := rfl
theorem addv1 (rd : Reg) (imm : Word) : Statement (.addv1 rd imm) := rfl
theorem subv1 (rd : Reg) (imm : Word) : Statement (.subv1 rd imm) := rfl
theorem add2 (rd rs : Reg) : Statement (.add2 rd rs) := rfl
theorem sub2 (rd rs : Reg) : Statement (.sub2 rd rs) := rfl
theorem mul2 (rd rs : Reg) : Statement (.mul2 rd rs) := rfl
theorem muls2 (rd rs : Reg) : Statement (.muls2 rd rs) := rfl
theorem div2 (rd rs : Reg) : Statement (.div2 rd rs) := rfl
theorem addv2 (rd : Reg) (imm : Word) : Statement (.addv2 rd imm) := rfl
theorem subv2 (rd : Reg) (imm : Word) : Statement (.subv2 rd imm) := rfl
theorem add4 (rd rs : Reg) : Statement (.add4 rd rs) := rfl
theorem sub4 (rd rs : Reg) : Statement (.sub4 rd rs) := rfl
theorem mul4 (rd rs : Reg) : Statement (.mul4 rd rs) := rfl
theorem muls4 (rd rs : Reg) : Statement (.muls4 rd rs) := rfl
theorem div4 (rd rs : Reg) : Statement (.div4 rd rs) := rfl
theorem addv4 (rd : Reg) (imm : Word) : Statement (.addv4 rd imm) := rfl
theorem subv4 (rd : Reg) (imm : Word) : Statement (.subv4 rd imm) := rfl
theorem add8 (rd rs : Reg) : Statement (.add8 rd rs) := rfl
theorem sub8 (rd rs : Reg) : Statement (.sub8 rd rs) := rfl
theorem mul8 (rd rs : Reg) : Statement (.mul8 rd rs) := rfl
theorem muls8 (rd rs : Reg) : Statement (.muls8 rd rs) := rfl
theorem div8 (rd rs : Reg) : Statement (.div8 rd rs) := rfl
theorem addv8 (rd : Reg) (imm : Word) : Statement (.addv8 rd imm) := rfl
theorem subv8 (rd : Reg) (imm : Word) : Statement (.subv8 rd imm) := rfl
theorem mov1 (rd rs : Reg) : Statement (.mov1 rd rs) := rfl
theorem mov2 (rd rs : Reg) : Statement (.mov2 rd rs) := rfl
theorem mov4 (rd rs : Reg) : Statement (.mov4 rd rs) := rfl
theorem mov8 (rd rs : Reg) : Statement (.mov8 rd rs) := rfl
theorem movv1 (rd : Reg) (imm : Word) : Statement (.movv1 rd imm) := rfl
theorem movv2 (rd : Reg) (imm : Word) : Statement (.movv2 rd imm) := rfl
theorem movv4 (rd : Reg) (imm : Word) : Statement (.movv4 rd imm) := rfl
theorem movv8 (rd : Reg) (imm : Word) : Statement (.movv8 rd imm) := rfl
theorem load1 (rd : Reg) (imm : Word) : Statement (.load1 rd imm) := rfl
theorem load2 (rd : Reg) (imm : Word) : Statement (.load2 rd imm) := rfl
theorem load4 (rd : Reg) (imm : Word) : Statement (.load4 rd imm) := rfl
theorem load8 (rd : Reg) (imm : Word) : Statement (.load8 rd imm) := rfl
theorem loadr1 (rd rs : Reg) : Statement (.loadr1 rd rs) := rfl
theorem loadr2 (rd rs : Reg) : Statement (.loadr2 rd rs) := rfl
theorem loadr4 (rd rs : Reg) : Statement (.loadr4 rd rs) := rfl
theorem loadr8 (rd rs : Reg) : Statement (.loadr8 rd rs) := rfl
theorem store1 (rd : Reg) (imm : Word) : Statement (.store1 rd imm) := rfl
theorem store2 (rd : Reg) (imm : Word) : Statement (.store2 rd imm) := rfl
theorem store4 (rd : Reg) (imm : Word) : Statement (.store4 rd imm) := rfl
theorem store8 (rd : Reg) (imm : Word) : Statement (.store8 rd imm) := rfl
theorem storer1 (rd rs : Reg) : Statement (.storer1 rd rs) := rfl
theorem storer2 (rd rs : Reg) : Statement (.storer2 rd rs) := rfl
theorem storer4 (rd rs : Reg) : Statement (.storer4 rd rs) := rfl
theorem storer8 (rd rs : Reg) : Statement (.storer8 rd rs) := rfl
theorem fadd4 (rd rs : Reg) : Statement (.fadd4 rd rs) := rfl
theorem fsub4 (rd rs : Reg) : Statement (.fsub4 rd rs) := rfl
theorem fmul4 (rd rs : Reg) : Statement (.fmul4 rd rs) := rfl
theorem fdiv4 (rd rs : Reg) : Statement (.fdiv4 rd rs) := rfl
theorem fadd8 (rd rs : Reg) : Statement (.fadd8 rd rs) := rfl
theorem fsub8 (rd rs : Reg) : Statement (.fsub8 rd rs) := rfl
theorem fmul8 (rd rs : Reg) : Statement (.fmul8 rd rs) := rfl
theorem fdiv8 (rd rs : Reg) : Statement (.fdiv8 rd rs) := rfl
theorem fsqrt4 (rd : Reg) : Statement (.fsqrt4 rd) := rfl
theorem fsqrt8 (rd : Reg) : Statement (.fsqrt8 rd) := rfl
theorem fsin4 (rd : Reg) : Statement (.fsin4 rd) := rfl
theorem fcos4 (rd : Reg) : Statement (.fcos4 rd) := rfl
theorem fsin8 (rd : Reg) : Statement (.fsin8 rd) := rfl
theorem fcos8 (rd : Reg) : Statement (.fcos8 rd) := rfl
theorem intfloat4 (rd : Reg) : Statement (.intfloat4 rd) := rfl
theorem intfloat8 (rd : Reg) : Statement (.intfloat8 rd) := rfl
theorem ret : Statement (.ret) := rfl
theorem pop1 (rd : Reg) : Statement (.pop1 rd) := rfl
theorem pop2 (rd : Reg) : Statement (.pop2 rd) := rfl
theorem pop4 (rd : Reg) : Statement (.pop4 rd) := rfl
theorem pop8 (rd : Reg) : Statement (.pop8 rd) := rfl
theorem push1 (rd : Reg) : Statement (.push1 rd) := rfl
theorem push2 (rd : Reg) : Statement (.push2 rd) := rfl
theorem push4 (rd : Reg) : Statement (.push4 rd) := rfl
theorem push8 (rd : Reg) : Statement (.push8 rd) := rfl
theorem cmp1 (rd rs : Reg) : Statement (.cmp1 rd rs) := rfl
theorem cmp2 (rd rs : Reg) : Statement (.cmp2 rd rs) := rfl
theorem cmp4 (rd rs : Reg) : Statement (.cmp4 rd rs) := rfl
theorem cmp8 (rd rs : Reg) : Statement (.cmp8 rd rs) := rfl
theorem cmpv1 (rd : Reg) (imm : Word) : Statement (.cmpv1 rd imm) := rfl
theorem cmpv2 (rd : Reg) (imm : Word) : Statement (.cmpv2 rd imm) := rfl
theorem cmpv4 (rd : Reg) (imm : Word) : Statement (.cmpv4 rd imm) := rfl
theorem cmpv8 (rd : Reg) (imm : Word) : Statement (.cmpv8 rd imm) := rfl

end Sys2Proof.Laws.LayoutInTable
end

