-- ==== Sys2Proof/Laws/Decode.lean ====
section
/-! SUPPORT. The laws of decoding and encoding (spec/30_encoding.md R60 to R80): where the fields of an encoded word are, and that a
word decodes to an instruction exactly when it is its encoding. -/

namespace Sys2Proof

open Sys2Proof.Machine

/-! ## Fields of an encoded word -/

theorem opcodeField_append (opc : BitVec 16) (x : BitVec 48) : opcodeField (opc ++ x) = opc := by
  unfold opcodeField
  apply BitVec.eq_of_getLsbD_eq
  intro j hj
  rw [BitVec.getLsbD_extractLsb', BitVec.getLsbD_append]
  simp [hj]

theorem opcode_append_low (w : Word) : opcodeField w ++ w.extractLsb' 0 48 = w := by
  unfold opcodeField
  apply BitVec.eq_of_getLsbD_eq
  intro j hj
  rw [BitVec.getLsbD_append]
  by_cases h : j < 48
  · simp [h]
  · simp [h, show j - 48 < 16 by omega, show 48 + (j - 48) = j by omega]

@[simp] theorem toFin_regField (r : Reg) : (regField r).toFin = r := rfl

@[simp] theorem regField_toFin (x : BitVec 4) : regField x.toFin = x := rfl

theorem wordR_split (opc : BitVec 16) (r : BitVec 4) (z : BitVec 44) :
    (opc ++ r ++ z : Word) = (opc ++ (r ++ z) : Word) := by
  apply BitVec.eq_of_getLsbD_eq
  intro j hj
  simp only [BitVec.getLsbD_append]
  by_cases h1 : j < 44
  · simp [h1, show j < 48 by omega]
  · by_cases h2 : j < 48
    · simp [h1, h2, show j - 44 < 4 by omega]
    · simp [h1, h2, show ¬ j - 44 < 4 by omega, show j - 44 - 4 = j - 48 by omega]

theorem wordRR_split (opc : BitVec 16) (z : BitVec 40) (r q : BitVec 4) :
    (opc ++ z ++ r ++ q : Word) = (opc ++ (z ++ r ++ q) : Word) := by
  apply BitVec.eq_of_getLsbD_eq
  intro j hj
  simp only [BitVec.getLsbD_append]
  by_cases h1 : j < 4
  · simp [h1, show j < 48 by omega]
  · by_cases h2 : j < 8
    · simp [h1, show j < 48 by omega, show j - 4 < 4 by omega]
    · by_cases h3 : j < 48
      · simp [h1, h3, show ¬ j - 4 < 4 by omega, show j - 4 - 4 < 40 by omega]
      · simp [h1, h3, show ¬ j - 4 < 4 by omega, show ¬ j - 4 - 4 < 40 by omega, show j - 4 - 4 - 40 = j - 48 by omega]

theorem rdHigh_wordR (opc : BitVec 16) (r : Reg) (z : BitVec 44) : rdHigh (opc ++ regField r ++ z : Word) = r := by
  have : (opc ++ regField r ++ z : Word).extractLsb' 44 4 = regField r := by
    apply BitVec.eq_of_getLsbD_eq
    intro j hj
    rw [BitVec.getLsbD_extractLsb', BitVec.getLsbD_append]
    simp only [hj, decide_true, Bool.true_and, show ¬ 44 + j < 44 by omega, if_false, show 44 + j - 44 = j by omega]
    rw [BitVec.getLsbD_append, if_pos hj]
  rw [rdHigh, this, toFin_regField]

theorem low44_wordR (opc : BitVec 16) (r : BitVec 4) (z : BitVec 44) : (opc ++ r ++ z : Word).extractLsb' 0 44 = z := by
  apply BitVec.eq_of_getLsbD_eq
  intro j hj
  rw [BitVec.getLsbD_extractLsb', BitVec.getLsbD_append]
  simp [hj]

theorem rdLow_wordRR (opc : BitVec 16) (z : BitVec 40) (r q : Reg) :
    rdLow (opc ++ z ++ regField r ++ regField q : Word) = r := by
  have : (opc ++ z ++ regField r ++ regField q : Word).extractLsb' 4 4 = regField r := by
    apply BitVec.eq_of_getLsbD_eq
    intro j hj
    rw [BitVec.getLsbD_extractLsb', BitVec.getLsbD_append]
    simp only [hj, decide_true, Bool.true_and, show ¬ 4 + j < 4 by omega, if_false, show 4 + j - 4 = j by omega]
    rw [BitVec.getLsbD_append, if_pos hj]
  rw [rdLow, this, toFin_regField]

theorem rsLow_wordRR (opc : BitVec 16) (z : BitVec 40) (r q : Reg) :
    rsLow (opc ++ z ++ regField r ++ regField q : Word) = q := by
  have : (opc ++ z ++ regField r ++ regField q : Word).extractLsb' 0 4 = regField q := by
    apply BitVec.eq_of_getLsbD_eq
    intro j hj
    rw [BitVec.getLsbD_extractLsb', BitVec.getLsbD_append]
    simp [hj]
  rw [rsLow, this, toFin_regField]

theorem zero_wordRR (opc : BitVec 16) (z : BitVec 40) (r q : BitVec 4) :
    (opc ++ z ++ r ++ q : Word).extractLsb' 8 40 = z := by
  apply BitVec.eq_of_getLsbD_eq
  intro j hj
  rw [BitVec.getLsbD_extractLsb', BitVec.getLsbD_append]
  simp only [hj, decide_true, Bool.true_and, show ¬ 8 + j < 4 by omega, if_false]
  rw [BitVec.getLsbD_append, if_neg (by omega), BitVec.getLsbD_append, if_pos (by omega)]
  congr 1
  omega

theorem wordR_of_fields (w : Word) : (opcodeField w ++ regField (rdHigh w) ++ w.extractLsb' 0 44 : Word) = w := by
  unfold opcodeField rdHigh
  rw [regField_toFin]
  apply BitVec.eq_of_getLsbD_eq
  intro j hj
  simp only [BitVec.getLsbD_append, BitVec.getLsbD_extractLsb']
  by_cases h1 : j < 44
  · simp [h1]
  · by_cases h2 : j < 48
    · simp [h1, show j - 44 < 4 by omega, show 44 + (j - 44) = j by omega]
    · simp [h1, show ¬ j - 44 < 4 by omega, show j - 44 - 4 < 16 by omega, show 48 + (j - 44 - 4) = j by omega]

theorem wordRR_of_fields (w : Word) :
    (opcodeField w ++ w.extractLsb' 8 40 ++ regField (rdLow w) ++ regField (rsLow w) : Word) = w := by
  unfold opcodeField rdLow rsLow
  rw [regField_toFin, regField_toFin]
  apply BitVec.eq_of_getLsbD_eq
  intro j hj
  simp only [BitVec.getLsbD_append, BitVec.getLsbD_extractLsb']
  by_cases h1 : j < 4
  · simp [h1]
  · by_cases h2 : j < 8
    · simp [h1, show j - 4 < 4 by omega, show 4 + (j - 4) = j by omega]
    · by_cases h3 : j < 48
      · simp [h1, show ¬ j - 4 < 4 by omega, show j - 4 - 4 < 40 by omega, show 8 + (j - 4 - 4) = j by omega]
      · simp [h1, show ¬ j - 4 < 4 by omega, show ¬ j - 4 - 4 < 40 by omega, show j - 4 - 4 - 40 < 16 by omega,
          show 48 + (j - 4 - 4 - 40) = j by omega]

theorem low48_append (opc : BitVec 16) (x : BitVec 48) : (opc ++ x : Word).extractLsb' 0 48 = x := by
  apply BitVec.eq_of_getLsbD_eq
  intro j hj
  rw [BitVec.getLsbD_extractLsb', BitVec.getLsbD_append]
  simp [hj]

/-! ## The table -/

/-- The encoder's fields of what a row builds are the row's opcode and format. -/
def Row.Agrees (opc : BitVec 16) : Row → Prop
  | .op i => fields i = .op opc
  | .r f => ∀ rd, fields (f rd) = .r opc rd
  | .rr f => ∀ rd rs, fields (f rd rs) = .rr opc rd rs
  | .ri f => ∀ rd imm, fields (f rd imm) = .ri opc rd imm
  | .riNoReg f => ∀ imm, fields (f imm) = .riNoReg opc imm
  | .reserved f => ∀ low, fields (f low) = .reserved opc low

/-- Every row of a list agrees with the encoder. -/
def RowsAgree : List (Nat × Row) → Prop
  | [] => True
  | (k, row) :: rows => row.Agrees (BitVec.ofNat 16 k) ∧ k < 65536 ∧ RowsAgree rows

theorem rowsAgree_append {l m : List (Nat × Row)} (hl : RowsAgree l) (hm : RowsAgree m) : RowsAgree (l ++ m) := by
  induction l with
  | nil => exact hm
  | cons c l ih => exact ⟨hl.1, hl.2.1, ih hl.2.2⟩

theorem rowsAgree_main : RowsAgree opcodeRowsMain := by
  unfold opcodeRowsMain
  repeat' (first | exact trivial | exact fun _ _ => rfl | exact fun _ => rfl | rfl | decide | apply And.intro)

theorem rowsAgree_arith1 : RowsAgree opcodeRowsArith1 := by
  unfold opcodeRowsArith1
  repeat' (first | exact trivial | exact fun _ _ => rfl | exact fun _ => rfl | rfl | decide | apply And.intro)

theorem rowsAgree_move : RowsAgree opcodeRowsMove := by
  unfold opcodeRowsMove
  repeat' (first | exact trivial | exact fun _ _ => rfl | exact fun _ => rfl | rfl | decide | apply And.intro)

theorem rowsAgree_fpu : RowsAgree opcodeRowsFpu := by
  unfold opcodeRowsFpu
  repeat' (first | exact trivial | exact fun _ _ => rfl | exact fun _ => rfl | rfl | decide | apply And.intro)

theorem rowsAgree_stack : RowsAgree opcodeRowsStack := by
  unfold opcodeRowsStack
  repeat' (first | exact trivial | exact fun _ _ => rfl | exact fun _ => rfl | rfl | decide | apply And.intro)

theorem rowsAgree_all : RowsAgree opcodeRows :=
  rowsAgree_append (rowsAgree_append (rowsAgree_append (rowsAgree_append rowsAgree_main rowsAgree_arith1)
    rowsAgree_move) rowsAgree_fpu) rowsAgree_stack

theorem agrees_of_lookup {rows : List (Nat × Row)} {n : Nat} {row : Row} (h : RowsAgree rows)
    (hl : lookupRow rows n = some row) : row.Agrees (BitVec.ofNat 16 n) := by
  induction rows with
  | nil => cases hl
  | cons c rows ih =>
    obtain ⟨k, r⟩ := c
    rw [lookupRow] at hl
    split at hl
    · rename_i hk
      cases hl
      exact hk ▸ h.1
    · exact ih h.2.2 hl

/-- What the decoder's row for an opcode builds is encoded with that opcode and in that format (30_encoding.md R70). -/
theorem agrees_of_findRow {opc : BitVec 16} {row : Row} (h : findRow opc = some row) : row.Agrees opc := by
  have := agrees_of_lookup rowsAgree_all h
  rwa [BitVec.ofNat_toNat, BitVec.setWidth_eq] at this

/-! ## Words -/

/-- A word that decodes to an instruction is its encoding (30_encoding.md R71, R80). -/
theorem encode_of_decodeWord_whole {w : Word} {i : Instr} (h : decodeWord w = .ok (.whole i)) : encode i = [w] := by
  unfold decodeWord at h
  split at h
  · cases h
  · rename_i row hrow
    split at h
    · rename_i hz
      have ha := agrees_of_findRow hrow
      cases row with
      | op j =>
        simp only [rowOperands, Except.ok.injEq, Decoded.whole.injEq] at h
        simp only [zeroFieldsOk, beq_iff_eq, BitVec.ofNat_eq_ofNat] at hz
        rw [← h, encode, ha, wordsOf, ← hz, opcode_append_low]
      | r f =>
        simp only [rowOperands, Except.ok.injEq, Decoded.whole.injEq] at h
        simp only [zeroFieldsOk, beq_iff_eq, BitVec.ofNat_eq_ofNat] at hz
        rw [← h, encode, ha, wordsOf, ← hz, wordR_of_fields]
      | rr f =>
        simp only [rowOperands, Except.ok.injEq, Decoded.whole.injEq] at h
        simp only [zeroFieldsOk, beq_iff_eq, BitVec.ofNat_eq_ofNat] at hz
        rw [← h, encode, ha, wordsOf, ← hz, wordRR_of_fields]
      | ri f => simp [rowOperands] at h
      | riNoReg f => simp [rowOperands] at h
      | reserved f =>
        simp only [rowOperands, Except.ok.injEq, Decoded.whole.injEq] at h
        rw [← h, encode, ha, wordsOf, opcode_append_low]
    · cases h

/-- A word that decodes to an instruction with an immediate is the first of its two words (30_encoding.md R71, R80). -/
theorem encode_of_decodeWord_needsImm {w : Word} {f : Word → Instr} (h : decodeWord w = .ok (.needsImm f)) (imm : Word) :
    encode (f imm) = [w, imm] := by
  unfold decodeWord at h
  split at h
  · cases h
  · rename_i row hrow
    split at h
    · rename_i hz
      have ha := agrees_of_findRow hrow
      cases row with
      | op j => simp [rowOperands] at h
      | r g => simp [rowOperands] at h
      | rr g => simp [rowOperands] at h
      | ri g =>
        simp only [rowOperands, Except.ok.injEq, Decoded.needsImm.injEq] at h
        simp only [zeroFieldsOk, beq_iff_eq, BitVec.ofNat_eq_ofNat] at hz
        rw [← h, encode, ha, wordsOf, ← hz, wordR_of_fields]
      | riNoReg g =>
        simp only [rowOperands, Except.ok.injEq, Decoded.needsImm.injEq] at h
        simp only [zeroFieldsOk, beq_iff_eq, BitVec.ofNat_eq_ofNat] at hz
        rw [← h, encode, ha, wordsOf, ← hz, opcode_append_low]
      | reserved g => simp [rowOperands] at h
    · cases h

theorem layoutInTable (i : Instr) : (fields i).instr? = some i := by
  cases i <;> rfl

/-- What the first word of an instruction decodes to: the instruction, or what its immediate completes (30_encoding.md R71,
R80). -/
theorem decodeWord_encode (i : Instr) :
    (∃ w, encode i = [w] ∧ decodeWord w = .ok (.whole i)) ∨
      ∃ w imm f, encode i = [w, imm] ∧ decodeWord w = .ok (.needsImm f) ∧ f imm = i := by
  have h := layoutInTable i
  unfold encode
  generalize fields i = fs at h
  cases fs with
  | op opc =>
    simp only [Fields.instr?] at h
    split at h
    · rename_i j hj
      cases h
      refine .inl ⟨_, rfl, ?_⟩
      simp [decodeWord, opcodeField_append, hj, zeroFieldsOk, rowOperands, low48_append]
    · cases h
  | r opc rd =>
    simp only [Fields.instr?] at h
    split at h
    · rename_i f hf
      cases h
      refine .inl ⟨_, rfl, ?_⟩
      have ho : opcodeField (opc ++ regField rd ++ 0#44) = opc := by rw [wordR_split, opcodeField_append]
      simp only [decodeWord, ho, hf, zeroFieldsOk, rowOperands, low44_wordR, rdHigh_wordR]
      rfl
    · cases h
  | rr opc rd rs =>
    simp only [Fields.instr?] at h
    split at h
    · rename_i f hf
      cases h
      refine .inl ⟨_, rfl, ?_⟩
      have ho : opcodeField (opc ++ 0#40 ++ regField rd ++ regField rs) = opc := by rw [wordRR_split, opcodeField_append]
      simp only [decodeWord, ho, hf, zeroFieldsOk, rowOperands, zero_wordRR, rdLow_wordRR, rsLow_wordRR]
      rfl
    · cases h
  | ri opc rd imm =>
    simp only [Fields.instr?] at h
    split at h
    · rename_i f hf
      cases h
      refine .inr ⟨_, imm, f rd, rfl, ?_, rfl⟩
      have ho : opcodeField (opc ++ regField rd ++ 0#44) = opc := by rw [wordR_split, opcodeField_append]
      simp only [decodeWord, ho, hf, zeroFieldsOk, rowOperands, low44_wordR, rdHigh_wordR]
      rfl
    · cases h
  | riNoReg opc imm =>
    simp only [Fields.instr?] at h
    split at h
    · rename_i f hf
      cases h
      refine .inr ⟨_, imm, f, rfl, ?_, rfl⟩
      simp [decodeWord, opcodeField_append, hf, zeroFieldsOk, rowOperands, low48_append]
    · cases h
  | reserved opc x =>
    simp only [Fields.instr?] at h
    split at h
    · rename_i f hf
      cases h
      refine .inl ⟨_, rfl, ?_⟩
      simp [decodeWord, opcodeField_append, hf, zeroFieldsOk, rowOperands, low48_append]
    · cases h

/-- An opcode has a row exactly when some instruction has that opcode (30_encoding.md R70, R74). -/
theorem findRow_eq_none_iff (opc : BitVec 16) :
    findRow opc = none ↔ ∀ i : Instr, opcodeField (firstWord i) ≠ opc := by
  constructor
  · intro h i hi
    rcases decodeWord_encode i with ⟨w, he, hd⟩ | ⟨w, imm, f, he, hd, -⟩
    all_goals
      have hw : firstWord i = w := by simp [firstWord, he]
      rw [hw] at hi
      rw [decodeWord, hi, h] at hd
      cases hd
  · intro h
    cases hrow : findRow opc with
    | none => rfl
    | some row =>
      have ha := agrees_of_findRow hrow
      exfalso
      cases row with
      | op i =>
        refine h i ?_
        simp only [firstWord, encode]
        rw [ha]
        exact opcodeField_append ..
      | r f =>
        refine h (f 0) ?_
        simp only [firstWord, encode]
        rw [ha]
        simp only [wordsOf, List.headD_cons]
        rw [wordR_split, opcodeField_append]
      | rr f =>
        refine h (f 0 0) ?_
        simp only [firstWord, encode]
        rw [ha]
        simp only [wordsOf, List.headD_cons]
        rw [wordRR_split, opcodeField_append]
      | ri f =>
        refine h (f 0 0) ?_
        simp only [firstWord, encode]
        rw [ha]
        simp only [wordsOf, List.headD_cons]
        rw [wordR_split, opcodeField_append]
      | riNoReg f =>
        refine h (f 0) ?_
        simp only [firstWord, encode]
        rw [ha]
        exact opcodeField_append ..
      | reserved f =>
        refine h (f 0) ?_
        simp only [firstWord, encode]
        rw [ha]
        exact opcodeField_append ..

/-! ## Bytes -/

/-- A word laid out in memory order is read back, whatever follows it (20_memory.md R41). -/
theorem takeWord_disassemble (e : Endian) (w : Word) (rest : List Byte) :
    takeWord e (disassemble e 8 w ++ rest) = some (w, rest) := by
  have hl : (disassemble e 8 w).length = 8 := disassemble_length e 8 w
  have h1 : ¬ (disassemble e 8 w ++ rest).length < 8 := by
    rw [List.length_append, hl]
    omega
  rw [takeWord, if_neg h1, List.take_left' hl, List.drop_left' hl, assemble_disassemble]

/-- The bytes a word was read from. -/
theorem takeWord_eq_some {e : Endian} {bs rest : List Byte} {w : Word} (h : takeWord e bs = some (w, rest)) :
    bs = disassemble e 8 w ++ rest := by
  unfold takeWord at h
  split at h
  · cases h
  · rename_i hl
    simp only [Option.some.injEq, Prod.mk.injEq] at h
    rw [← h.1, disassemble_assemble e 8 _ (by rw [List.length_take]; omega), ← h.2, List.take_append_drop]

end Sys2Proof
end

