-- ==== Sys2Proof/Laws/Memory.lean ====
section
/-! SUPPORT. The laws of memory (spec/20_memory.md R46, R49): a read after a write, the canonical form kept by every memory
operation, and which addresses are listed. -/

namespace Sys2Proof.Machine

/-! ## Reading after writing -/

theorem Memory.lookup_write_same (m : Memory) (a : Nat) (b : Byte) :
    Memory.lookup (Memory.write m a b) a = some b := by
  induction m with
  | nil => simp [Memory.write, Memory.lookup]
  | cons c m ih =>
    obtain ⟨k, x⟩ := c
    simp only [Memory.write]
    split
    · simp [Memory.lookup]
    · split
      · simp [Memory.lookup]
      · rename_i h
        simp [Memory.lookup, h, ih]

theorem Memory.lookup_write_other (m : Memory) {a a' : Nat} (b : Byte) (h : a' ≠ a) :
    Memory.lookup (Memory.write m a b) a' = Memory.lookup m a' := by
  induction m with
  | nil => simp [Memory.write, Memory.lookup, h]
  | cons c m ih =>
    obtain ⟨k, x⟩ := c
    simp only [Memory.write]
    split
    · simp [Memory.lookup, h]
    · split
      · rename_i hk
        subst hk
        simp [Memory.lookup, h]
      · simp [Memory.lookup, ih]

@[simp] theorem Memory.read_write_same (m : Memory) (a : Nat) (b : Byte) : Memory.read (Memory.write m a b) a = b := by
  simp [Memory.read, Memory.lookup_write_same]

@[simp] theorem Memory.read_write_other (m : Memory) {a a' : Nat} (b : Byte) (h : a' ≠ a) :
    Memory.read (Memory.write m a b) a' = Memory.read m a' := by
  simp [Memory.read, Memory.lookup_write_other m b h]

/-- An address outside the bytes written reads as before. -/
theorem Memory.read_writeBytes_outside (m : Memory) (a : Nat) (bs : List Byte) (x : Nat)
    (h : x < a ∨ a + bs.length ≤ x) : Memory.read (Memory.writeBytes m a bs) x = Memory.read m x := by
  induction bs generalizing m a with
  | nil => rfl
  | cons b bs ih =>
    simp only [List.length_cons] at h
    rw [Memory.writeBytes, ih _ _ (by omega), Memory.read_write_other _ _ (by omega)]

/-- The bytes written read back. -/
@[simp] theorem Memory.readBytes_writeBytes (m : Memory) (a : Nat) (bs : List Byte) :
    Memory.readBytes (Memory.writeBytes m a bs) a bs.length = bs := by
  induction bs generalizing m a with
  | nil => rfl
  | cons b bs ih =>
    simp only [Memory.writeBytes, List.length_cons, Memory.readBytes, ih, List.cons.injEq, and_true]
    rw [Memory.read_writeBytes_outside _ _ _ _ (by omega), Memory.read_write_same]

@[simp] theorem Memory.readBytes_length (m : Memory) (a n : Nat) : (Memory.readBytes m a n).length = n := by
  induction n generalizing a with
  | zero => rfl
  | succ n ih => simp [Memory.readBytes, ih]

/-- Reading bytes depends on nothing but those bytes. -/
theorem Memory.readBytes_congr {m m' : Memory} (a n : Nat)
    (h : ∀ x, a ≤ x → x < a + n → Memory.read m x = Memory.read m' x) :
    Memory.readBytes m a n = Memory.readBytes m' a n := by
  induction n generalizing a with
  | zero => rfl
  | succ n ih =>
    rw [Memory.readBytes, Memory.readBytes, h a (by omega) (by omega),
      ih (a + 1) fun x h1 h2 => h x (by omega) (by omega)]

theorem Memory.readBytes_add (m : Memory) (a n k : Nat) :
    Memory.readBytes m a (n + k) = Memory.readBytes m a n ++ Memory.readBytes m (a + n) k := by
  induction n generalizing a with
  | zero => simp [Memory.readBytes]
  | succ n ih =>
    rw [Nat.succ_add, Memory.readBytes, Memory.readBytes, ih, List.cons_append]
    congr 3
    omega

/-- The `k`-th of the bytes read. -/
theorem Memory.readBytes_getElem? (m : Memory) (a n k : Nat) (h : k < n) :
    (Memory.readBytes m a n)[k]? = some (Memory.read m (a + k)) := by
  induction n generalizing a k with
  | zero => omega
  | succ n ih =>
    cases k with
    | zero => simp [Memory.readBytes]
    | succ k =>
      simp only [Memory.readBytes, List.getElem?_cons_succ]
      rw [ih _ _ (by omega)]
      congr 2
      omega

/-! ## The canonical form -/

/-- The head of a canonical memory lies below every other entry. -/
theorem Memory.wf_head_lt {a : Nat} {b : Byte} {m : Memory} (h : Memory.wf ((a, b) :: m) = true) :
    ∀ c ∈ m, a < c.1 := by
  induction m generalizing a b with
  | nil => simp
  | cons c m ih =>
    obtain ⟨k, x⟩ := c
    simp only [Memory.wf, Bool.and_eq_true, decide_eq_true_eq] at h
    intro c hc
    rcases List.mem_cons.mp hc with rfl | hc
    · exact h.1
    · exact Nat.lt_trans h.1 (ih h.2 c hc)

theorem Memory.wf_tail {c : Host.Cell} {m : Memory} (h : Memory.wf (c :: m) = true) : Memory.wf m = true := by
  cases m with
  | nil => rfl
  | cons d m =>
    obtain ⟨a, b⟩ := c
    obtain ⟨k, x⟩ := d
    simp only [Memory.wf, Bool.and_eq_true] at h
    exact h.2

theorem Memory.wf_cons {a : Nat} {b : Byte} {m : Memory} (h : Memory.wf m = true) (hlt : ∀ c ∈ m, a < c.1) :
    Memory.wf ((a, b) :: m) = true := by
  cases m with
  | nil => rfl
  | cons d m =>
    obtain ⟨k, x⟩ := d
    simp only [Memory.wf, Bool.and_eq_true, decide_eq_true_eq]
    exact ⟨hlt (k, x) (by simp), h⟩

/-- Which addresses a write lists: those listed before and the one written. -/
theorem Memory.mem_write {m : Memory} {a : Nat} {b : Byte} {c : Host.Cell} (h : c ∈ Memory.write m a b) :
    c = (a, b) ∨ c ∈ m := by
  induction m with
  | nil => simpa [Memory.write] using h
  | cons d m ih =>
    obtain ⟨k, x⟩ := d
    simp only [Memory.write] at h
    split at h
    · simpa using h
    · split at h
      · rcases List.mem_cons.mp h with h | h
        · exact .inl h
        · exact .inr (List.mem_cons_of_mem _ h)
      · rcases List.mem_cons.mp h with h | h
        · exact .inr (h ▸ List.mem_cons_self)
        · rcases ih h with h | h
          · exact .inl h
          · exact .inr (List.mem_cons_of_mem _ h)

/-- A write keeps the canonical form. -/
theorem Memory.wf_write {m : Memory} (a : Nat) (b : Byte) (h : Memory.wf m = true) :
    Memory.wf (Memory.write m a b) = true := by
  induction m with
  | nil => rfl
  | cons d m ih =>
    obtain ⟨k, x⟩ := d
    have hk := Memory.wf_head_lt h
    simp only [Memory.write]
    split
    · rename_i hlt
      refine Memory.wf_cons h fun c hc => ?_
      rcases List.mem_cons.mp hc with rfl | hc
      · exact hlt
      · exact Nat.lt_trans hlt (hk c hc)
    · split
      · rename_i heq
        subst heq
        exact Memory.wf_cons (Memory.wf_tail h) hk
      · refine Memory.wf_cons (ih (Memory.wf_tail h)) fun c hc => ?_
        rcases Memory.mem_write hc with rfl | hc
        · show k < a
          omega
        · exact hk c hc

theorem Memory.wf_writeBytes {m : Memory} (a : Nat) (bs : List Byte) (h : Memory.wf m = true) :
    Memory.wf (Memory.writeBytes m a bs) = true := by
  induction bs generalizing m a with
  | nil => exact h
  | cons b bs ih => exact ih _ (Memory.wf_write a b h)

theorem Memory.wf_writeCells {m : Memory} (cs : List Host.Cell) (h : Memory.wf m = true) :
    Memory.wf (Memory.writeCells m cs) = true := by
  induction cs generalizing m with
  | nil => exact h
  | cons c cs ih => exact ih (Memory.wf_write c.1 c.2 h)

theorem Memory.wf_writeWords {m : Memory} (e : Endian) (a : Nat) (ws : List Word) (h : Memory.wf m = true) :
    Memory.wf (Memory.writeWords e m a ws) = true := by
  induction ws generalizing m a with
  | nil => exact h
  | cons w ws ih => exact ih _ (Memory.wf_writeBytes a _ h)

/-- If every listed address and every address written lies below `n`, so does every address listed afterwards. -/
theorem Memory.below_writeBytes {m : Memory} {a n : Nat} (bs : List Byte) (h : ∀ c ∈ m, c.1 < n)
    (ha : a + bs.length ≤ n) : ∀ c ∈ Memory.writeBytes m a bs, c.1 < n := by
  induction bs generalizing m a with
  | nil => exact h
  | cons b bs ih =>
    simp only [List.length_cons] at ha
    refine ih (fun c hc => ?_) (by omega)
    rcases Memory.mem_write hc with rfl | hc
    · show a < n
      omega
    · exact h c hc

theorem Memory.below_writeWords {m : Memory} {a n : Nat} (e : Endian) (ws : List Word) (h : ∀ c ∈ m, c.1 < n)
    (ha : a + 8 * ws.length ≤ n) : ∀ c ∈ Memory.writeWords e m a ws, c.1 < n := by
  induction ws generalizing m a with
  | nil => exact h
  | cons w ws ih =>
    simp only [List.length_cons] at ha
    exact ih (Memory.below_writeBytes _ h (by rw [disassemble_length]; omega)) (by omega)

theorem Memory.below_writeCells {m : Memory} {n : Nat} (cs : List Host.Cell) (h : ∀ c ∈ m, c.1 < n)
    (ha : ∀ c ∈ cs, c.1 < n) : ∀ c ∈ Memory.writeCells m cs, c.1 < n := by
  induction cs generalizing m with
  | nil => exact h
  | cons c cs ih =>
    refine ih (fun d hd => ?_) fun d hd => ha d (List.mem_cons_of_mem _ hd)
    rcases Memory.mem_write hd with rfl | hd
    · exact ha c List.mem_cons_self
    · exact h d hd

/-! ## Loading an image (70_reset_and_hazards.md R345) -/

theorem Memory.read_writeWords_outside (e : Endian) (m : Memory) (a : Nat) (ws : List Word) (x : Nat)
    (h : x < a ∨ a + 8 * ws.length ≤ x) : Memory.read (Memory.writeWords e m a ws) x = Memory.read m x := by
  induction ws generalizing m a with
  | nil => rfl
  | cons w ws ih =>
    simp only [List.length_cons] at h
    rw [Memory.writeWords, ih _ _ (by omega), Memory.read_writeBytes_outside _ _ _ _ (by rw [disassemble_length]; omega)]

/-- The bytes of the `k`-th word written. -/
theorem Memory.readBytes_writeWords (e : Endian) (m : Memory) (a : Nat) (ws : List Word) (k : Nat) (w : Word)
    (hk : ws[k]? = some w) : Memory.readBytes (Memory.writeWords e m a ws) (a + 8 * k) 8 = disassemble e 8 w := by
  induction ws generalizing m a k with
  | nil => simp at hk
  | cons v ws ih =>
    cases k with
    | zero =>
      simp only [List.getElem?_cons_zero, Option.some.injEq] at hk
      subst hk
      have h := Memory.readBytes_writeBytes m a (disassemble e 8 v)
      rw [disassemble_length] at h
      rw [Memory.writeWords, Nat.mul_zero, Nat.add_zero, ← h]
      exact Memory.readBytes_congr a 8 fun x h1 h2 => by
        rw [Memory.read_writeWords_outside _ _ _ _ _ (.inl (by omega)), h]
    | succ k =>
      rw [Memory.writeWords, show a + 8 * (k + 1) = a + 8 + 8 * k by omega]
      exact ih _ _ _ (by simpa using hk)

theorem Memory.read_writeCells_outside (m : Memory) (cs : List Host.Cell) (x : Nat) (h : ∀ c ∈ cs, c.1 ≠ x) :
    Memory.read (Memory.writeCells m cs) x = Memory.read m x := by
  induction cs generalizing m with
  | nil => rfl
  | cons c cs ih =>
    rw [Memory.writeCells, ih _ fun d hd => h d (List.mem_cons_of_mem _ hd),
      Memory.read_write_other _ _ (Ne.symm (h c List.mem_cons_self))]

/-- Bytes written at addresses that are all different read back. -/
theorem Memory.read_writeCells (m : Memory) (cs : List Host.Cell) (h : cs.Pairwise fun c d => c.1 ≠ d.1) :
    ∀ c ∈ cs, Memory.read (Memory.writeCells m cs) c.1 = c.2 := by
  induction cs generalizing m with
  | nil => simp
  | cons d cs ih =>
    intro c hc
    rw [List.pairwise_cons] at h
    rcases List.mem_cons.mp hc with rfl | hc
    · rw [Memory.writeCells, Memory.read_writeCells_outside _ _ _ fun x hx => Ne.symm (h.1 x hx), Memory.read_write_same]
    · exact ih _ h.2 c hc

/-- Two canonical memories with the same bytes written are the same data. -/
theorem Memory.wf_ext {m m' : Memory} (h : Memory.wf m = true) (h' : Memory.wf m' = true)
    (heq : ∀ a, Memory.lookup m a = Memory.lookup m' a) : m = m' := by
  have below : ∀ {m : Memory} {a : Nat}, (∀ c ∈ m, a < c.1) → Memory.lookup m a = none := by
    intro m a hm
    induction m with
    | nil => rfl
    | cons c m ih =>
      obtain ⟨k, x⟩ := c
      have hk : a < k := hm (k, x) (by simp)
      rw [Memory.lookup, if_neg (by omega), ih fun c hc => hm c (List.mem_cons_of_mem _ hc)]
  induction m generalizing m' with
  | nil =>
    cases m' with
    | nil => rfl
    | cons c m' => simpa [Memory.lookup] using heq c.1
  | cons c m ih =>
    obtain ⟨k, x⟩ := c
    cases m' with
    | nil => simpa [Memory.lookup] using heq k
    | cons d m' =>
      obtain ⟨k', x'⟩ := d
      have h1 := Memory.wf_head_lt h
      have h2 := Memory.wf_head_lt h'
      have hkk : k = k' := by
        rcases Nat.lt_trichotomy k k' with hlt | he | hgt
        · have := heq k
          rw [Memory.lookup, if_pos rfl, Memory.lookup, if_neg (by omega),
            below fun c hc => Nat.lt_trans hlt (h2 c hc)] at this
          simp at this
        · exact he
        · have := heq k'
          rw [Memory.lookup, if_neg (by omega), below fun c hc => Nat.lt_trans hgt (h1 c hc),
            Memory.lookup, if_pos rfl] at this
          simp at this
      subst hkk
      have hx : x = x' := by simpa [Memory.lookup] using heq k
      subst hx
      congr 1
      refine ih (Memory.wf_tail h) (Memory.wf_tail h') fun a => ?_
      by_cases ha : a = k
      · subst ha
        rw [below h1, below h2]
      · simpa [Memory.lookup, ha] using heq a

end Sys2Proof.Machine
end

