-- ==== Sys2Proof/Laws/State.lean ====
section
/-! SUPPORT. One lemma for each field and each update of the state, so that no later proof unfolds a record update. -/

namespace Sys2Proof.Machine

/-! ## Reading and writing a register -/

@[simp] theorem State.reg_setReg_same (s : State) (i : Reg) (v : Word) : (s.setReg i v).reg i = v := by
  simp only [State.reg, State.setReg, Vector.get_eq_getElem]
  exact Vector.getElem_set_self _

@[simp] theorem State.reg_setReg_other (s : State) {i j : Reg} (v : Word) (h : j ≠ i) :
    (s.setReg i v).reg j = s.reg j := by
  have hne : (i : Nat) ≠ (j : Nat) := fun e => h (Fin.ext e.symm)
  simp only [State.reg, State.setReg, Vector.get_eq_getElem]
  exact Vector.getElem_set_ne _ _ hne

/-! ## `setReg` -/

@[simp] theorem State.setReg_par (s : State) (i : Reg) (v : Word) : (s.setReg i v).par = s.par := rfl
@[simp] theorem State.setReg_pc (s : State) (i : Reg) (v : Word) : (s.setReg i v).pc = s.pc := rfl
@[simp] theorem State.setReg_pcWrapped (s : State) (i : Reg) (v : Word) : (s.setReg i v).pcWrapped = s.pcWrapped := rfl
@[simp] theorem State.setReg_sp (s : State) (i : Reg) (v : Word) : (s.setReg i v).sp = s.sp := rfl
@[simp] theorem State.setReg_flags (s : State) (i : Reg) (v : Word) : (s.setReg i v).flags = s.flags := rfl
@[simp] theorem State.setReg_run (s : State) (i : Reg) (v : Word) : (s.setReg i v).run = s.run := rfl
@[simp] theorem State.setReg_mem (s : State) (i : Reg) (v : Word) : (s.setReg i v).mem = s.mem := rfl
@[simp] theorem State.setReg_ioTrace (s : State) (i : Reg) (v : Word) : (s.setReg i v).ioTrace = s.ioTrace := rfl
@[simp] theorem State.setReg_draws (s : State) (i : Reg) (v : Word) : (s.setReg i v).draws = s.draws := rfl

/-! ## `advance` -/

@[simp] theorem State.advance_par (s : State) (len : Word) : (s.advance len).par = s.par := rfl
@[simp] theorem State.advance_regs (s : State) (len : Word) : (s.advance len).regs = s.regs := rfl
@[simp] theorem State.advance_sp (s : State) (len : Word) : (s.advance len).sp = s.sp := rfl
@[simp] theorem State.advance_flags (s : State) (len : Word) : (s.advance len).flags = s.flags := rfl
@[simp] theorem State.advance_run (s : State) (len : Word) : (s.advance len).run = s.run := rfl
@[simp] theorem State.advance_mem (s : State) (len : Word) : (s.advance len).mem = s.mem := rfl
@[simp] theorem State.advance_ioTrace (s : State) (len : Word) : (s.advance len).ioTrace = s.ioTrace := rfl
@[simp] theorem State.advance_draws (s : State) (len : Word) : (s.advance len).draws = s.draws := rfl

@[simp] theorem State.advance_pc (s : State) (len : Word) : (s.advance len).pc = s.pc + len := rfl
@[simp] theorem State.advance_pcWrapped (s : State) (len : Word) :
    (s.advance len).pcWrapped = decide (2 ^ 64 ≤ s.pc.toNat + len.toNat) := rfl
@[simp] theorem State.advance_reg (s : State) (len : Word) (i : Reg) : (s.advance len).reg i = s.reg i := rfl

/-! ## `goTo` -/

@[simp] theorem State.goTo_par (s : State) (t : Word) : (s.goTo t).par = s.par := rfl
@[simp] theorem State.goTo_regs (s : State) (t : Word) : (s.goTo t).regs = s.regs := rfl
@[simp] theorem State.goTo_pc (s : State) (t : Word) : (s.goTo t).pc = t := rfl
@[simp] theorem State.goTo_pcWrapped (s : State) (t : Word) : (s.goTo t).pcWrapped = false := rfl
@[simp] theorem State.goTo_sp (s : State) (t : Word) : (s.goTo t).sp = s.sp := rfl
@[simp] theorem State.goTo_flags (s : State) (t : Word) : (s.goTo t).flags = s.flags := rfl
@[simp] theorem State.goTo_run (s : State) (t : Word) : (s.goTo t).run = s.run := rfl
@[simp] theorem State.goTo_mem (s : State) (t : Word) : (s.goTo t).mem = s.mem := rfl
@[simp] theorem State.goTo_ioTrace (s : State) (t : Word) : (s.goTo t).ioTrace = s.ioTrace := rfl
@[simp] theorem State.goTo_draws (s : State) (t : Word) : (s.goTo t).draws = s.draws := rfl
@[simp] theorem State.goTo_reg (s : State) (t : Word) (i : Reg) : (s.goTo t).reg i = s.reg i := rfl

/-! ## `writeLow` -/

@[simp] theorem writeLow_par (sz : Size) (i : Reg) (v : BitVec sz.bits) (s : State) : (writeLow sz i v s).par = s.par := rfl
@[simp] theorem writeLow_pc (sz : Size) (i : Reg) (v : BitVec sz.bits) (s : State) : (writeLow sz i v s).pc = s.pc := rfl
@[simp] theorem writeLow_pcWrapped (sz : Size) (i : Reg) (v : BitVec sz.bits) (s : State) : (writeLow sz i v s).pcWrapped = s.pcWrapped := rfl
@[simp] theorem writeLow_sp (sz : Size) (i : Reg) (v : BitVec sz.bits) (s : State) : (writeLow sz i v s).sp = s.sp := rfl
@[simp] theorem writeLow_flags (sz : Size) (i : Reg) (v : BitVec sz.bits) (s : State) : (writeLow sz i v s).flags = s.flags := rfl
@[simp] theorem writeLow_run (sz : Size) (i : Reg) (v : BitVec sz.bits) (s : State) : (writeLow sz i v s).run = s.run := rfl
@[simp] theorem writeLow_mem (sz : Size) (i : Reg) (v : BitVec sz.bits) (s : State) : (writeLow sz i v s).mem = s.mem := rfl
@[simp] theorem writeLow_ioTrace (sz : Size) (i : Reg) (v : BitVec sz.bits) (s : State) : (writeLow sz i v s).ioTrace = s.ioTrace := rfl

/-! ## `havocFlags` -/

@[simp] theorem havocFlags_par (s : State) : (havocFlags s).par = s.par := by unfold havocFlags; split <;> rfl
@[simp] theorem havocFlags_regs (s : State) : (havocFlags s).regs = s.regs := by unfold havocFlags; split <;> rfl
@[simp] theorem havocFlags_pc (s : State) : (havocFlags s).pc = s.pc := by unfold havocFlags; split <;> rfl
@[simp] theorem havocFlags_pcWrapped (s : State) : (havocFlags s).pcWrapped = s.pcWrapped := by unfold havocFlags; split <;> rfl
@[simp] theorem havocFlags_sp (s : State) : (havocFlags s).sp = s.sp := by unfold havocFlags; split <;> rfl
@[simp] theorem havocFlags_run (s : State) : (havocFlags s).run = s.run := by unfold havocFlags; split <;> rfl
@[simp] theorem havocFlags_mem (s : State) : (havocFlags s).mem = s.mem := by unfold havocFlags; split <;> rfl
@[simp] theorem havocFlags_ioTrace (s : State) : (havocFlags s).ioTrace = s.ioTrace := by unfold havocFlags; split <;> rfl
@[simp] theorem havocFlags_reg (s : State) (i : Reg) : (havocFlags s).reg i = s.reg i := by unfold havocFlags; split <;> rfl

/-- Under `ALU_FLAGS = unchanged` nothing happens to the flags (00_scope.md R8). -/
theorem havocFlags_unchanged (s : State) (h : s.par.aluFlags = .unchanged) : havocFlags s = s := by
  unfold havocFlags; rw [h]

/-- Under `ALU_FLAGS = unspecified` each flag takes a draw of its own (00_scope.md R8). -/
theorem havocFlags_unspecified_flags (s : State) (h : s.par.aluFlags = .unspecified) :
    (havocFlags s).flags
      = ⟨drawBit s.draws, drawBit (s.draws + 1), drawBit (s.draws + 2), drawBit (s.draws + 3)⟩ := by
  unfold havocFlags; rw [h]

/-! ## Reading a register after other updates -/

@[simp] theorem State.reg_with_pc (s : State) (i : Reg) (v : Word) : State.reg { s with pc := v } i = s.reg i := rfl
@[simp] theorem State.reg_with_pcWrapped (s : State) (i : Reg) (v : Bool) : State.reg { s with pcWrapped := v } i = s.reg i := rfl
@[simp] theorem State.reg_with_sp (s : State) (i : Reg) (v : Word) : State.reg { s with sp := v } i = s.reg i := rfl
@[simp] theorem State.reg_with_flags (s : State) (i : Reg) (v : Flags) : State.reg { s with flags := v } i = s.reg i := rfl
@[simp] theorem State.reg_with_run (s : State) (i : Reg) (v : RunState) : State.reg { s with run := v } i = s.reg i := rfl
@[simp] theorem State.reg_with_mem (s : State) (i : Reg) (v : Memory) : State.reg { s with mem := v } i = s.reg i := rfl
@[simp] theorem State.reg_with_ioTrace (s : State) (i : Reg) (v : List IOEvent) : State.reg { s with ioTrace := v } i = s.reg i := rfl
@[simp] theorem State.reg_with_draws (s : State) (i : Reg) (v : Nat) : State.reg { s with draws := v } i = s.reg i := rfl

end Sys2Proof.Machine
end

