-- ==== Sys2Proof/Laws/Ops.lean ====
section
/-! SUPPORT. What each shared operation can do, said once. -/

namespace Sys2Proof.Machine

/-! ## Sub-word results -/

theorem Size.bits_le (sz : Size) : sz.bits ≤ 64 := by cases sz <;> decide

theorem low_mergeLow (sz : Size) (hi : Word) (v : BitVec sz.bits) : low sz (mergeLow hi v) = v := by
  apply BitVec.eq_of_getLsbD_eq
  intro j hj
  have := Size.bits_le sz
  simp [low, mergeLow, hj, show j < 64 by omega]

theorem mergeLow_high (sz : Size) (hi : Word) (v : BitVec sz.bits) (j : Nat) (hj : sz.bits ≤ j) :
    (mergeLow hi v).getLsbD j = hi.getLsbD j := by
  have hv : v.getLsbD j = false := BitVec.getLsbD_of_ge v j hj
  have hs : ¬ j < sz.bits := by omega
  by_cases h64 : j < 64
  · simp [mergeLow, hs, hv, h64, show sz.bits + (j - sz.bits) = j by omega]
  · rw [BitVec.getLsbD_of_ge _ j (by omega), BitVec.getLsbD_of_ge _ j (by omega)]

theorem low_setWidth (sz : Size) (v : BitVec sz.bits) : low sz (v.setWidth 64) = v := by
  have := Size.bits_le sz
  simp [low, BitVec.setWidth_setWidth_of_le v this]

theorem low_signExtend (sz : Size) (v : BitVec sz.bits) : low sz (v.signExtend 64) = v := by
  apply BitVec.eq_of_getLsbD_eq
  intro j hj
  have := Size.bits_le sz
  rw [low, BitVec.getLsbD_setWidth, BitVec.getLsbD_signExtend]
  simp [hj, show j < 64 by omega]

/-- What `lowResult` makes of a register (00_scope.md R9). -/
theorem low_lowResult (p : SubwordWrite) (sz : Size) (old free : Word) (v : BitVec sz.bits) :
    low sz (lowResult p sz old free v) = v := by
  cases sz <;> cases p <;>
    simp only [lowResult, low_mergeLow, low_setWidth, low_signExtend]

theorem lowResult_zero (sz : Size) (old free : Word) (v : BitVec sz.bits) :
    lowResult .zero sz old free v = v.setWidth 64 := by
  cases sz <;> rfl

theorem lowResult_sign (sz : Size) (old free : Word) (v : BitVec sz.bits) :
    lowResult .sign sz old free v = v.signExtend 64 := by
  cases sz
  case b8 => exact (BitVec.setWidth_eq v).trans (BitVec.signExtend_eq v).symm
  all_goals rfl

theorem lowResult_preserve (sz : Size) (old free : Word) (v : BitVec sz.bits) (j : Nat) (hj : sz.bits ≤ j) :
    (lowResult .preserve sz old free v).getLsbD j = old.getLsbD j := by
  cases sz
  · exact mergeLow_high .b1 old v j hj
  · exact mergeLow_high .b2 old v j hj
  · exact mergeLow_high .b4 old v j hj
  · have h64 : 64 ≤ j := hj
    rw [BitVec.getLsbD_of_ge _ j h64, BitVec.getLsbD_of_ge _ j h64]

@[simp] theorem writeLow_reg_same (sz : Size) (i : Reg) (v : BitVec sz.bits) (s : State) :
    (writeLow sz i v s).reg i = lowResult s.par.subwordWrite sz (s.reg i) (Config.draw s.draws) v :=
  State.reg_setReg_same s i _

@[simp] theorem writeLow_reg_other (sz : Size) {i j : Reg} (v : BitVec sz.bits) (s : State) (h : j ≠ i) :
    (writeLow sz i v s).reg j = s.reg j :=
  State.reg_setReg_other s _ h

/-- A register write of 8 bytes leaves exactly the value (00_scope.md R9). -/
theorem writeLow_b8 (i : Reg) (v : Word) (s : State) : (writeLow .b8 i v s).reg i = v := by
  rw [writeLow_reg_same]
  exact BitVec.setWidth_eq v

/-- `WriteLow` writes what 00_scope.md R9 says, in any state that has the register from it. -/
theorem wroteLow_of_reg {sz : Size} {rd : Reg} {v : BitVec sz.bits} {s t : State}
    (h : t.reg rd = lowResult s.par.subwordWrite sz (s.reg rd) (Config.draw s.draws) v) : WroteLow sz rd v s t := by
  refine ⟨?_, fun hp => ?_, fun hp => ?_, fun hp j hj => ?_⟩
  · rw [h, low_lowResult]
  · rw [h, hp, lowResult_zero]
  · rw [h, hp, lowResult_sign]
  · rw [h, hp, lowResult_preserve _ _ _ _ j hj]

theorem wroteLow_writeLow (sz : Size) (rd : Reg) (v : BitVec sz.bits) (s : State) :
    WroteLow sz rd v s (writeLow sz rd v s) :=
  wroteLow_of_reg (writeLow_reg_same sz rd v s)

/-- After an 8-byte write the register is the value: there are no upper bits (00_scope.md R9). -/
theorem WroteLow.b8_eq {rd : Reg} {v : BitVec Size.b8.bits} {s t : State} (h : WroteLow .b8 rd v s t) : t.reg rd = v := by
  have h1 : (t.reg rd).setWidth 64 = v := h.1
  rwa [BitVec.setWidth_eq] at h1

/-! ## The ends of instructions -/

theorem sameBytes_of_mem {s t : State} (h : t.mem = s.mem) : SameBytes s t := fun a => by
  simp only [State.byteAt, h]

/-- What an advance does to `pc`. -/
theorem advance_pcAdvanced (s : State) (len : Word) : PcAdvanced len s (s.advance len) := ⟨rfl, by simp⟩

theorem aluFinish_wrote (sz : Size) (rd : Reg) (r : BitVec sz.bits) (len : Word) (s : State) :
    WroteLow sz rd r s (aluFinish sz rd r len s) :=
  wroteLow_of_reg (by simp [aluFinish])

theorem aluFinish_frame (sz : Size) (rd : Reg) (r : BitVec sz.bits) (len : Word) (s : State) :
    AluFrame rd s (aluFinish sz rd r len s) := by
  refine ⟨fun j hj => ?_, sameBytes_of_mem ?_, ?_, ?_, ?_, ?_, fun h => ?_⟩
  · simp [aluFinish, hj]
  all_goals simp [aluFinish, havocFlags_unchanged, *]

@[simp] theorem aluFinish_pc (sz : Size) (rd : Reg) (r : BitVec sz.bits) (len : Word) (s : State) :
    (aluFinish sz rd r len s).pc = s.pc + len := by
  simp [aluFinish]

@[simp] theorem aluFinish_pcWrapped (sz : Size) (rd : Reg) (r : BitVec sz.bits) (len : Word) (s : State) :
    (aluFinish sz rd r len s).pcWrapped = decide (2 ^ 64 ≤ s.pc.toNat + len.toNat) := by
  simp [aluFinish]

/-- All that an instruction which ends with `aluFinish` does. -/
theorem aluFinish_spec (sz : Size) (rd : Reg) (r : BitVec sz.bits) (len : Word) (s : State) :
    WroteLow sz rd r s (aluFinish sz rd r len s) ∧ PcAdvanced len s (aluFinish sz rd r len s)
      ∧ AluFrame rd s (aluFinish sz rd r len s) :=
  ⟨aluFinish_wrote .., ⟨aluFinish_pc .., by simp⟩, aluFinish_frame ..⟩

theorem moveFinish_wrote (sz : Size) (rd : Reg) (v : BitVec sz.bits) (len : Word) (s : State) :
    WroteLow sz rd v s (moveFinish sz rd v len s) :=
  wroteLow_of_reg (by simp [moveFinish])

theorem moveFinish_frame (sz : Size) (rd : Reg) (v : BitVec sz.bits) (len : Word) (s : State) :
    MoveFrame rd s (moveFinish sz rd v len s) := by
  refine ⟨⟨fun j hj => ?_, sameBytes_of_mem rfl, rfl, rfl, rfl⟩, rfl, rfl⟩
  simp [moveFinish, hj]

@[simp] theorem moveFinish_pc (sz : Size) (rd : Reg) (v : BitVec sz.bits) (len : Word) (s : State) :
    (moveFinish sz rd v len s).pc = s.pc + len := rfl

@[simp] theorem moveFinish_pcWrapped (sz : Size) (rd : Reg) (v : BitVec sz.bits) (len : Word) (s : State) :
    (moveFinish sz rd v len s).pcWrapped = decide (2 ^ 64 ≤ s.pc.toNat + len.toNat) := rfl

/-- All that an instruction which ends with `moveFinish` does. -/
theorem moveFinish_spec (sz : Size) (rd : Reg) (v : BitVec sz.bits) (len : Word) (s : State) :
    WroteLow sz rd v s (moveFinish sz rd v len s) ∧ PcAdvanced len s (moveFinish sz rd v len s)
      ∧ MoveFrame rd s (moveFinish sz rd v len s) :=
  ⟨moveFinish_wrote .., ⟨moveFinish_pc .., by simp⟩, moveFinish_frame ..⟩

/-- The shared shapes in the terms of Safety.lean. -/
theorem aluRR_result {i : Instr} {sz : Size} {rd rs : Reg} (f : BitVec sz.bits → BitVec sz.bits → BitVec sz.bits)
    (h : ∀ s, exec i s = aluRR sz f rd rs s) :
    AluResult i sz rd (fun s => f (s.regLow sz rd) (s.regLow sz rs)) 8 := fun s =>
  ⟨_, h s, aluFinish_spec ..⟩

theorem aluRI_result {i : Instr} {sz : Size} {rd : Reg} {imm : Word} (f : BitVec sz.bits → BitVec sz.bits → BitVec sz.bits)
    (h : ∀ s, exec i s = aluRI sz f rd imm s) :
    AluResult i sz rd (fun s => f (s.regLow sz rd) (low sz imm)) 16 := fun s =>
  ⟨_, h s, aluFinish_spec ..⟩

theorem aluR_result {i : Instr} {sz : Size} {rd : Reg} (f : BitVec sz.bits → BitVec sz.bits)
    (h : ∀ s, exec i s = aluR sz f rd s) : AluResult i sz rd (fun s => f (s.regLow sz rd)) 8 := fun s =>
  ⟨_, h s, aluFinish_spec ..⟩

/-! ## Faults -/

/-- How an instruction that may fault ends: with the state it computed, or with its fault raised in the state it started in;
never otherwise (00_scope.md R14). -/
theorem commit_cases (s : State) (r : Except FaultInfo State) :
    (∃ t, r = .ok t ∧ commit s r = .next t)
      ∨ ∃ f, r = .error f ∧ commit s r = .next { s with run := .faulted f.kind f.info } := by
  cases r with
  | ok t => exact .inl ⟨t, rfl, rfl⟩
  | error f => exact .inr ⟨f, rfl, rfl⟩

@[simp] theorem commit_ok (s t : State) : commit s (.ok t) = .next t := rfl

@[simp] theorem commit_error (s : State) (f : FaultInfo) :
    commit s (.error f) = .next { s with run := .faulted f.kind f.info } := rfl

/-! ## Memory -/

theorem inRange_iff (s : State) (a : Word) (sz : Size) :
    inRange s a sz = true ↔ a.toNat + sz.bytes ≤ s.par.memSize := by
  simp [inRange]

theorem memRead_of_le {s : State} {a : Word} {sz : Size} (h : a.toNat + sz.bytes ≤ s.par.memSize) :
    memRead s a sz = .ok (assemble s.par.endian sz.bytes (Memory.readBytes s.mem a.toNat sz.bytes)) := by
  simp [memRead, (inRange_iff s a sz).2 h]

theorem memRead_of_lt {s : State} {a : Word} {sz : Size} (h : s.par.memSize < a.toNat + sz.bytes) :
    memRead s a sz = .error ⟨.memOutOfRange, a⟩ := by
  have : inRange s a sz = false := by simp [inRange]; omega
  simp [memRead, this]

theorem memWrite_of_le {s : State} {a : Word} {sz : Size} (v : BitVec sz.bits) (h : a.toNat + sz.bytes ≤ s.par.memSize) :
    memWrite s a sz v
      = .ok { s with mem := Memory.writeBytes s.mem a.toNat (disassemble s.par.endian sz.bytes v) } := by
  simp [memWrite, (inRange_iff s a sz).2 h]

theorem memWrite_of_lt {s : State} {a : Word} {sz : Size} (v : BitVec sz.bits) (h : s.par.memSize < a.toNat + sz.bytes) :
    memWrite s a sz v = .error ⟨.memOutOfRange, a⟩ := by
  have : inRange s a sz = false := by simp [inRange]; omega
  simp [memWrite, this]

/-- Reading the same bytes of a memory that was written gives the value back, in either byte order (20_memory.md R40, R46). -/
theorem assemble_readBytes_writeBytes (e : Endian) (m : Memory) (a n : Nat) (v : BitVec (8 * n)) :
    assemble e n (Memory.readBytes (Memory.writeBytes m a (disassemble e n v)) a n) = v := by
  have h := Memory.readBytes_writeBytes m a (disassemble e n v)
  rw [disassemble_length] at h
  rw [h, assemble_disassemble]

/-- Which byte of a value the `k`-th byte of the list least significant first is. -/
theorem bytesOfNat_getElem? (n v k : Nat) (h : k < n) :
    (bytesOfNat n v)[k]? = some (BitVec.ofNat 8 (v / 256 ^ k)) := by
  induction n generalizing v k with
  | zero => omega
  | succ n ih =>
    cases k with
    | zero => simp [bytesOfNat]
    | succ k =>
      simp only [bytesOfNat, List.getElem?_cons_succ]
      rw [ih _ _ (by omega), Nat.div_div_eq_div_mul, Nat.pow_succ, Nat.mul_comm]

theorem ofNat_div_eq_extract (n k : Nat) (v : BitVec (8 * n)) :
    BitVec.ofNat 8 (v.toNat / 256 ^ k) = v.extractLsb' (8 * k) 8 := by
  apply BitVec.eq_of_toNat_eq
  simp [BitVec.extractLsb'_toNat, Nat.shiftRight_eq_div_pow, two_pow_eight_mul]

/-- The byte at each place of a value laid out in memory order (20_memory.md R40). -/
theorem disassemble_getElem? (e : Endian) (n k : Nat) (v : BitVec (8 * n)) (h : k < n) :
    (disassemble e n v)[(match e with | .little => k | .big => n - 1 - k : Nat)]? = some (v.extractLsb' (8 * k) 8) := by
  have hb := bytesOfNat_getElem? n v.toNat k h
  rw [ofNat_div_eq_extract] at hb
  cases e with
  | little => exact hb
  | big =>
    simp only [disassemble, ordered]
    rw [List.getElem?_reverse (by rw [bytesOfNat_length]; omega), bytesOfNat_length,
      show n - 1 - (n - 1 - k) = k by omega, hb]

/-- The bytes that a value read from memory is made of. -/
theorem bytesAt_readBytes (s : State) (a : Nat) (sz : Size) :
    BytesAt s a sz (assemble s.par.endian sz.bytes (Memory.readBytes s.mem a sz.bytes)) := by
  intro k hk
  have h1 := disassemble_getElem? s.par.endian sz.bytes k
    (assemble s.par.endian sz.bytes (Memory.readBytes s.mem a sz.bytes)) hk
  rw [disassemble_assemble _ _ _ (Memory.readBytes_length ..)] at h1
  have h2 := Memory.readBytes_getElem? s.mem a sz.bytes
    (match s.par.endian with | .little => k | .big => sz.bytes - 1 - k : Nat) (by split <;> omega)
  rw [h2] at h1
  exact Option.some.inj h1

/-- The bytes that a store leaves in memory. -/
theorem bytesAt_writeBytes {s t : State} {a : Nat} {sz : Size} {v : BitVec sz.bits} (hpar : t.par = s.par)
    (hmem : t.mem = Memory.writeBytes s.mem a (disassemble s.par.endian sz.bytes v)) : BytesAt t a sz v := by
  have h : assemble t.par.endian sz.bytes (Memory.readBytes t.mem a sz.bytes) = v := by
    rw [hmem, hpar, assemble_readBytes_writeBytes]
  have h2 := bytesAt_readBytes t a sz
  rwa [h] at h2

/-- A value is determined by its bytes in memory. -/
theorem BytesAt.unique {s : State} {a : Nat} {sz : Size} {v w : BitVec sz.bits} (hv : BytesAt s a sz v)
    (hw : BytesAt s a sz w) : v = w := by
  apply BitVec.eq_of_getLsbD_eq
  intro j hj
  have hk : j / 8 < sz.bytes := by
    have : j < 8 * sz.bytes := hj
    omega
  have h := (hv (j / 8) hk).symm.trans (hw (j / 8) hk)
  have hb := congrArg (fun x => x.getLsbD (j % 8)) h
  have hm : j % 8 < 8 := Nat.mod_lt _ (by decide)
  simpa [hm, show 8 * (j / 8) + j % 8 = j by omega] using hb

theorem sameBytesOutside_writeBytes {s t : State} {a : Nat} {bs : List Byte} {n : Nat} (hlen : bs.length = n)
    (hmem : t.mem = Memory.writeBytes s.mem a bs) : SameBytesOutside a n s t := fun x hx => by
  simp only [State.byteAt, hmem]
  exact Memory.read_writeBytes_outside _ _ _ _ (by omega)

/-- All that a load does. -/
theorem loadFrom_result {i : Instr} {sz : Size} {rd : Reg} {ea : State → Word} {len : Word}
    (h : ∀ s, exec i s = loadFrom sz rd (ea s) len s) : LoadResult i sz rd ea len := fun s => by
  constructor
  · intro hle
    refine ⟨_, _, ?_, bytesAt_readBytes s (ea s).toNat sz, moveFinish_spec ..⟩
    rw [h, loadFrom, memRead_of_le hle]
    rfl
  · intro hlt
    rw [h, loadFrom, memRead_of_lt hlt]
    rfl

/-- All that a store does. -/
theorem storeTo_result {i : Instr} {sz : Size} {data : Reg} {ea : State → Word} {len : Word}
    (h : ∀ s, exec i s = storeTo sz data (ea s) len s) : StoreResult i sz data ea len := fun s => by
  constructor
  · intro hle
    refine ⟨State.advance { s with
        mem := Memory.writeBytes s.mem (ea s).toNat (disassemble s.par.endian sz.bytes (s.regLow sz data)) } len,
      ?_, ?_, ?_, ?_, ?_⟩
    · rw [h, storeTo, memWrite_of_le _ hle]
      rfl
    · exact bytesAt_writeBytes (s := s) rfl rfl
    · exact ⟨fun _ => rfl, sameBytesOutside_writeBytes (by simp) rfl, rfl, rfl, rfl, rfl⟩
    · rfl
    · exact advance_pcAdvanced ..
  · intro hlt
    rw [h, storeTo, memWrite_of_lt _ hlt]
    rfl

/-! ## The stack -/

/-- The address a push writes at is `sp` less the size when `sp` is not below it (00_scope.md R11). -/
theorem pushAddr_toNat {s : State} {sz : Size} (h : sz.bytes ≤ s.sp.toNat) :
    (pushAddr sz s).toNat = s.sp.toNat - sz.bytes := by
  have hsp := s.sp.isLt
  cases sz <;> simp only [pushAddr, Size.bytes] at h ⊢ <;> bv_omega

/-- The bytes a push writes end at `sp`. -/
theorem pushAddr_add_bytes {s : State} {sz : Size} (h : sz.bytes ≤ s.sp.toNat) :
    (pushAddr sz s).toNat + sz.bytes = s.sp.toNat := by
  rw [pushAddr_toNat h, Nat.sub_add_cancel h]

/-- A push completes when its bytes lie between address 0 and the end of memory (45_jump_call_stack.md R270). -/
theorem push_of_le {s : State} {sz : Size} (v : BitVec sz.bits) (hn : sz.bytes ≤ s.sp.toNat) (hle : s.sp.toNat ≤ s.par.memSize) :
    push sz v s = .ok { s with
      mem := Memory.writeBytes s.mem (pushAddr sz s).toNat (disassemble s.par.endian sz.bytes v)
      sp := pushAddr sz s } := by
  have hw : (pushAddr sz s).toNat + sz.bytes ≤ s.par.memSize := (pushAddr_add_bytes hn).trans_le hle
  simp [push, memWrite_of_le v hw, Except.map, Nat.not_lt.2 hn]

/-- A push below address 0 or above memory faults (45_jump_call_stack.md R270). -/
theorem push_of_lt {s : State} {sz : Size} (v : BitVec sz.bits) (h : s.sp.toNat < sz.bytes ∨ s.par.memSize < s.sp.toNat) :
    push sz v s = .error ⟨.memOutOfRange, pushAddr sz s⟩ := by
  by_cases hn : s.sp.toNat < sz.bytes
  · simp [push, hn]
  · have hw : s.par.memSize < (pushAddr sz s).toNat + sz.bytes := by
      rw [pushAddr_add_bytes (Nat.not_lt.1 hn)]
      exact h.resolve_left hn
    simp [push, hn, memWrite_of_lt v hw, Except.map]

theorem pop_of_le {s : State} {sz : Size} (h : s.sp.toNat + sz.bytes ≤ s.par.memSize) :
    pop sz s = .ok (assemble s.par.endian sz.bytes (Memory.readBytes s.mem s.sp.toNat sz.bytes),
      { s with sp := s.sp + BitVec.ofNat 64 sz.bytes }) := by
  simp [pop, memRead_of_le h, Except.map]

theorem pop_of_lt {s : State} {sz : Size} (h : s.par.memSize < s.sp.toNat + sz.bytes) :
    pop sz s = .error ⟨.memOutOfRange, s.sp⟩ := by
  simp [pop, memRead_of_lt h, Except.map]

/-! ## I/O -/

theorem ioCall_of_lt {s : State} {a : Word} (e : IOEvent) (h : a.toNat < s.par.ioSize) :
    ioCall a e s = .ok { s with ioTrace := s.ioTrace ++ [e] } := by
  simp [ioCall, h]

theorem ioCall_of_le {s : State} {a : Word} (e : IOEvent) (h : s.par.ioSize ≤ a.toNat) :
    ioCall a e s = .error ⟨.ioOutOfRange, a⟩ := by
  simp [ioCall, Nat.not_lt.2 h]

/-! ## Division -/

/-- What division can answer (41_arithmetic.md R141). -/
theorem divide_cases (signed : Bool) (pc : Word) {w : Nat} (a b : BitVec w) :
    (b = 0 ∧ divide signed pc a b = .error ⟨.divideByZero, pc⟩)
      ∨ (b ≠ 0 ∧ signed = true ∧ a.toInt = -(2 ^ (w - 1)) ∧ b.toInt = -1
          ∧ divide signed pc a b = .error ⟨.divideOverflow, pc⟩)
      ∨ (b ≠ 0 ∧ signed = true ∧ ¬ (a.toInt = -(2 ^ (w - 1)) ∧ b.toInt = -1)
          ∧ divide signed pc a b = .ok (BitVec.ofInt w (a.toInt.tdiv b.toInt)))
      ∨ (b ≠ 0 ∧ signed = false ∧ divide signed pc a b = .ok (BitVec.ofNat w (a.toNat / b.toNat))) := by
  unfold divide
  by_cases hb : b = 0
  · exact .inl ⟨hb, if_pos hb⟩
  · cases signed
    · exact .inr (.inr (.inr ⟨hb, rfl, by rw [if_neg hb]; rfl⟩))
    · by_cases ho : a.toInt = -(2 ^ (w - 1)) ∧ b.toInt = -1
      · exact .inr (.inl ⟨hb, rfl, ho.1, ho.2, by rw [if_neg hb, if_pos rfl, if_pos ho]⟩)
      · exact .inr (.inr (.inl ⟨hb, rfl, ho, by rw [if_neg hb, if_pos rfl, if_neg ho]⟩))

/-- All that a division does. -/
theorem divRR_result {i : Instr} {sz : Size} {rd rs : Reg} (h : ∀ s, exec i s = divRR sz rd rs s) :
    DivResult i sz rd rs := fun s => by
  rcases divide_cases s.par.divSigned s.pc (s.regLow sz rd) (s.regLow sz rs) with
    ⟨hb, hd⟩ | ⟨hb, hs, ha, hb1, hd⟩ | ⟨hb, hs, ho, hd⟩ | ⟨hb, hs, hd⟩
  · have h1 : s.regLow sz rs = 0 → (s.regLow sz rs).toInt ≠ -1 := fun e => by rw [e]; simp
    refine ⟨fun h0 => absurd hb h0, fun h0 => absurd hb h0, fun _ => ?_, fun _ _ h2 => absurd h2 (h1 hb)⟩
    rw [h, divRR, hd]
    rfl
  · refine ⟨fun _ h0 => ?_, fun _ _ h0 => absurd ⟨ha, hb1⟩ h0, fun h0 => absurd h0 hb, fun _ _ _ => ?_⟩
    · rw [hs] at h0
      cases h0
    · rw [h, divRR, hd]
      rfl
  · refine ⟨fun _ h0 => ?_, fun _ _ _ => ?_, fun h0 => absurd h0 hb, fun _ h1 h2 => absurd ⟨h1, h2⟩ ho⟩
    · rw [hs] at h0
      cases h0
    · refine ⟨_, ?_, aluFinish_spec ..⟩
      rw [h, divRR, hd]
      rfl
  · refine ⟨fun _ _ => ?_, fun _ h0 => ?_, fun h0 => absurd h0 hb, fun h0 => ?_⟩
    · refine ⟨_, ?_, aluFinish_spec ..⟩
      rw [h, divRR, hd]
      rfl
    · rw [hs] at h0
      cases h0
    · rw [hs] at h0
      cases h0

/-! ## Pushing and popping registers -/

/-- All that a push does. -/
theorem pushReg_result {i : Instr} {sz : Size} {rd : Reg} (h : ∀ s, exec i s = pushReg sz rd s) :
    PushResult i sz rd := fun s => by
  constructor
  · intro hn hle
    refine ⟨State.advance { s with
        mem := Memory.writeBytes s.mem (pushAddr sz s).toNat (disassemble s.par.endian sz.bytes (s.regLow sz rd))
        sp := pushAddr sz s } 8, ?_, ?_, rfl, advance_pcAdvanced .., ?_⟩
    · rw [h, pushReg, push_of_le _ hn hle]
      rfl
    · exact bytesAt_writeBytes (s := s) rfl rfl
    · exact ⟨fun _ => rfl, sameBytesOutside_writeBytes (by simp) rfl, rfl, rfl, rfl, rfl⟩
  · intro hlt
    rw [h, pushReg, push_of_lt _ hlt]
    rfl

/-- All that a pop does. -/
theorem popReg_result {i : Instr} {sz : Size} {rd : Reg} (h : ∀ s, exec i s = popReg sz rd s) :
    PopResult i sz rd := fun s => by
  constructor
  · intro hle
    refine ⟨moveFinish sz rd (assemble s.par.endian sz.bytes (Memory.readBytes s.mem s.sp.toNat sz.bytes)) 8
      { s with sp := s.sp + BitVec.ofNat 64 sz.bytes }, _, ?_, bytesAt_readBytes s s.sp.toNat sz, ?_, rfl, ⟨rfl, by simp⟩, ?_, rfl⟩
    · rw [h, popReg, pop_of_le hle]
      rfl
    · exact wroteLow_of_reg (by simp [moveFinish])
    · refine ⟨fun j hj => ?_, sameBytes_of_mem rfl, rfl, rfl, rfl⟩
      simp [moveFinish, hj]
  · intro hlt
    rw [h, popReg, pop_of_lt hlt]
    rfl

/-! ## Compares, flag instructions and jumps -/

/-- All that a compare does. -/
theorem compare_result {i : Instr} {sz : Size} {a b : State → BitVec sz.bits} {len : Word}
    (h : ∀ s, exec i s = compare (a s) (b s) len s) : CompareResult i sz a b len := fun s => by
  refine ⟨_, h s, ?_, rfl, ?_, fun hc => ?_, fun hc => ?_, advance_pcAdvanced .., fun _ => rfl, sameBytes_of_mem rfl, rfl, rfl, rfl, rfl⟩
  · simp only [State.advance, flagsSub, beq_iff_eq]
    constructor
    · intro e
      have h2 := congrArg (· + b s) e
      simpa using h2
    · intro e
      rw [e]
      exact BitVec.sub_self _
  · simp [State.advance, flagsSub]
  · simp [State.advance, flagsSub, hc]
  · simp [State.advance, flagsSub, hc]

/-- All that a flag instruction does. -/
theorem setFlags_result {i : Instr} (f : Flags → Flags) (h : ∀ s, exec i s = setFlags (f s.flags) s) :
    FlagResult i f := fun s =>
  ⟨_, h s, rfl, advance_pcAdvanced .., fun _ => rfl, sameBytes_of_mem rfl, rfl, rfl, rfl, rfl⟩

/-- All that a jump does. -/
theorem jumpIf_result {i : Instr} {imm : Word} (taken : Flags → Prop) (c : Flags → Bool)
    (hc : ∀ f, c f = true ↔ taken f) (h : ∀ s, exec i s = jumpIf (c s.flags) imm s) : JumpResult i taken imm := fun s => by
  by_cases ht : taken s.flags
  · exact ⟨s.goTo imm, (h s).trans (by rw [jumpIf, if_pos ((hc s.flags).2 ht)]), fun _ => ⟨rfl, rfl⟩, fun hn => absurd ht hn,
      ⟨fun _ => rfl, sameBytes_of_mem rfl, rfl, rfl, rfl, rfl⟩, rfl⟩
  · exact ⟨s.advance 16, (h s).trans (by rw [jumpIf, if_neg fun e => ht ((hc s.flags).1 e)]; rfl), fun hp => absurd hp ht,
      fun _ => advance_pcAdvanced .., ⟨fun _ => rfl, sameBytes_of_mem rfl, rfl, rfl, rfl, rfl⟩, rfl⟩

end Sys2Proof.Machine
end

