-- ==== Sys2Proof/Laws/Exec.lean ====
section
/-! SUPPORT. What an instruction can do, said once for all of them: `exec` always answers a next state, and that state is one of
the shapes of `Effect`. Whole-machine statements follow from the shapes, with no instruction unfolded. -/

namespace Sys2Proof.Machine

/-- The instruction makes no data access and no I/O call and leaves `sp`, and `pc` only advances. -/
def Quiet (i : Instr) (s : State) : Prop :=
  access i s = none ∧ writesSp i = false ∧ ioAddress i = none ∧ transfersControl i = false

/-- Why an instruction faults (60_exceptions.md R321, the part that concerns execution). -/
inductive FaultCause (i : Instr) (s : State) : FaultInfo → Prop
  | memory (x : Access) (ha : access i s = some x) (hlt : s.par.memSize < x.addr.toNat + x.size.bytes) :
      FaultCause i s ⟨.memOutOfRange, x.addr⟩
  | belowZero (x : Access) (ha : access i s = some x) (hs : writesSp i = true) (hst : x.store = true)
      (hlt : s.sp.toNat < x.size.bytes) : FaultCause i s ⟨.memOutOfRange, x.addr⟩
  | reserved (opc : BitVec 16) (low : BitVec 48) (hopc : opc = 0x00A3 ∨ opc = 0x00A4) (hf : fields i = .reserved opc low) :
      FaultCause i s ⟨.illegalOpcode, opc ++ low⟩
  | divideByZero (sz : Size) (rd rs : Reg) (hd : divides i = some (sz, rd, rs)) (hb : s.regLow sz rs = 0) :
      FaultCause i s ⟨.divideByZero, s.pc⟩
  | divideOverflow (sz : Size) (rd rs : Reg) (hd : divides i = some (sz, rd, rs)) (hs : s.par.divSigned = true)
      (ha : (s.regLow sz rd).toInt = -(2 ^ (sz.bits - 1))) (hb : (s.regLow sz rs).toInt = -1) :
      FaultCause i s ⟨.divideOverflow, s.pc⟩
  | io (a : Word) (ha : ioAddress i = some a) (hle : s.par.ioSize ≤ a.toNat) : FaultCause i s ⟨.ioOutOfRange, a⟩

/-- What `exec i` can make of a state. -/
inductive Effect (i : Instr) (s : State) : State → Prop
  | alu (sz : Size) (rd : Reg) (r : BitVec sz.bits) (hf : flagRule i = .havoc) (hd : destReg i = some rd) (hq : Quiet i s) :
      Effect i s (aluFinish sz rd r (BitVec.ofNat 64 i.length) s)
  | move (sz : Size) (rd : Reg) (v : BitVec sz.bits) (hf : flagRule i = .keep) (hd : destReg i = some rd) (hs : writesSp i = false)
      (hio : ioAddress i = none) (ht : transfersControl i = false) (ha : ∀ x, access i s = some x → x.store = false) :
      Effect i s (moveFinish sz rd v (BitVec.ofNat 64 i.length) s)
  | store (a : Word) (sz : Size) (v : BitVec sz.bits) (hf : flagRule i = .keep) (ha : access i s = some ⟨a, sz, true⟩)
      (hs : writesSp i = false) (hio : ioAddress i = none) (hle : a.toNat + sz.bytes ≤ s.par.memSize) :
      Effect i s (State.advance
        { s with mem := Memory.writeBytes s.mem a.toNat (disassemble s.par.endian sz.bytes v) } (BitVec.ofNat 64 i.length))
  | flags (f : Flags) (hf : flagRule i ≠ .keep ∧ flagRule i ≠ .havoc) (hq : Quiet i s) :
      Effect i s (State.advance { s with flags := f } (BitVec.ofNat 64 i.length))
  | nop (hf : flagRule i = .keep) (hq : Quiet i s) : Effect i s (s.advance (BitVec.ofNat 64 i.length))
  | halt (hi : i = .parar) : Effect i s { s with run := .halted }
  | jump (target : Word) (hf : flagRule i = .keep) (ha : access i s = none) (hs : writesSp i = false)
      (hio : ioAddress i = none) (ht : transfersControl i = true) : Effect i s (s.goTo target)
  | fall (hf : flagRule i = .keep) (ha : access i s = none) (hs : writesSp i = false)
      (hio : ioAddress i = none) (ht : transfersControl i = true) : Effect i s (s.advance (BitVec.ofNat 64 i.length))
  | push (sz : Size) (v : BitVec sz.bits) (hf : flagRule i = .keep)
      (ha : access i s = some ⟨pushAddr sz s, sz, true⟩) (hs : writesSp i = true) (hio : ioAddress i = none)
      (hn : sz.bytes ≤ s.sp.toNat) (hle : s.sp.toNat ≤ s.par.memSize) :
      Effect i s (State.advance { s with
        mem := Memory.writeBytes s.mem (pushAddr sz s).toNat (disassemble s.par.endian sz.bytes v)
        sp := pushAddr sz s } (BitVec.ofNat 64 i.length))
  | call (v target : Word) (hf : flagRule i = .keep)
      (ha : access i s = some ⟨pushAddr .b8 s, .b8, true⟩) (hs : writesSp i = true) (hio : ioAddress i = none)
      (ht : transfersControl i = true) (hn : Size.b8.bytes ≤ s.sp.toNat) (hle : s.sp.toNat ≤ s.par.memSize) :
      Effect i s (State.goTo { s with
        mem := Memory.writeBytes s.mem (pushAddr .b8 s).toNat (disassemble s.par.endian Size.b8.bytes v)
        sp := pushAddr .b8 s } target)
  | pop (sz : Size) (rd : Reg) (v : BitVec sz.bits) (hf : flagRule i = .keep) (hd : destReg i = some rd)
      (ha : access i s = some ⟨s.sp, sz, false⟩) (hs : writesSp i = true) (hio : ioAddress i = none) :
      Effect i s (moveFinish sz rd v (BitVec.ofNat 64 i.length) { s with sp := s.sp + BitVec.ofNat 64 sz.bytes })
  | ret (target : Word) (hf : flagRule i = .keep) (ha : access i s = some ⟨s.sp, .b8, false⟩) (hs : writesSp i = true)
      (hio : ioAddress i = none) (ht : transfersControl i = true) :
      Effect i s (State.goTo { s with sp := s.sp + BitVec.ofNat 64 Size.b8.bytes } target)
  | ioOut (a : Word) (e : IOEvent) (he : (∃ b, e = .write a b) ∨ e = .show a) (hf : flagRule i = .keep)
      (ha : access i s = none) (hs : writesSp i = false) (hio : ioAddress i = some a) :
      Effect i s (State.advance { s with ioTrace := s.ioTrace ++ [e] } (BitVec.ofNat 64 i.length))
  | ioIn (a : Word) (rd : Reg) (hf : flagRule i = .keep) (hd : destReg i = some rd) (ha : access i s = none)
      (hs : writesSp i = false) (hio : ioAddress i = some a) :
      Effect i s (moveFinish .b1 rd (ioAnswer s) (BitVec.ofNat 64 i.length)
        { s with ioTrace := s.ioTrace ++ [.read a (ioAnswer s)], draws := s.draws + 1 })
  | fault (f : FaultInfo) (hc : FaultCause i s f) : Effect i s { s with run := .faulted f.kind f.info }

/-! ## The shapes of Machine/Ops.lean -/

section
variable {i : Instr} {s : State} {sz : Size} {rd rs : Reg} {imm len : Word}

theorem effect_aluRR {f : BitVec sz.bits → BitVec sz.bits → BitVec sz.bits} (h : exec i s = aluRR sz f rd rs s)
    (hf : flagRule i = .havoc) (hd : destReg i = some rd) (hq : Quiet i s) (hl : lenShort = BitVec.ofNat 64 i.length) :
    ∃ t, exec i s = .next t ∧ Effect i s t :=
  ⟨_, h.trans (by rw [aluRR, hl]), .alu sz rd _ hf hd hq⟩

theorem effect_aluRI {f : BitVec sz.bits → BitVec sz.bits → BitVec sz.bits} (h : exec i s = aluRI sz f rd imm s)
    (hf : flagRule i = .havoc) (hd : destReg i = some rd) (hq : Quiet i s) (hl : lenRI = BitVec.ofNat 64 i.length) :
    ∃ t, exec i s = .next t ∧ Effect i s t :=
  ⟨_, h.trans (by rw [aluRI, hl]), .alu sz rd _ hf hd hq⟩

theorem effect_aluR {f : BitVec sz.bits → BitVec sz.bits} (h : exec i s = aluR sz f rd s)
    (hf : flagRule i = .havoc) (hd : destReg i = some rd) (hq : Quiet i s) (hl : lenShort = BitVec.ofNat 64 i.length) :
    ∃ t, exec i s = .next t ∧ Effect i s t :=
  ⟨_, h.trans (by rw [aluR, hl]), .alu sz rd _ hf hd hq⟩

theorem effect_clr (h : exec i s = .next (aluFinish .b8 rd 0 lenShort s))
    (hf : flagRule i = .havoc) (hd : destReg i = some rd) (hq : Quiet i s) (hl : lenShort = BitVec.ofNat 64 i.length) :
    ∃ t, exec i s = .next t ∧ Effect i s t :=
  ⟨_, h.trans (by rw [hl]), .alu .b8 rd _ hf hd hq⟩

theorem effect_divRR (h : exec i s = divRR sz rd rs s)
    (hf : flagRule i = .havoc) (hd : destReg i = some rd) (hq : Quiet i s) (hl : lenShort = BitVec.ofNat 64 i.length)
    (hv : divides i = some (sz, rd, rs)) : ∃ t, exec i s = .next t ∧ Effect i s t := by
  rcases divide_cases s.par.divSigned s.pc (s.regLow sz rd) (s.regLow sz rs) with
    ⟨hb, he⟩ | ⟨-, hs, ha, hb, he⟩ | ⟨-, -, -, he⟩ | ⟨-, -, he⟩
  · exact ⟨_, h.trans (by rw [divRR, he]; rfl), .fault _ (.divideByZero sz rd rs hv hb)⟩
  · exact ⟨_, h.trans (by rw [divRR, he]; rfl), .fault _ (.divideOverflow sz rd rs hv hs ha hb)⟩
  · exact ⟨_, h.trans (by rw [divRR, he, hl]; rfl), .alu sz rd _ hf hd hq⟩
  · exact ⟨_, h.trans (by rw [divRR, he, hl]; rfl), .alu sz rd _ hf hd hq⟩

theorem effect_move {v : BitVec sz.bits} (h : exec i s = .next (moveFinish sz rd v len s))
    (hf : flagRule i = .keep) (hd : destReg i = some rd) (hq : Quiet i s) (hl : len = BitVec.ofNat 64 i.length) :
    ∃ t, exec i s = .next t ∧ Effect i s t :=
  ⟨_, h.trans (by rw [hl]), .move sz rd v hf hd hq.2.1 hq.2.2.1 hq.2.2.2 fun x hx => by rw [hq.1] at hx; cases hx⟩

theorem moveFinish_b8 (rd : Reg) (v len : Word) (s : State) : moveFinish .b8 rd v len s = (s.setReg rd v).advance len := by
  have h : lowResult s.par.subwordWrite .b8 (s.reg rd) (Config.draw s.draws) v = v := BitVec.setWidth_eq v
  have hw : writeLow .b8 rd v s = s.setReg rd v := by
    unfold writeLow
    rw [h]
    rfl
  rw [moveFinish, hw]

theorem effect_loadv (h : exec i s = .next ((s.setReg rd imm).advance len))
    (hf : flagRule i = .keep) (hd : destReg i = some rd) (hq : Quiet i s) (hl : len = BitVec.ofNat 64 i.length) :
    ∃ t, exec i s = .next t ∧ Effect i s t :=
  effect_move (sz := .b8) (v := imm) (h.trans (by rw [moveFinish_b8])) hf hd hq hl

theorem effect_load {ea : Word} (h : exec i s = loadFrom sz rd ea len s)
    (hf : flagRule i = .keep) (hd : destReg i = some rd) (hs : writesSp i = false)
    (hio : ioAddress i = none) (ht : transfersControl i = false) (ha : access i s = some ⟨ea, sz, false⟩)
    (hl : len = BitVec.ofNat 64 i.length) : ∃ t, exec i s = .next t ∧ Effect i s t := by
  by_cases hle : ea.toNat + sz.bytes ≤ s.par.memSize
  · refine ⟨_, h.trans (by rw [loadFrom, memRead_of_le hle, hl]; rfl), .move sz rd _ hf hd hs hio ht fun x hx => ?_⟩
    rw [ha] at hx
    cases hx
    rfl
  · exact ⟨_, h.trans (by rw [loadFrom, memRead_of_lt (by omega)]; rfl), .fault _ (.memory _ ha (Nat.lt_of_not_le hle))⟩

theorem effect_store {ea : Word} (h : exec i s = storeTo sz rd ea len s)
    (hf : flagRule i = .keep) (hs : writesSp i = false) (hio : ioAddress i = none)
    (ha : access i s = some ⟨ea, sz, true⟩) (hl : len = BitVec.ofNat 64 i.length) :
    ∃ t, exec i s = .next t ∧ Effect i s t := by
  by_cases hle : ea.toNat + sz.bytes ≤ s.par.memSize
  · exact ⟨_, h.trans (by rw [storeTo, memWrite_of_le _ hle, hl]; rfl), .store ea sz _ hf ha hs hio hle⟩
  · exact ⟨_, h.trans (by rw [storeTo, memWrite_of_lt _ (by omega)]; rfl), .fault _ (.memory _ ha (Nat.lt_of_not_le hle))⟩

theorem effect_compare {a b : BitVec sz.bits} (h : exec i s = compare a b len s)
    (hf : flagRule i = .compare) (hq : Quiet i s) (hl : len = BitVec.ofNat 64 i.length) :
    ∃ t, exec i s = .next t ∧ Effect i s t :=
  ⟨_, h.trans (by rw [compare, hl]), .flags _ (by rw [hf]; decide) hq⟩

theorem effect_setFlags {f : Flags} (h : exec i s = setFlags f s)
    (hf : flagRule i = .one) (hq : Quiet i s) (hl : lenShort = BitVec.ofNat 64 i.length) :
    ∃ t, exec i s = .next t ∧ Effect i s t :=
  ⟨_, h.trans (by rw [setFlags, hl]), .flags _ (by rw [hf]; decide) hq⟩

theorem effect_jump {c : Bool} (h : exec i s = jumpIf c imm s)
    (hf : flagRule i = .keep) (ha : access i s = none) (hs : writesSp i = false) (hio : ioAddress i = none)
    (ht : transfersControl i = true) (hl : lenRI = BitVec.ofNat 64 i.length) : ∃ t, exec i s = .next t ∧ Effect i s t := by
  cases c with
  | true => exact ⟨_, h, .jump imm hf ha hs hio ht⟩
  | false => exact ⟨_, h.trans (by rw [jumpIf, hl]; rfl), .fall hf ha hs hio ht⟩

/-- The cause of a push's fault. -/
theorem faultCause_push (ha : access i s = some ⟨pushAddr sz s, sz, true⟩) (hs : writesSp i = true)
    (hout : s.sp.toNat < sz.bytes ∨ s.par.memSize < s.sp.toNat) : FaultCause i s ⟨.memOutOfRange, pushAddr sz s⟩ := by
  by_cases hn : s.sp.toNat < sz.bytes
  · exact .belowZero _ ha hs rfl hn
  · refine .memory _ ha ?_
    rw [pushAddr_add_bytes (Nat.not_lt.1 hn)]
    exact hout.resolve_left hn

theorem effect_push (h : exec i s = pushReg sz rd s)
    (hf : flagRule i = .keep) (ha : access i s = some ⟨pushAddr sz s, sz, true⟩) (hs : writesSp i = true)
    (hio : ioAddress i = none) (hl : lenShort = BitVec.ofNat 64 i.length) : ∃ t, exec i s = .next t ∧ Effect i s t := by
  by_cases hout : s.sp.toNat < sz.bytes ∨ s.par.memSize < s.sp.toNat
  · exact ⟨_, h.trans (by rw [pushReg, push_of_lt _ hout]; rfl), .fault _ (faultCause_push ha hs hout)⟩
  · exact ⟨_, h.trans (by rw [pushReg, push_of_le _ (by omega) (by omega), hl]; rfl),
      .push sz _ hf ha hs hio (by omega) (by omega)⟩

theorem effect_call (h : exec i s = execCall imm s)
    (hf : flagRule i = .keep) (ha : access i s = some ⟨pushAddr .b8 s, .b8, true⟩) (hs : writesSp i = true)
    (hio : ioAddress i = none) (ht : transfersControl i = true) : ∃ t, exec i s = .next t ∧ Effect i s t := by
  by_cases hout : s.sp.toNat < Size.b8.bytes ∨ s.par.memSize < s.sp.toNat
  · exact ⟨_, h.trans (by rw [execCall, push_of_lt _ hout]; rfl), .fault _ (faultCause_push ha hs hout)⟩
  · exact ⟨_, h.trans (by rw [execCall, push_of_le _ (by omega) (by omega)]; rfl),
      .call _ imm hf ha hs hio ht (by omega) (by omega)⟩

theorem effect_pop (h : exec i s = popReg sz rd s)
    (hf : flagRule i = .keep) (hd : destReg i = some rd) (ha : access i s = some ⟨s.sp, sz, false⟩) (hs : writesSp i = true)
    (hio : ioAddress i = none) (hl : lenShort = BitVec.ofNat 64 i.length) : ∃ t, exec i s = .next t ∧ Effect i s t := by
  by_cases hle : s.sp.toNat + sz.bytes ≤ s.par.memSize
  · exact ⟨_, h.trans (by rw [popReg, pop_of_le hle, hl]; rfl), .pop sz rd _ hf hd ha hs hio⟩
  · exact ⟨_, h.trans (by rw [popReg, pop_of_lt (by omega)]; rfl), .fault _ (.memory _ ha (Nat.lt_of_not_le hle))⟩

theorem effect_ret (h : exec i s = execRet s)
    (hf : flagRule i = .keep) (ha : access i s = some ⟨s.sp, .b8, false⟩) (hs : writesSp i = true)
    (hio : ioAddress i = none) (ht : transfersControl i = true) : ∃ t, exec i s = .next t ∧ Effect i s t := by
  by_cases hle : s.sp.toNat + Size.b8.bytes ≤ s.par.memSize
  · exact ⟨_, h.trans (by rw [execRet, pop_of_le hle]; rfl), .ret _ hf ha hs hio ht⟩
  · exact ⟨_, h.trans (by rw [execRet, pop_of_lt (by omega)]; rfl), .fault _ (.memory _ ha (Nat.lt_of_not_le hle))⟩

theorem effect_svio (h : exec i s = execSvio rd imm s)
    (hf : flagRule i = .keep) (ha : access i s = none) (hs : writesSp i = false) (hio : ioAddress i = some imm)
    (hl : lenRI = BitVec.ofNat 64 i.length) : ∃ t, exec i s = .next t ∧ Effect i s t := by
  by_cases hlt : imm.toNat < s.par.ioSize
  · exact ⟨_, h.trans (by rw [execSvio, ioWrite, ioCall_of_lt _ hlt, hl]; rfl), .ioOut imm _ (.inl ⟨_, rfl⟩) hf ha hs hio⟩
  · exact ⟨_, h.trans (by rw [execSvio, ioWrite, ioCall_of_le _ (by omega)]; rfl), .fault _ (.io imm hio (by omega))⟩

theorem effect_showio (h : exec i s = execShowio imm s)
    (hf : flagRule i = .keep) (ha : access i s = none) (hs : writesSp i = false) (hio : ioAddress i = some imm)
    (hl : lenRI = BitVec.ofNat 64 i.length) : ∃ t, exec i s = .next t ∧ Effect i s t := by
  by_cases hlt : imm.toNat < s.par.ioSize
  · exact ⟨_, h.trans (by rw [execShowio, ioShow, ioCall_of_lt _ hlt, hl]; rfl), .ioOut imm _ (.inr rfl) hf ha hs hio⟩
  · exact ⟨_, h.trans (by rw [execShowio, ioShow, ioCall_of_le _ (by omega)]; rfl), .fault _ (.io imm hio (by omega))⟩

theorem effect_loadio (h : exec i s = execLoadio rd imm s)
    (hf : flagRule i = .keep) (hd : destReg i = some rd) (ha : access i s = none) (hs : writesSp i = false)
    (hio : ioAddress i = some imm) (hl : lenRI = BitVec.ofNat 64 i.length) : ∃ t, exec i s = .next t ∧ Effect i s t := by
  by_cases hlt : imm.toNat < s.par.ioSize
  · exact ⟨_, h.trans (by rw [execLoadio, ioRead, ioCall_of_lt _ hlt, hl]; rfl), .ioIn imm rd hf hd ha hs hio⟩
  · exact ⟨_, h.trans (by rw [execLoadio, ioRead, ioCall_of_le _ (by omega)]; rfl), .fault _ (.io imm hio (by omega))⟩

end

/-! ## All instructions -/

theorem exec_effect_parar (s : State) : ∃ t, exec .parar s = .next t ∧ Effect .parar s t :=
  ⟨_, rfl, .halt rfl⟩

theorem exec_effect_nop (s : State) : ∃ t, exec .nop s = .next t ∧ Effect .nop s t :=
  ⟨_, rfl, .nop rfl ⟨rfl, rfl, rfl, rfl⟩⟩

theorem exec_effect_add (rd : Reg) (rs : Reg) (s : State) : ∃ t, exec (.add rd rs) s = .next t ∧ Effect (.add rd rs) s t :=
  effect_aluRR rfl rfl rfl ⟨rfl, rfl, rfl, rfl⟩ rfl

theorem exec_effect_sub (rd : Reg) (rs : Reg) (s : State) : ∃ t, exec (.sub rd rs) s = .next t ∧ Effect (.sub rd rs) s t :=
  effect_aluRR rfl rfl rfl ⟨rfl, rfl, rfl, rfl⟩ rfl

theorem exec_effect_muls (rd : Reg) (rs : Reg) (s : State) : ∃ t, exec (.muls rd rs) s = .next t ∧ Effect (.muls rd rs) s t :=
  effect_aluRR rfl rfl rfl ⟨rfl, rfl, rfl, rfl⟩ rfl

theorem exec_effect_mul (rd : Reg) (rs : Reg) (s : State) : ∃ t, exec (.mul rd rs) s = .next t ∧ Effect (.mul rd rs) s t :=
  effect_aluRR rfl rfl rfl ⟨rfl, rfl, rfl, rfl⟩ rfl

theorem exec_effect_div (rd : Reg) (rs : Reg) (s : State) : ∃ t, exec (.div rd rs) s = .next t ∧ Effect (.div rd rs) s t :=
  effect_divRR rfl rfl rfl ⟨rfl, rfl, rfl, rfl⟩ rfl rfl

theorem exec_effect_addv (rd : Reg) (imm : Word) (s : State) : ∃ t, exec (.addv rd imm) s = .next t ∧ Effect (.addv rd imm) s t :=
  effect_aluRI rfl rfl rfl ⟨rfl, rfl, rfl, rfl⟩ rfl

theorem exec_effect_subv (rd : Reg) (imm : Word) (s : State) : ∃ t, exec (.subv rd imm) s = .next t ∧ Effect (.subv rd imm) s t :=
  effect_aluRI rfl rfl rfl ⟨rfl, rfl, rfl, rfl⟩ rfl

theorem exec_effect_inc (rd : Reg) (s : State) : ∃ t, exec (.inc rd) s = .next t ∧ Effect (.inc rd) s t :=
  effect_aluR (sz := .b8) (f := (· + 1)) rfl rfl rfl ⟨rfl, rfl, rfl, rfl⟩ rfl

theorem exec_effect_dec (rd : Reg) (s : State) : ∃ t, exec (.dec rd) s = .next t ∧ Effect (.dec rd) s t :=
  effect_aluR (sz := .b8) (f := (· - 1)) rfl rfl rfl ⟨rfl, rfl, rfl, rfl⟩ rfl

theorem exec_effect_clr (rd : Reg) (s : State) : ∃ t, exec (.clr rd) s = .next t ∧ Effect (.clr rd) s t :=
  effect_clr rfl rfl rfl ⟨rfl, rfl, rfl, rfl⟩ rfl

theorem exec_effect_not (rd : Reg) (s : State) : ∃ t, exec (.not rd) s = .next t ∧ Effect (.not rd) s t :=
  effect_aluR rfl rfl rfl ⟨rfl, rfl, rfl, rfl⟩ rfl

theorem exec_effect_and (rd : Reg) (rs : Reg) (s : State) : ∃ t, exec (.and rd rs) s = .next t ∧ Effect (.and rd rs) s t :=
  effect_aluRR rfl rfl rfl ⟨rfl, rfl, rfl, rfl⟩ rfl

theorem exec_effect_andv (rd : Reg) (imm : Word) (s : State) : ∃ t, exec (.andv rd imm) s = .next t ∧ Effect (.andv rd imm) s t :=
  effect_aluRI rfl rfl rfl ⟨rfl, rfl, rfl, rfl⟩ rfl

theorem exec_effect_or (rd : Reg) (rs : Reg) (s : State) : ∃ t, exec (.or rd rs) s = .next t ∧ Effect (.or rd rs) s t :=
  effect_aluRR rfl rfl rfl ⟨rfl, rfl, rfl, rfl⟩ rfl

theorem exec_effect_orv (rd : Reg) (imm : Word) (s : State) : ∃ t, exec (.orv rd imm) s = .next t ∧ Effect (.orv rd imm) s t :=
  effect_aluRI rfl rfl rfl ⟨rfl, rfl, rfl, rfl⟩ rfl

theorem exec_effect_xor (rd : Reg) (rs : Reg) (s : State) : ∃ t, exec (.xor rd rs) s = .next t ∧ Effect (.xor rd rs) s t :=
  effect_aluRR rfl rfl rfl ⟨rfl, rfl, rfl, rfl⟩ rfl

theorem exec_effect_xorv (rd : Reg) (imm : Word) (s : State) : ∃ t, exec (.xorv rd imm) s = .next t ∧ Effect (.xorv rd imm) s t :=
  effect_aluRI rfl rfl rfl ⟨rfl, rfl, rfl, rfl⟩ rfl

theorem exec_effect_shi (rd : Reg) (s : State) : ∃ t, exec (.shi rd) s = .next t ∧ Effect (.shi rd) s t :=
  effect_aluR (sz := .b8) (f := (· <<< s.par.shiftCount.val)) rfl rfl rfl ⟨rfl, rfl, rfl, rfl⟩ rfl

theorem exec_effect_shd (rd : Reg) (s : State) : ∃ t, exec (.shd rd) s = .next t ∧ Effect (.shd rd) s t :=
  effect_aluR (sz := .b8) (f := (·.sshiftRight s.par.shiftCount.val)) rfl rfl rfl ⟨rfl, rfl, rfl, rfl⟩ rfl

theorem exec_effect_ushi (rd : Reg) (s : State) : ∃ t, exec (.ushi rd) s = .next t ∧ Effect (.ushi rd) s t :=
  effect_aluR (sz := .b8) (f := (· <<< s.par.shiftCount.val)) rfl rfl rfl ⟨rfl, rfl, rfl, rfl⟩ rfl

theorem exec_effect_ushd (rd : Reg) (s : State) : ∃ t, exec (.ushd rd) s = .next t ∧ Effect (.ushd rd) s t :=
  effect_aluR (sz := .b8) (f := (· >>> s.par.shiftCount.val)) rfl rfl rfl ⟨rfl, rfl, rfl, rfl⟩ rfl

theorem exec_effect_load (rd : Reg) (imm : Word) (s : State) : ∃ t, exec (.load rd imm) s = .next t ∧ Effect (.load rd imm) s t :=
  effect_load rfl rfl rfl rfl rfl rfl rfl rfl

theorem exec_effect_loadv (rd : Reg) (imm : Word) (s : State) : ∃ t, exec (.loadv rd imm) s = .next t ∧ Effect (.loadv rd imm) s t :=
  effect_loadv rfl rfl rfl ⟨rfl, rfl, rfl, rfl⟩ rfl

theorem exec_effect_loadr (rd : Reg) (rs : Reg) (s : State) : ∃ t, exec (.loadr rd rs) s = .next t ∧ Effect (.loadr rd rs) s t :=
  effect_load rfl rfl rfl rfl rfl rfl rfl rfl

theorem exec_effect_storev (rd : Reg) (imm : Word) (s : State) : ∃ t, exec (.storev rd imm) s = .next t ∧ Effect (.storev rd imm) s t :=
  effect_store rfl rfl rfl rfl rfl rfl

theorem exec_effect_cmp (rd : Reg) (rs : Reg) (s : State) : ∃ t, exec (.cmp rd rs) s = .next t ∧ Effect (.cmp rd rs) s t :=
  effect_compare rfl rfl ⟨rfl, rfl, rfl, rfl⟩ rfl

theorem exec_effect_cmpv (rd : Reg) (imm : Word) (s : State) : ∃ t, exec (.cmpv rd imm) s = .next t ∧ Effect (.cmpv rd imm) s t :=
  effect_compare rfl rfl ⟨rfl, rfl, rfl, rfl⟩ rfl

theorem exec_effect_clrZ (s : State) : ∃ t, exec .clrZ s = .next t ∧ Effect .clrZ s t :=
  effect_setFlags rfl rfl ⟨rfl, rfl, rfl, rfl⟩ rfl

theorem exec_effect_setZ (s : State) : ∃ t, exec .setZ s = .next t ∧ Effect .setZ s t :=
  effect_setFlags rfl rfl ⟨rfl, rfl, rfl, rfl⟩ rfl

theorem exec_effect_clrN (s : State) : ∃ t, exec .clrN s = .next t ∧ Effect .clrN s t :=
  effect_setFlags rfl rfl ⟨rfl, rfl, rfl, rfl⟩ rfl

theorem exec_effect_setN (s : State) : ∃ t, exec .setN s = .next t ∧ Effect .setN s t :=
  effect_setFlags rfl rfl ⟨rfl, rfl, rfl, rfl⟩ rfl

theorem exec_effect_clrC (s : State) : ∃ t, exec .clrC s = .next t ∧ Effect .clrC s t :=
  effect_setFlags rfl rfl ⟨rfl, rfl, rfl, rfl⟩ rfl

theorem exec_effect_setC (s : State) : ∃ t, exec .setC s = .next t ∧ Effect .setC s t :=
  effect_setFlags rfl rfl ⟨rfl, rfl, rfl, rfl⟩ rfl

theorem exec_effect_clrV (s : State) : ∃ t, exec .clrV s = .next t ∧ Effect .clrV s t :=
  effect_setFlags rfl rfl ⟨rfl, rfl, rfl, rfl⟩ rfl

theorem exec_effect_setV (s : State) : ∃ t, exec .setV s = .next t ∧ Effect .setV s t :=
  effect_setFlags rfl rfl ⟨rfl, rfl, rfl, rfl⟩ rfl

theorem exec_effect_jmp (imm : Word) (s : State) : ∃ t, exec (.jmp imm) s = .next t ∧ Effect (.jmp imm) s t :=
  effect_jump rfl rfl rfl rfl rfl rfl rfl

theorem exec_effect_jeq (imm : Word) (s : State) : ∃ t, exec (.jeq imm) s = .next t ∧ Effect (.jeq imm) s t :=
  effect_jump rfl rfl rfl rfl rfl rfl rfl

theorem exec_effect_jne (imm : Word) (s : State) : ∃ t, exec (.jne imm) s = .next t ∧ Effect (.jne imm) s t :=
  effect_jump rfl rfl rfl rfl rfl rfl rfl

theorem exec_effect_jn (imm : Word) (s : State) : ∃ t, exec (.jn imm) s = .next t ∧ Effect (.jn imm) s t :=
  effect_jump rfl rfl rfl rfl rfl rfl rfl

theorem exec_effect_jnn (imm : Word) (s : State) : ∃ t, exec (.jnn imm) s = .next t ∧ Effect (.jnn imm) s t :=
  effect_jump rfl rfl rfl rfl rfl rfl rfl

theorem exec_effect_jc (imm : Word) (s : State) : ∃ t, exec (.jc imm) s = .next t ∧ Effect (.jc imm) s t :=
  effect_jump rfl rfl rfl rfl rfl rfl rfl

theorem exec_effect_jnc (imm : Word) (s : State) : ∃ t, exec (.jnc imm) s = .next t ∧ Effect (.jnc imm) s t :=
  effect_jump rfl rfl rfl rfl rfl rfl rfl

theorem exec_effect_jlt (imm : Word) (s : State) : ∃ t, exec (.jlt imm) s = .next t ∧ Effect (.jlt imm) s t :=
  effect_jump rfl rfl rfl rfl rfl rfl rfl

theorem exec_effect_jge (imm : Word) (s : State) : ∃ t, exec (.jge imm) s = .next t ∧ Effect (.jge imm) s t :=
  effect_jump rfl rfl rfl rfl rfl rfl rfl

theorem exec_effect_call (imm : Word) (s : State) : ∃ t, exec (.call imm) s = .next t ∧ Effect (.call imm) s t :=
  effect_call rfl rfl rfl rfl rfl rfl

theorem exec_effect_svio (rd : Reg) (imm : Word) (s : State) : ∃ t, exec (.svio rd imm) s = .next t ∧ Effect (.svio rd imm) s t :=
  effect_svio rfl rfl rfl rfl rfl rfl

theorem exec_effect_loadio (rd : Reg) (imm : Word) (s : State) : ∃ t, exec (.loadio rd imm) s = .next t ∧ Effect (.loadio rd imm) s t :=
  effect_loadio rfl rfl rfl rfl rfl rfl rfl

theorem exec_effect_showio (imm : Word) (s : State) : ∃ t, exec (.showio imm) s = .next t ∧ Effect (.showio imm) s t :=
  effect_showio rfl rfl rfl rfl rfl rfl

theorem exec_effect_reserved00A3 (low : BitVec 48) (s : State) : ∃ t, exec (.reserved00A3 low) s = .next t ∧ Effect (.reserved00A3 low) s t :=
  ⟨_, rfl, .fault _ (.reserved _ low (.inl rfl) rfl)⟩

theorem exec_effect_reserved00A4 (low : BitVec 48) (s : State) : ∃ t, exec (.reserved00A4 low) s = .next t ∧ Effect (.reserved00A4 low) s t :=
  ⟨_, rfl, .fault _ (.reserved _ low (.inr rfl) rfl)⟩

theorem exec_effect_add1 (rd : Reg) (rs : Reg) (s : State) : ∃ t, exec (.add1 rd rs) s = .next t ∧ Effect (.add1 rd rs) s t :=
  effect_aluRR rfl rfl rfl ⟨rfl, rfl, rfl, rfl⟩ rfl

theorem exec_effect_sub1 (rd : Reg) (rs : Reg) (s : State) : ∃ t, exec (.sub1 rd rs) s = .next t ∧ Effect (.sub1 rd rs) s t :=
  effect_aluRR rfl rfl rfl ⟨rfl, rfl, rfl, rfl⟩ rfl

theorem exec_effect_mul1 (rd : Reg) (rs : Reg) (s : State) : ∃ t, exec (.mul1 rd rs) s = .next t ∧ Effect (.mul1 rd rs) s t :=
  effect_aluRR rfl rfl rfl ⟨rfl, rfl, rfl, rfl⟩ rfl

theorem exec_effect_muls1 (rd : Reg) (rs : Reg) (s : State) : ∃ t, exec (.muls1 rd rs) s = .next t ∧ Effect (.muls1 rd rs) s t :=
  effect_aluRR rfl rfl rfl ⟨rfl, rfl, rfl, rfl⟩ rfl

theorem exec_effect_div1 (rd : Reg) (rs : Reg) (s : State) : ∃ t, exec (.div1 rd rs) s = .next t ∧ Effect (.div1 rd rs) s t :=
  effect_divRR rfl rfl rfl ⟨rfl, rfl, rfl, rfl⟩ rfl rfl

theorem exec_effect_addv1 (rd : Reg) (imm : Word) (s : State) : ∃ t, exec (.addv1 rd imm) s = .next t ∧ Effect (.addv1 rd imm) s t :=
  effect_aluRI rfl rfl rfl ⟨rfl, rfl, rfl, rfl⟩ rfl

theorem exec_effect_subv1 (rd : Reg) (imm : Word) (s : State) : ∃ t, exec (.subv1 rd imm) s = .next t ∧ Effect (.subv1 rd imm) s t :=
  effect_aluRI rfl rfl rfl ⟨rfl, rfl, rfl, rfl⟩ rfl

theorem exec_effect_add2 (rd : Reg) (rs : Reg) (s : State) : ∃ t, exec (.add2 rd rs) s = .next t ∧ Effect (.add2 rd rs) s t :=
  effect_aluRR rfl rfl rfl ⟨rfl, rfl, rfl, rfl⟩ rfl

theorem exec_effect_sub2 (rd : Reg) (rs : Reg) (s : State) : ∃ t, exec (.sub2 rd rs) s = .next t ∧ Effect (.sub2 rd rs) s t :=
  effect_aluRR rfl rfl rfl ⟨rfl, rfl, rfl, rfl⟩ rfl

theorem exec_effect_mul2 (rd : Reg) (rs : Reg) (s : State) : ∃ t, exec (.mul2 rd rs) s = .next t ∧ Effect (.mul2 rd rs) s t :=
  effect_aluRR rfl rfl rfl ⟨rfl, rfl, rfl, rfl⟩ rfl

theorem exec_effect_muls2 (rd : Reg) (rs : Reg) (s : State) : ∃ t, exec (.muls2 rd rs) s = .next t ∧ Effect (.muls2 rd rs) s t :=
  effect_aluRR rfl rfl rfl ⟨rfl, rfl, rfl, rfl⟩ rfl

theorem exec_effect_div2 (rd : Reg) (rs : Reg) (s : State) : ∃ t, exec (.div2 rd rs) s = .next t ∧ Effect (.div2 rd rs) s t :=
  effect_divRR rfl rfl rfl ⟨rfl, rfl, rfl, rfl⟩ rfl rfl

theorem exec_effect_addv2 (rd : Reg) (imm : Word) (s : State) : ∃ t, exec (.addv2 rd imm) s = .next t ∧ Effect (.addv2 rd imm) s t :=
  effect_aluRI rfl rfl rfl ⟨rfl, rfl, rfl, rfl⟩ rfl

theorem exec_effect_subv2 (rd : Reg) (imm : Word) (s : State) : ∃ t, exec (.subv2 rd imm) s = .next t ∧ Effect (.subv2 rd imm) s t :=
  effect_aluRI rfl rfl rfl ⟨rfl, rfl, rfl, rfl⟩ rfl

theorem exec_effect_add4 (rd : Reg) (rs : Reg) (s : State) : ∃ t, exec (.add4 rd rs) s = .next t ∧ Effect (.add4 rd rs) s t :=
  effect_aluRR rfl rfl rfl ⟨rfl, rfl, rfl, rfl⟩ rfl

theorem exec_effect_sub4 (rd : Reg) (rs : Reg) (s : State) : ∃ t, exec (.sub4 rd rs) s = .next t ∧ Effect (.sub4 rd rs) s t :=
  effect_aluRR rfl rfl rfl ⟨rfl, rfl, rfl, rfl⟩ rfl

theorem exec_effect_mul4 (rd : Reg) (rs : Reg) (s : State) : ∃ t, exec (.mul4 rd rs) s = .next t ∧ Effect (.mul4 rd rs) s t :=
  effect_aluRR rfl rfl rfl ⟨rfl, rfl, rfl, rfl⟩ rfl

theorem exec_effect_muls4 (rd : Reg) (rs : Reg) (s : State) : ∃ t, exec (.muls4 rd rs) s = .next t ∧ Effect (.muls4 rd rs) s t :=
  effect_aluRR rfl rfl rfl ⟨rfl, rfl, rfl, rfl⟩ rfl

theorem exec_effect_div4 (rd : Reg) (rs : Reg) (s : State) : ∃ t, exec (.div4 rd rs) s = .next t ∧ Effect (.div4 rd rs) s t :=
  effect_divRR rfl rfl rfl ⟨rfl, rfl, rfl, rfl⟩ rfl rfl

theorem exec_effect_addv4 (rd : Reg) (imm : Word) (s : State) : ∃ t, exec (.addv4 rd imm) s = .next t ∧ Effect (.addv4 rd imm) s t :=
  effect_aluRI rfl rfl rfl ⟨rfl, rfl, rfl, rfl⟩ rfl

theorem exec_effect_subv4 (rd : Reg) (imm : Word) (s : State) : ∃ t, exec (.subv4 rd imm) s = .next t ∧ Effect (.subv4 rd imm) s t :=
  effect_aluRI rfl rfl rfl ⟨rfl, rfl, rfl, rfl⟩ rfl

theorem exec_effect_add8 (rd : Reg) (rs : Reg) (s : State) : ∃ t, exec (.add8 rd rs) s = .next t ∧ Effect (.add8 rd rs) s t :=
  effect_aluRR rfl rfl rfl ⟨rfl, rfl, rfl, rfl⟩ rfl

theorem exec_effect_sub8 (rd : Reg) (rs : Reg) (s : State) : ∃ t, exec (.sub8 rd rs) s = .next t ∧ Effect (.sub8 rd rs) s t :=
  effect_aluRR rfl rfl rfl ⟨rfl, rfl, rfl, rfl⟩ rfl

theorem exec_effect_mul8 (rd : Reg) (rs : Reg) (s : State) : ∃ t, exec (.mul8 rd rs) s = .next t ∧ Effect (.mul8 rd rs) s t :=
  effect_aluRR rfl rfl rfl ⟨rfl, rfl, rfl, rfl⟩ rfl

theorem exec_effect_muls8 (rd : Reg) (rs : Reg) (s : State) : ∃ t, exec (.muls8 rd rs) s = .next t ∧ Effect (.muls8 rd rs) s t :=
  effect_aluRR rfl rfl rfl ⟨rfl, rfl, rfl, rfl⟩ rfl

theorem exec_effect_div8 (rd : Reg) (rs : Reg) (s : State) : ∃ t, exec (.div8 rd rs) s = .next t ∧ Effect (.div8 rd rs) s t :=
  effect_divRR rfl rfl rfl ⟨rfl, rfl, rfl, rfl⟩ rfl rfl

theorem exec_effect_addv8 (rd : Reg) (imm : Word) (s : State) : ∃ t, exec (.addv8 rd imm) s = .next t ∧ Effect (.addv8 rd imm) s t :=
  effect_aluRI rfl rfl rfl ⟨rfl, rfl, rfl, rfl⟩ rfl

theorem exec_effect_subv8 (rd : Reg) (imm : Word) (s : State) : ∃ t, exec (.subv8 rd imm) s = .next t ∧ Effect (.subv8 rd imm) s t :=
  effect_aluRI rfl rfl rfl ⟨rfl, rfl, rfl, rfl⟩ rfl

theorem exec_effect_mov1 (rd : Reg) (rs : Reg) (s : State) : ∃ t, exec (.mov1 rd rs) s = .next t ∧ Effect (.mov1 rd rs) s t :=
  effect_move rfl rfl rfl ⟨rfl, rfl, rfl, rfl⟩ rfl

theorem exec_effect_mov2 (rd : Reg) (rs : Reg) (s : State) : ∃ t, exec (.mov2 rd rs) s = .next t ∧ Effect (.mov2 rd rs) s t :=
  effect_move rfl rfl rfl ⟨rfl, rfl, rfl, rfl⟩ rfl

theorem exec_effect_mov4 (rd : Reg) (rs : Reg) (s : State) : ∃ t, exec (.mov4 rd rs) s = .next t ∧ Effect (.mov4 rd rs) s t :=
  effect_move rfl rfl rfl ⟨rfl, rfl, rfl, rfl⟩ rfl

theorem exec_effect_mov8 (rd : Reg) (rs : Reg) (s : State) : ∃ t, exec (.mov8 rd rs) s = .next t ∧ Effect (.mov8 rd rs) s t :=
  effect_move rfl rfl rfl ⟨rfl, rfl, rfl, rfl⟩ rfl

theorem exec_effect_movv1 (rd : Reg) (imm : Word) (s : State) : ∃ t, exec (.movv1 rd imm) s = .next t ∧ Effect (.movv1 rd imm) s t :=
  effect_move rfl rfl rfl ⟨rfl, rfl, rfl, rfl⟩ rfl

theorem exec_effect_movv2 (rd : Reg) (imm : Word) (s : State) : ∃ t, exec (.movv2 rd imm) s = .next t ∧ Effect (.movv2 rd imm) s t :=
  effect_move rfl rfl rfl ⟨rfl, rfl, rfl, rfl⟩ rfl

theorem exec_effect_movv4 (rd : Reg) (imm : Word) (s : State) : ∃ t, exec (.movv4 rd imm) s = .next t ∧ Effect (.movv4 rd imm) s t :=
  effect_move rfl rfl rfl ⟨rfl, rfl, rfl, rfl⟩ rfl

theorem exec_effect_movv8 (rd : Reg) (imm : Word) (s : State) : ∃ t, exec (.movv8 rd imm) s = .next t ∧ Effect (.movv8 rd imm) s t :=
  effect_move rfl rfl rfl ⟨rfl, rfl, rfl, rfl⟩ rfl

theorem exec_effect_load1 (rd : Reg) (imm : Word) (s : State) : ∃ t, exec (.load1 rd imm) s = .next t ∧ Effect (.load1 rd imm) s t :=
  effect_load rfl rfl rfl rfl rfl rfl rfl rfl

theorem exec_effect_load2 (rd : Reg) (imm : Word) (s : State) : ∃ t, exec (.load2 rd imm) s = .next t ∧ Effect (.load2 rd imm) s t :=
  effect_load rfl rfl rfl rfl rfl rfl rfl rfl

theorem exec_effect_load4 (rd : Reg) (imm : Word) (s : State) : ∃ t, exec (.load4 rd imm) s = .next t ∧ Effect (.load4 rd imm) s t :=
  effect_load rfl rfl rfl rfl rfl rfl rfl rfl

theorem exec_effect_load8 (rd : Reg) (imm : Word) (s : State) : ∃ t, exec (.load8 rd imm) s = .next t ∧ Effect (.load8 rd imm) s t :=
  effect_load rfl rfl rfl rfl rfl rfl rfl rfl

theorem exec_effect_loadr1 (rd : Reg) (rs : Reg) (s : State) : ∃ t, exec (.loadr1 rd rs) s = .next t ∧ Effect (.loadr1 rd rs) s t :=
  effect_load rfl rfl rfl rfl rfl rfl rfl rfl

theorem exec_effect_loadr2 (rd : Reg) (rs : Reg) (s : State) : ∃ t, exec (.loadr2 rd rs) s = .next t ∧ Effect (.loadr2 rd rs) s t :=
  effect_load rfl rfl rfl rfl rfl rfl rfl rfl

theorem exec_effect_loadr4 (rd : Reg) (rs : Reg) (s : State) : ∃ t, exec (.loadr4 rd rs) s = .next t ∧ Effect (.loadr4 rd rs) s t :=
  effect_load rfl rfl rfl rfl rfl rfl rfl rfl

theorem exec_effect_loadr8 (rd : Reg) (rs : Reg) (s : State) : ∃ t, exec (.loadr8 rd rs) s = .next t ∧ Effect (.loadr8 rd rs) s t :=
  effect_load rfl rfl rfl rfl rfl rfl rfl rfl

theorem exec_effect_store1 (rd : Reg) (imm : Word) (s : State) : ∃ t, exec (.store1 rd imm) s = .next t ∧ Effect (.store1 rd imm) s t :=
  effect_store rfl rfl rfl rfl rfl rfl

theorem exec_effect_store2 (rd : Reg) (imm : Word) (s : State) : ∃ t, exec (.store2 rd imm) s = .next t ∧ Effect (.store2 rd imm) s t :=
  effect_store rfl rfl rfl rfl rfl rfl

theorem exec_effect_store4 (rd : Reg) (imm : Word) (s : State) : ∃ t, exec (.store4 rd imm) s = .next t ∧ Effect (.store4 rd imm) s t :=
  effect_store rfl rfl rfl rfl rfl rfl

theorem exec_effect_store8 (rd : Reg) (imm : Word) (s : State) : ∃ t, exec (.store8 rd imm) s = .next t ∧ Effect (.store8 rd imm) s t :=
  effect_store rfl rfl rfl rfl rfl rfl

theorem exec_effect_storer1 (rd : Reg) (rs : Reg) (s : State) : ∃ t, exec (.storer1 rd rs) s = .next t ∧ Effect (.storer1 rd rs) s t :=
  effect_store rfl rfl rfl rfl rfl rfl

theorem exec_effect_storer2 (rd : Reg) (rs : Reg) (s : State) : ∃ t, exec (.storer2 rd rs) s = .next t ∧ Effect (.storer2 rd rs) s t :=
  effect_store rfl rfl rfl rfl rfl rfl

theorem exec_effect_storer4 (rd : Reg) (rs : Reg) (s : State) : ∃ t, exec (.storer4 rd rs) s = .next t ∧ Effect (.storer4 rd rs) s t :=
  effect_store rfl rfl rfl rfl rfl rfl

theorem exec_effect_storer8 (rd : Reg) (rs : Reg) (s : State) : ∃ t, exec (.storer8 rd rs) s = .next t ∧ Effect (.storer8 rd rs) s t :=
  effect_store rfl rfl rfl rfl rfl rfl

theorem exec_effect_fadd4 (rd : Reg) (rs : Reg) (s : State) : ∃ t, exec (.fadd4 rd rs) s = .next t ∧ Effect (.fadd4 rd rs) s t :=
  effect_aluRR rfl rfl rfl ⟨rfl, rfl, rfl, rfl⟩ rfl

theorem exec_effect_fsub4 (rd : Reg) (rs : Reg) (s : State) : ∃ t, exec (.fsub4 rd rs) s = .next t ∧ Effect (.fsub4 rd rs) s t :=
  effect_aluRR rfl rfl rfl ⟨rfl, rfl, rfl, rfl⟩ rfl

theorem exec_effect_fmul4 (rd : Reg) (rs : Reg) (s : State) : ∃ t, exec (.fmul4 rd rs) s = .next t ∧ Effect (.fmul4 rd rs) s t :=
  effect_aluRR rfl rfl rfl ⟨rfl, rfl, rfl, rfl⟩ rfl

theorem exec_effect_fdiv4 (rd : Reg) (rs : Reg) (s : State) : ∃ t, exec (.fdiv4 rd rs) s = .next t ∧ Effect (.fdiv4 rd rs) s t :=
  effect_aluRR rfl rfl rfl ⟨rfl, rfl, rfl, rfl⟩ rfl

theorem exec_effect_fadd8 (rd : Reg) (rs : Reg) (s : State) : ∃ t, exec (.fadd8 rd rs) s = .next t ∧ Effect (.fadd8 rd rs) s t :=
  effect_aluRR rfl rfl rfl ⟨rfl, rfl, rfl, rfl⟩ rfl

theorem exec_effect_fsub8 (rd : Reg) (rs : Reg) (s : State) : ∃ t, exec (.fsub8 rd rs) s = .next t ∧ Effect (.fsub8 rd rs) s t :=
  effect_aluRR rfl rfl rfl ⟨rfl, rfl, rfl, rfl⟩ rfl

theorem exec_effect_fmul8 (rd : Reg) (rs : Reg) (s : State) : ∃ t, exec (.fmul8 rd rs) s = .next t ∧ Effect (.fmul8 rd rs) s t :=
  effect_aluRR rfl rfl rfl ⟨rfl, rfl, rfl, rfl⟩ rfl

theorem exec_effect_fdiv8 (rd : Reg) (rs : Reg) (s : State) : ∃ t, exec (.fdiv8 rd rs) s = .next t ∧ Effect (.fdiv8 rd rs) s t :=
  effect_aluRR rfl rfl rfl ⟨rfl, rfl, rfl, rfl⟩ rfl

theorem exec_effect_fsqrt4 (rd : Reg) (s : State) : ∃ t, exec (.fsqrt4 rd) s = .next t ∧ Effect (.fsqrt4 rd) s t :=
  effect_aluR rfl rfl rfl ⟨rfl, rfl, rfl, rfl⟩ rfl

theorem exec_effect_fsqrt8 (rd : Reg) (s : State) : ∃ t, exec (.fsqrt8 rd) s = .next t ∧ Effect (.fsqrt8 rd) s t :=
  effect_aluR rfl rfl rfl ⟨rfl, rfl, rfl, rfl⟩ rfl

theorem exec_effect_fsin4 (rd : Reg) (s : State) : ∃ t, exec (.fsin4 rd) s = .next t ∧ Effect (.fsin4 rd) s t :=
  effect_aluR rfl rfl rfl ⟨rfl, rfl, rfl, rfl⟩ rfl

theorem exec_effect_fcos4 (rd : Reg) (s : State) : ∃ t, exec (.fcos4 rd) s = .next t ∧ Effect (.fcos4 rd) s t :=
  effect_aluR rfl rfl rfl ⟨rfl, rfl, rfl, rfl⟩ rfl

theorem exec_effect_fsin8 (rd : Reg) (s : State) : ∃ t, exec (.fsin8 rd) s = .next t ∧ Effect (.fsin8 rd) s t :=
  effect_aluR rfl rfl rfl ⟨rfl, rfl, rfl, rfl⟩ rfl

theorem exec_effect_fcos8 (rd : Reg) (s : State) : ∃ t, exec (.fcos8 rd) s = .next t ∧ Effect (.fcos8 rd) s t :=
  effect_aluR rfl rfl rfl ⟨rfl, rfl, rfl, rfl⟩ rfl

theorem exec_effect_intfloat4 (rd : Reg) (s : State) : ∃ t, exec (.intfloat4 rd) s = .next t ∧ Effect (.intfloat4 rd) s t :=
  effect_aluR rfl rfl rfl ⟨rfl, rfl, rfl, rfl⟩ rfl

theorem exec_effect_intfloat8 (rd : Reg) (s : State) : ∃ t, exec (.intfloat8 rd) s = .next t ∧ Effect (.intfloat8 rd) s t :=
  effect_aluR rfl rfl rfl ⟨rfl, rfl, rfl, rfl⟩ rfl

theorem exec_effect_ret (s : State) : ∃ t, exec .ret s = .next t ∧ Effect .ret s t :=
  effect_ret rfl rfl rfl rfl rfl rfl

theorem exec_effect_pop1 (rd : Reg) (s : State) : ∃ t, exec (.pop1 rd) s = .next t ∧ Effect (.pop1 rd) s t :=
  effect_pop rfl rfl rfl rfl rfl rfl rfl

theorem exec_effect_pop2 (rd : Reg) (s : State) : ∃ t, exec (.pop2 rd) s = .next t ∧ Effect (.pop2 rd) s t :=
  effect_pop rfl rfl rfl rfl rfl rfl rfl

theorem exec_effect_pop4 (rd : Reg) (s : State) : ∃ t, exec (.pop4 rd) s = .next t ∧ Effect (.pop4 rd) s t :=
  effect_pop rfl rfl rfl rfl rfl rfl rfl

theorem exec_effect_pop8 (rd : Reg) (s : State) : ∃ t, exec (.pop8 rd) s = .next t ∧ Effect (.pop8 rd) s t :=
  effect_pop rfl rfl rfl rfl rfl rfl rfl

theorem exec_effect_push1 (rd : Reg) (s : State) : ∃ t, exec (.push1 rd) s = .next t ∧ Effect (.push1 rd) s t :=
  effect_push rfl rfl rfl rfl rfl rfl

theorem exec_effect_push2 (rd : Reg) (s : State) : ∃ t, exec (.push2 rd) s = .next t ∧ Effect (.push2 rd) s t :=
  effect_push rfl rfl rfl rfl rfl rfl

theorem exec_effect_push4 (rd : Reg) (s : State) : ∃ t, exec (.push4 rd) s = .next t ∧ Effect (.push4 rd) s t :=
  effect_push rfl rfl rfl rfl rfl rfl

theorem exec_effect_push8 (rd : Reg) (s : State) : ∃ t, exec (.push8 rd) s = .next t ∧ Effect (.push8 rd) s t :=
  effect_push rfl rfl rfl rfl rfl rfl

theorem exec_effect_cmp1 (rd : Reg) (rs : Reg) (s : State) : ∃ t, exec (.cmp1 rd rs) s = .next t ∧ Effect (.cmp1 rd rs) s t :=
  effect_compare rfl rfl ⟨rfl, rfl, rfl, rfl⟩ rfl

theorem exec_effect_cmp2 (rd : Reg) (rs : Reg) (s : State) : ∃ t, exec (.cmp2 rd rs) s = .next t ∧ Effect (.cmp2 rd rs) s t :=
  effect_compare rfl rfl ⟨rfl, rfl, rfl, rfl⟩ rfl

theorem exec_effect_cmp4 (rd : Reg) (rs : Reg) (s : State) : ∃ t, exec (.cmp4 rd rs) s = .next t ∧ Effect (.cmp4 rd rs) s t :=
  effect_compare rfl rfl ⟨rfl, rfl, rfl, rfl⟩ rfl

theorem exec_effect_cmp8 (rd : Reg) (rs : Reg) (s : State) : ∃ t, exec (.cmp8 rd rs) s = .next t ∧ Effect (.cmp8 rd rs) s t :=
  effect_compare rfl rfl ⟨rfl, rfl, rfl, rfl⟩ rfl

theorem exec_effect_cmpv1 (rd : Reg) (imm : Word) (s : State) : ∃ t, exec (.cmpv1 rd imm) s = .next t ∧ Effect (.cmpv1 rd imm) s t :=
  effect_compare rfl rfl ⟨rfl, rfl, rfl, rfl⟩ rfl

theorem exec_effect_cmpv2 (rd : Reg) (imm : Word) (s : State) : ∃ t, exec (.cmpv2 rd imm) s = .next t ∧ Effect (.cmpv2 rd imm) s t :=
  effect_compare rfl rfl ⟨rfl, rfl, rfl, rfl⟩ rfl

theorem exec_effect_cmpv4 (rd : Reg) (imm : Word) (s : State) : ∃ t, exec (.cmpv4 rd imm) s = .next t ∧ Effect (.cmpv4 rd imm) s t :=
  effect_compare rfl rfl ⟨rfl, rfl, rfl, rfl⟩ rfl

theorem exec_effect_cmpv8 (rd : Reg) (imm : Word) (s : State) : ∃ t, exec (.cmpv8 rd imm) s = .next t ∧ Effect (.cmpv8 rd imm) s t :=
  effect_compare rfl rfl ⟨rfl, rfl, rfl, rfl⟩ rfl

/-- Whatever the instruction and the state, `exec` answers a next state of one of the shapes: it never refuses and never
answers a fault outcome. -/
theorem exec_effect (i : Instr) (s : State) : ∃ t, exec i s = .next t ∧ Effect i s t := by
  cases i with
  | parar => exact exec_effect_parar s
  | nop => exact exec_effect_nop s
  | add rd rs => exact exec_effect_add rd rs s
  | sub rd rs => exact exec_effect_sub rd rs s
  | muls rd rs => exact exec_effect_muls rd rs s
  | mul rd rs => exact exec_effect_mul rd rs s
  | div rd rs => exact exec_effect_div rd rs s
  | addv rd imm => exact exec_effect_addv rd imm s
  | subv rd imm => exact exec_effect_subv rd imm s
  | inc rd => exact exec_effect_inc rd s
  | dec rd => exact exec_effect_dec rd s
  | clr rd => exact exec_effect_clr rd s
  | not rd => exact exec_effect_not rd s
  | and rd rs => exact exec_effect_and rd rs s
  | andv rd imm => exact exec_effect_andv rd imm s
  | or rd rs => exact exec_effect_or rd rs s
  | orv rd imm => exact exec_effect_orv rd imm s
  | xor rd rs => exact exec_effect_xor rd rs s
  | xorv rd imm => exact exec_effect_xorv rd imm s
  | shi rd => exact exec_effect_shi rd s
  | shd rd => exact exec_effect_shd rd s
  | ushi rd => exact exec_effect_ushi rd s
  | ushd rd => exact exec_effect_ushd rd s
  | load rd imm => exact exec_effect_load rd imm s
  | loadv rd imm => exact exec_effect_loadv rd imm s
  | loadr rd rs => exact exec_effect_loadr rd rs s
  | storev rd imm => exact exec_effect_storev rd imm s
  | cmp rd rs => exact exec_effect_cmp rd rs s
  | cmpv rd imm => exact exec_effect_cmpv rd imm s
  | clrZ => exact exec_effect_clrZ s
  | setZ => exact exec_effect_setZ s
  | clrN => exact exec_effect_clrN s
  | setN => exact exec_effect_setN s
  | clrC => exact exec_effect_clrC s
  | setC => exact exec_effect_setC s
  | clrV => exact exec_effect_clrV s
  | setV => exact exec_effect_setV s
  | jmp imm => exact exec_effect_jmp imm s
  | jeq imm => exact exec_effect_jeq imm s
  | jne imm => exact exec_effect_jne imm s
  | jn imm => exact exec_effect_jn imm s
  | jnn imm => exact exec_effect_jnn imm s
  | jc imm => exact exec_effect_jc imm s
  | jnc imm => exact exec_effect_jnc imm s
  | jlt imm => exact exec_effect_jlt imm s
  | jge imm => exact exec_effect_jge imm s
  | call imm => exact exec_effect_call imm s
  | svio rd imm => exact exec_effect_svio rd imm s
  | loadio rd imm => exact exec_effect_loadio rd imm s
  | showio imm => exact exec_effect_showio imm s
  | reserved00A3 low => exact exec_effect_reserved00A3 low s
  | reserved00A4 low => exact exec_effect_reserved00A4 low s
  | add1 rd rs => exact exec_effect_add1 rd rs s
  | sub1 rd rs => exact exec_effect_sub1 rd rs s
  | mul1 rd rs => exact exec_effect_mul1 rd rs s
  | muls1 rd rs => exact exec_effect_muls1 rd rs s
  | div1 rd rs => exact exec_effect_div1 rd rs s
  | addv1 rd imm => exact exec_effect_addv1 rd imm s
  | subv1 rd imm => exact exec_effect_subv1 rd imm s
  | add2 rd rs => exact exec_effect_add2 rd rs s
  | sub2 rd rs => exact exec_effect_sub2 rd rs s
  | mul2 rd rs => exact exec_effect_mul2 rd rs s
  | muls2 rd rs => exact exec_effect_muls2 rd rs s
  | div2 rd rs => exact exec_effect_div2 rd rs s
  | addv2 rd imm => exact exec_effect_addv2 rd imm s
  | subv2 rd imm => exact exec_effect_subv2 rd imm s
  | add4 rd rs => exact exec_effect_add4 rd rs s
  | sub4 rd rs => exact exec_effect_sub4 rd rs s
  | mul4 rd rs => exact exec_effect_mul4 rd rs s
  | muls4 rd rs => exact exec_effect_muls4 rd rs s
  | div4 rd rs => exact exec_effect_div4 rd rs s
  | addv4 rd imm => exact exec_effect_addv4 rd imm s
  | subv4 rd imm => exact exec_effect_subv4 rd imm s
  | add8 rd rs => exact exec_effect_add8 rd rs s
  | sub8 rd rs => exact exec_effect_sub8 rd rs s
  | mul8 rd rs => exact exec_effect_mul8 rd rs s
  | muls8 rd rs => exact exec_effect_muls8 rd rs s
  | div8 rd rs => exact exec_effect_div8 rd rs s
  | addv8 rd imm => exact exec_effect_addv8 rd imm s
  | subv8 rd imm => exact exec_effect_subv8 rd imm s
  | mov1 rd rs => exact exec_effect_mov1 rd rs s
  | mov2 rd rs => exact exec_effect_mov2 rd rs s
  | mov4 rd rs => exact exec_effect_mov4 rd rs s
  | mov8 rd rs => exact exec_effect_mov8 rd rs s
  | movv1 rd imm => exact exec_effect_movv1 rd imm s
  | movv2 rd imm => exact exec_effect_movv2 rd imm s
  | movv4 rd imm => exact exec_effect_movv4 rd imm s
  | movv8 rd imm => exact exec_effect_movv8 rd imm s
  | load1 rd imm => exact exec_effect_load1 rd imm s
  | load2 rd imm => exact exec_effect_load2 rd imm s
  | load4 rd imm => exact exec_effect_load4 rd imm s
  | load8 rd imm => exact exec_effect_load8 rd imm s
  | loadr1 rd rs => exact exec_effect_loadr1 rd rs s
  | loadr2 rd rs => exact exec_effect_loadr2 rd rs s
  | loadr4 rd rs => exact exec_effect_loadr4 rd rs s
  | loadr8 rd rs => exact exec_effect_loadr8 rd rs s
  | store1 rd imm => exact exec_effect_store1 rd imm s
  | store2 rd imm => exact exec_effect_store2 rd imm s
  | store4 rd imm => exact exec_effect_store4 rd imm s
  | store8 rd imm => exact exec_effect_store8 rd imm s
  | storer1 rd rs => exact exec_effect_storer1 rd rs s
  | storer2 rd rs => exact exec_effect_storer2 rd rs s
  | storer4 rd rs => exact exec_effect_storer4 rd rs s
  | storer8 rd rs => exact exec_effect_storer8 rd rs s
  | fadd4 rd rs => exact exec_effect_fadd4 rd rs s
  | fsub4 rd rs => exact exec_effect_fsub4 rd rs s
  | fmul4 rd rs => exact exec_effect_fmul4 rd rs s
  | fdiv4 rd rs => exact exec_effect_fdiv4 rd rs s
  | fadd8 rd rs => exact exec_effect_fadd8 rd rs s
  | fsub8 rd rs => exact exec_effect_fsub8 rd rs s
  | fmul8 rd rs => exact exec_effect_fmul8 rd rs s
  | fdiv8 rd rs => exact exec_effect_fdiv8 rd rs s
  | fsqrt4 rd => exact exec_effect_fsqrt4 rd s
  | fsqrt8 rd => exact exec_effect_fsqrt8 rd s
  | fsin4 rd => exact exec_effect_fsin4 rd s
  | fcos4 rd => exact exec_effect_fcos4 rd s
  | fsin8 rd => exact exec_effect_fsin8 rd s
  | fcos8 rd => exact exec_effect_fcos8 rd s
  | intfloat4 rd => exact exec_effect_intfloat4 rd s
  | intfloat8 rd => exact exec_effect_intfloat8 rd s
  | ret => exact exec_effect_ret s
  | pop1 rd => exact exec_effect_pop1 rd s
  | pop2 rd => exact exec_effect_pop2 rd s
  | pop4 rd => exact exec_effect_pop4 rd s
  | pop8 rd => exact exec_effect_pop8 rd s
  | push1 rd => exact exec_effect_push1 rd s
  | push2 rd => exact exec_effect_push2 rd s
  | push4 rd => exact exec_effect_push4 rd s
  | push8 rd => exact exec_effect_push8 rd s
  | cmp1 rd rs => exact exec_effect_cmp1 rd rs s
  | cmp2 rd rs => exact exec_effect_cmp2 rd rs s
  | cmp4 rd rs => exact exec_effect_cmp4 rd rs s
  | cmp8 rd rs => exact exec_effect_cmp8 rd rs s
  | cmpv1 rd imm => exact exec_effect_cmpv1 rd imm s
  | cmpv2 rd imm => exact exec_effect_cmpv2 rd imm s
  | cmpv4 rd imm => exact exec_effect_cmpv4 rd imm s
  | cmpv8 rd imm => exact exec_effect_cmpv8 rd imm s

/-- The shape of the state an instruction leads to. -/
theorem effect_of_exec {i : Instr} {s t : State} (h : exec i s = .next t) : Effect i s t := by
  obtain ⟨u, hu, he⟩ := exec_effect i s
  rw [h] at hu
  cases hu
  exact he

end Sys2Proof.Machine
end

