-- ==== Sys2Proof/Machine/FpIeee.lean ====
section
/-! DEFINITION. One instance of the floating-point record, the intended reading of spec/47_fpu.md R291: IEEE 754 binary32 and
binary64, rounded to nearest, ties to even. PRESUMED by the spec itself ("from general knowledge, not in source"), so the
machine is not built on it: `Config.fp` stays uninterpreted, and a claim that wants this reading takes `Config.fp = Fp.ieee o`
as a premise (notes/assumptions/28.md). -/

namespace Sys2Proof.Machine

/-- A binary format: one sign bit, `expBits` exponent bits, `fracBits` fraction bits (47_fpu.md R291). -/
structure FloatFormat where
  expBits : Nat
  fracBits : Nat
deriving DecidableEq, Repr

/-- binary32: 8 exponent bits 30:23, 23 fraction bits 22:0 (47_fpu.md R291). -/
def binary32 : FloatFormat := ⟨8, 23⟩

/-- binary64: exponent 62:52, fraction 51:0 (47_fpu.md R291). -/
def binary64 : FloatFormat := ⟨11, 52⟩

/-- What a bit pattern stands for; `finite neg m e` is `m * 2^e`, negated if `neg`. -/
inductive FloatValue where
  | nan
  | infinite (neg : Bool)
  | finite (neg : Bool) (m : Nat) (e : Int)
deriving DecidableEq, Repr

/-- The exponent of the last place of the smallest numbers of a format. -/
def FloatFormat.minExp (f : FloatFormat) : Int := 2 - 2 ^ (f.expBits - 1) - f.fracBits

/-- The bit pattern of infinity, sign apart. -/
def FloatFormat.infCode (f : FloatFormat) : Nat := (2 ^ f.expBits - 1) * 2 ^ f.fracBits

/-- The value of a bit pattern. -/
def unpackFloat (f : FloatFormat) (x : Nat) : FloatValue :=
  let neg := x / 2 ^ (f.expBits + f.fracBits) % 2 == 1
  let ex := x / 2 ^ f.fracBits % 2 ^ f.expBits
  let frac := x % 2 ^ f.fracBits
  if ex = 2 ^ f.expBits - 1 then if frac = 0 then .infinite neg else .nan
  else if ex = 0 then .finite neg frac f.minExp
  else .finite neg (2 ^ f.fracBits + frac) (f.minExp + (ex - 1 : Nat))

/-- A sign and the code of a magnitude as a bit pattern. -/
def packFloat (f : FloatFormat) (neg : Bool) (code : Nat) : Nat :=
  (if neg then 2 ^ (f.expBits + f.fracBits) else 0) + code

/-- `n / d * 2^k` as a fraction of natural numbers. -/
def scaleFraction (n d : Nat) (k : Int) : Nat × Nat := (n * 2 ^ k.toNat, d * 2 ^ (-k).toNat)

/-- The floor of the binary logarithm of `n / d`, for positive `n` and `d`. -/
def log2Fraction (n d : Nat) : Int :=
  let k : Int := Nat.log2 n - Nat.log2 d
  if n * 2 ^ (-k).toNat < d * 2 ^ k.toNat then k - 1 else k

/-- `n / d` rounded to the nearest natural number, ties to even. -/
def roundFraction (n d : Nat) : Nat :=
  let q := n / d
  let r := n % d
  if d < 2 * r ∨ (2 * r = d ∧ q % 2 = 1) then q + 1 else q

/-- The bit pattern of `n / d * 2^e` with the given sign, rounded to nearest, ties to even; a magnitude too large is infinite. -/
def roundFloat (f : FloatFormat) (neg : Bool) (n d : Nat) (e : Int) : Nat :=
  if n = 0 then packFloat f neg 0
  else
    let last := max f.minExp (log2Fraction n d + e - f.fracBits)
    let nd := scaleFraction n d (e - last)
    let code := (last - f.minExp).toNat * 2 ^ f.fracBits + roundFraction nd.1 nd.2
    packFloat f neg (min code f.infCode)

/-- The largest `r` below `start + 2^fuel` reached bit by bit with `r * r <= n`. -/
def sqrtBits : Nat → Nat → Nat → Nat
  | 0, _, r => r
  | fuel + 1, n, r => if (r + 2 ^ fuel) * (r + 2 ^ fuel) ≤ n then sqrtBits fuel n (r + 2 ^ fuel) else sqrtBits fuel n r

/-- The floor of the square root. -/
def floorSqrt (n : Nat) : Nat := sqrtBits (Nat.log2 n / 2 + 1) n 0

/-- Addition; `nan` is the pattern to give where the result is not a number. -/
def addFloat (f : FloatFormat) (nan : Nat) (a b : FloatValue) : Nat :=
  match a, b with
  | .nan, _ => nan
  | _, .nan => nan
  | .infinite x, .infinite y => if x = y then packFloat f x f.infCode else nan
  | .infinite x, .finite _ _ _ => packFloat f x f.infCode
  | .finite _ _ _, .infinite y => packFloat f y f.infCode
  | .finite x m e, .finite y n k =>
    let low := min e k
    let p : Int := (if x then -1 else 1) * (m * 2 ^ (e - low).toNat)
    let q : Int := (if y then -1 else 1) * (n * 2 ^ (k - low).toNat)
    if p + q = 0 then packFloat f (x && y) 0 else roundFloat f (decide (p + q < 0)) (p + q).natAbs 1 low

/-- The value with the other sign. -/
def negFloat : FloatValue → FloatValue
  | .nan => .nan
  | .infinite x => .infinite (!x)
  | .finite x m e => .finite (!x) m e

/-- Multiplication. -/
def mulFloat (f : FloatFormat) (nan : Nat) (a b : FloatValue) : Nat :=
  match a, b with
  | .nan, _ => nan
  | _, .nan => nan
  | .infinite x, .infinite y => packFloat f (x ^^ y) f.infCode
  | .infinite x, .finite y m _ => if m = 0 then nan else packFloat f (x ^^ y) f.infCode
  | .finite x m _, .infinite y => if m = 0 then nan else packFloat f (x ^^ y) f.infCode
  | .finite x m e, .finite y n k => roundFloat f (x ^^ y) (m * n) 1 (e + k)

/-- Division. -/
def divFloat (f : FloatFormat) (nan : Nat) (a b : FloatValue) : Nat :=
  match a, b with
  | .nan, _ => nan
  | _, .nan => nan
  | .infinite _, .infinite _ => nan
  | .infinite x, .finite y _ _ => packFloat f (x ^^ y) f.infCode
  | .finite x _ _, .infinite y => packFloat f (x ^^ y) 0
  | .finite x m e, .finite y n k =>
    if n = 0 then if m = 0 then nan else packFloat f (x ^^ y) f.infCode
    else roundFloat f (x ^^ y) m n (e - k)

/-- Square root: of the integer root of a value widened so far that one more bit, set when the root is not exact, decides every
rounding. -/
def sqrtFloat (f : FloatFormat) (nan : Nat) (a : FloatValue) : Nat :=
  match a with
  | .nan => nan
  | .infinite x => if x then nan else packFloat f x f.infCode
  | .finite x m e =>
    if m = 0 then packFloat f x 0
    else if x then nan
    else
      let wide := (if e % 2 = 0 then m else 2 * m) * 2 ^ (2 * (f.fracBits + 2))
      let root := floorSqrt wide
      let sticky := if root * root = wide then 0 else 1
      roundFloat f false (2 * root + sticky) 2 (e / 2 - (f.fracBits + 2))

/-- Conversion of a signed integer. -/
def intToFloat (f : FloatFormat) (x : Int) : Nat := roundFloat f (decide (x < 0)) x.natAbs 1 0

/-- The fraction of a pattern that is not a number: that of `payload`, or its top bit alone where that is 0. -/
def nanFraction (f : FloatFormat) (payload : Nat) : Nat :=
  if payload % 2 ^ f.fracBits = 0 then 2 ^ (f.fracBits - 1) else payload % 2 ^ f.fracBits

/-- A pattern that is not a number: exponent all ones and a fraction that is not 0. The sign and the fraction are those of `payload`,
which the standard does not fix; every such pattern has a payload. -/
def nanFloat (f : FloatFormat) (payload : Nat) : Nat :=
  packFloat f (payload / 2 ^ (f.expBits + f.fracBits) % 2 == 1) (f.infCode + nanFraction f payload)

/-- The code of 1.0: the exponent bias over a fraction of 0. -/
def FloatFormat.oneCode (f : FloatFormat) : Nat := (2 ^ (f.expBits - 1) - 1) * 2 ^ f.fracBits

/-- The number in [-1, 1] that `value` picks: its sign, and the code of its magnitude, 1.0 where that is larger. -/
def unitFloat (f : FloatFormat) (value : Nat) : Nat :=
  packFloat f (value / 2 ^ (f.expBits + f.fracBits) % 2 == 1) (min (value % 2 ^ (f.expBits + f.fracBits)) f.oneCode)

/-- Sine or cosine as far as it is fixed: of a zero (of the given sign) it is `zero`, of any other finite operand a number in [-1, 1],
and of anything else not a number. `value` picks the number or the payload. -/
def trigFloat (f : FloatFormat) (zero : Bool → Nat) (value : Nat) (a : FloatValue) : Nat :=
  match a with
  | .finite neg m _ => if m = 0 then zero neg else unitFloat f value
  | .infinite _ => nanFloat f value
  | .nan => nanFloat f value

/-- Sine: of a zero, that zero (47_fpu.md R303, R305: of +0 it is +0). -/
def sinFloat (f : FloatFormat) (value : Nat) (a : FloatValue) : Nat := trigFloat f (fun neg => packFloat f neg 0) value a

/-- Cosine: of a zero, 1.0 (47_fpu.md R304, R306). -/
def cosFloat (f : FloatFormat) (value : Nat) (a : FloatValue) : Nat := trigFloat f (fun _ => packFloat f false f.oneCode) value a

/-- What IEEE 754 leaves open for this record (47_fpu.md R291), each operation for itself: the payload of a result that is not a number,
from the operands; and for sine and cosine of a finite operand other than 0 the number, whose accuracy no standard fixes (`trigFloat`;
a claim that wants an accuracy takes `Fp.TrigWithin`). -/
structure FloatOpen where
  nanAdd32 : BitVec 32 → BitVec 32 → BitVec 32
  nanSub32 : BitVec 32 → BitVec 32 → BitVec 32
  nanMul32 : BitVec 32 → BitVec 32 → BitVec 32
  nanDiv32 : BitVec 32 → BitVec 32 → BitVec 32
  nanSqrt32 : BitVec 32 → BitVec 32
  nanAdd64 : BitVec 64 → BitVec 64 → BitVec 64
  nanSub64 : BitVec 64 → BitVec 64 → BitVec 64
  nanMul64 : BitVec 64 → BitVec 64 → BitVec 64
  nanDiv64 : BitVec 64 → BitVec 64 → BitVec 64
  nanSqrt64 : BitVec 64 → BitVec 64
  sin32 : BitVec 32 → BitVec 32
  cos32 : BitVec 32 → BitVec 32
  sin64 : BitVec 64 → BitVec 64
  cos64 : BitVec 64 → BitVec 64

/-- The number a value is, if it is one. -/
def FloatValue.toRat : FloatValue → Option ℚ
  | .nan => none
  | .infinite _ => none
  | .finite neg m e => some ((if neg then -1 else 1) * m * 2 ^ e)

/-- On every finite operand, `op` gives a finite number that differs from the value of `g` by at most `within`. -/
def Approximates (f : FloatFormat) (g : ℝ → ℝ) (within : ℚ) {w : Nat} (op : BitVec w → BitVec w) : Prop :=
  ∀ (x : BitVec w) (q : ℚ), (unpackFloat f x.toNat).toRat = some q →
    ∃ r : ℚ, (unpackFloat f (op x).toNat).toRat = some r ∧ |(r : ℝ) - g q| ≤ within

end Sys2Proof.Machine

namespace Sys2Proof

open Sys2Proof.Machine

/-- The IEEE 754 instance of the record (47_fpu.md R291). -/
def Fp.ieee (o : FloatOpen) : Fp where
  add32 a b := BitVec.ofNat 32
    (addFloat binary32 (nanFloat binary32 (o.nanAdd32 a b).toNat) (unpackFloat binary32 a.toNat) (unpackFloat binary32 b.toNat))
  sub32 a b := BitVec.ofNat 32
    (addFloat binary32 (nanFloat binary32 (o.nanSub32 a b).toNat) (unpackFloat binary32 a.toNat) (negFloat (unpackFloat binary32 b.toNat)))
  mul32 a b := BitVec.ofNat 32
    (mulFloat binary32 (nanFloat binary32 (o.nanMul32 a b).toNat) (unpackFloat binary32 a.toNat) (unpackFloat binary32 b.toNat))
  div32 a b := BitVec.ofNat 32
    (divFloat binary32 (nanFloat binary32 (o.nanDiv32 a b).toNat) (unpackFloat binary32 a.toNat) (unpackFloat binary32 b.toNat))
  add64 a b := BitVec.ofNat 64
    (addFloat binary64 (nanFloat binary64 (o.nanAdd64 a b).toNat) (unpackFloat binary64 a.toNat) (unpackFloat binary64 b.toNat))
  sub64 a b := BitVec.ofNat 64
    (addFloat binary64 (nanFloat binary64 (o.nanSub64 a b).toNat) (unpackFloat binary64 a.toNat) (negFloat (unpackFloat binary64 b.toNat)))
  mul64 a b := BitVec.ofNat 64
    (mulFloat binary64 (nanFloat binary64 (o.nanMul64 a b).toNat) (unpackFloat binary64 a.toNat) (unpackFloat binary64 b.toNat))
  div64 a b := BitVec.ofNat 64
    (divFloat binary64 (nanFloat binary64 (o.nanDiv64 a b).toNat) (unpackFloat binary64 a.toNat) (unpackFloat binary64 b.toNat))
  sqrt32 a := BitVec.ofNat 32 (sqrtFloat binary32 (nanFloat binary32 (o.nanSqrt32 a).toNat) (unpackFloat binary32 a.toNat))
  sin32 a := BitVec.ofNat 32 (sinFloat binary32 (o.sin32 a).toNat (unpackFloat binary32 a.toNat))
  cos32 a := BitVec.ofNat 32 (cosFloat binary32 (o.cos32 a).toNat (unpackFloat binary32 a.toNat))
  intfloat32 a := BitVec.ofNat 32 (intToFloat binary32 a.toInt)
  sqrt64 a := BitVec.ofNat 64 (sqrtFloat binary64 (nanFloat binary64 (o.nanSqrt64 a).toNat) (unpackFloat binary64 a.toNat))
  sin64 a := BitVec.ofNat 64 (sinFloat binary64 (o.sin64 a).toNat (unpackFloat binary64 a.toNat))
  cos64 a := BitVec.ofNat 64 (cosFloat binary64 (o.cos64 a).toNat (unpackFloat binary64 a.toNat))
  intfloat64 a := BitVec.ofNat 64 (intToFloat binary64 a.toInt)

/-- Sine and cosine of an argument in radians, with this absolute accuracy (47_fpu.md R291, which fixes none). -/
def Fp.TrigWithin (fp : Fp) (within : ℚ) : Prop :=
  Approximates binary32 Real.sin within fp.sin32 ∧
    Approximates binary32 Real.cos within fp.cos32 ∧
    Approximates binary64 Real.sin within fp.sin64 ∧
    Approximates binary64 Real.cos within fp.cos64

end Sys2Proof
end

