-- ==== Sys2Proof/Laws/FpIeee.lean ====
section
/-! SUPPORT. The IEEE instance of the floating-point record (spec/47_fpu.md R291): what it writes where a result is not a number is not a
number, whatever the payload; its sines and cosines of finite operands are numbers in [-1, 1]. -/

namespace Sys2Proof.Machine

/-- The fraction of a pattern that is not a number is not 0 and fits its field. -/
theorem nanFraction_bounds (f : FloatFormat) (hf : 0 < f.fracBits) (payload : Nat) :
    0 < nanFraction f payload ∧ nanFraction f payload < 2 ^ f.fracBits := by
  have hhalf : 2 ^ f.fracBits = 2 * 2 ^ (f.fracBits - 1) := by
    rw [← Nat.pow_succ', Nat.succ_eq_add_one, Nat.sub_add_cancel hf]
  have hpos := Nat.two_pow_pos (f.fracBits - 1)
  have hmod := Nat.mod_lt payload (Nat.two_pow_pos f.fracBits)
  unfold nanFraction
  split <;> omega

/-- The payload chooses among the patterns that are not numbers, and among nothing else. -/
theorem unpackFloat_nanFloat (f : FloatFormat) (hf : 0 < f.fracBits) (payload : Nat) :
    unpackFloat f (nanFloat f payload) = .nan := by
  have hE : 0 < 2 ^ f.expBits := Nat.two_pow_pos _
  obtain ⟨hpos, hlt⟩ := nanFraction_bounds f hf payload
  obtain ⟨k, hk⟩ : ∃ k : Nat,
      nanFloat f payload = nanFraction f payload + 2 ^ f.fracBits * (2 ^ f.expBits - 1 + 2 ^ f.expBits * k) := by
    simp only [nanFloat, packFloat, FloatFormat.infCode]
    split
    · exact ⟨1, by rw [Nat.pow_add]; ring⟩
    · exact ⟨0, by ring⟩
  have hexp : nanFloat f payload / 2 ^ f.fracBits % 2 ^ f.expBits = 2 ^ f.expBits - 1 := by
    rw [hk, Nat.add_mul_div_left _ _ (Nat.two_pow_pos _), Nat.div_eq_of_lt hlt, Nat.zero_add, Nat.add_mul_mod_self_left,
      Nat.mod_eq_of_lt (by omega)]
  have hfrac : nanFloat f payload % 2 ^ f.fracBits = nanFraction f payload := by
    rw [hk, Nat.add_mul_mod_self_left, Nat.mod_eq_of_lt hlt]
  simp [unpackFloat, hexp, hfrac, Nat.pos_iff_ne_zero.1 hpos]

/-- A pattern that is not a number fits its format. -/
theorem nanFloat_lt (f : FloatFormat) (hf : 0 < f.fracBits) (payload : Nat) :
    nanFloat f payload < 2 ^ (1 + f.expBits + f.fracBits) := by
  have hlt := (nanFraction_bounds f hf payload).2
  have hcode : (2 ^ f.expBits - 1) * 2 ^ f.fracBits + 2 ^ f.fracBits = 2 ^ (f.expBits + f.fracBits) := by
    rw [← Nat.succ_mul, Nat.succ_eq_add_one, Nat.sub_add_cancel (Nat.two_pow_pos _), Nat.pow_add]
  have htop : 2 ^ (1 + f.expBits + f.fracBits) = 2 * 2 ^ (f.expBits + f.fracBits) := by
    rw [Nat.add_assoc, Nat.pow_add, Nat.pow_one]
  simp only [nanFloat, packFloat, FloatFormat.infCode]
  split <;> omega

/-- In binary32 the pattern survives as 32 bits and is not a number. -/
theorem unpackFloat_nan32 (payload : Nat) :
    unpackFloat binary32 (BitVec.ofNat 32 (nanFloat binary32 payload)).toNat = .nan := by
  have hlt : nanFloat binary32 payload < 2 ^ 32 := nanFloat_lt binary32 (by decide) payload
  rw [BitVec.toNat_ofNat, Nat.mod_eq_of_lt hlt]
  exact unpackFloat_nanFloat binary32 (by decide) payload

/-- In binary64 the pattern survives as 64 bits and is not a number. -/
theorem unpackFloat_nan64 (payload : Nat) :
    unpackFloat binary64 (BitVec.ofNat 64 (nanFloat binary64 payload)).toNat = .nan := by
  have hlt : nanFloat binary64 payload < 2 ^ 64 := nanFloat_lt binary64 (by decide) payload
  rw [BitVec.toNat_ofNat, Nat.mod_eq_of_lt hlt]
  exact unpackFloat_nanFloat binary64 (by decide) payload

/-- `m * 2^e` with `m` at most `2^k` and `k` at most `-e`, of either sign, is in [-1, 1]. -/
theorem abs_toRat_le_one {neg : Bool} {m k : Nat} {e : Int} (hm : m ≤ 2 ^ k) (he : e + k ≤ 0) :
    |((if neg then -1 else 1) * m * 2 ^ e : ℚ)| ≤ 1 := by
  have hsign : |(if neg then -1 else 1 : ℚ)| = 1 := by cases neg <;> simp
  rw [abs_mul, abs_mul, hsign, one_mul, Nat.abs_cast, abs_of_pos (by positivity : (0 : ℚ) < 2 ^ e)]
  calc (m : ℚ) * 2 ^ e ≤ 2 ^ (k : Int) * 2 ^ e := by gcongr; exact_mod_cast hm
    _ = 2 ^ (e + k) := by rw [← zpow_add₀ two_ne_zero, add_comm]
    _ ≤ 1 := zpow_le_one_of_nonpos₀ one_le_two he

/-- A magnitude code up to that of 1.0 is a finite number in [-1, 1], whatever the sign. -/
theorem unpackFloat_packFloat_unit (f : FloatFormat) (hE : 1 < f.expBits) (neg : Bool) (code : Nat) (hc : code ≤ f.oneCode) :
    ∃ r : ℚ, (unpackFloat f (packFloat f neg code)).toRat = some r ∧ |r| ≤ 1 := by
  have hF : 0 < 2 ^ f.fracBits := Nat.two_pow_pos _
  have hE2 : 2 ^ f.expBits = 2 * 2 ^ (f.expBits - 1) := by
    rw [← Nat.pow_succ', Nat.succ_eq_add_one, Nat.sub_add_cancel (by omega)]
  have hB : 2 ≤ 2 ^ (f.expBits - 1) := by
    calc 2 = 2 ^ 1 := rfl
      _ ≤ 2 ^ (f.expBits - 1) := Nat.pow_le_pow_right (by decide) (by omega)
  have hex : code / 2 ^ f.fracBits ≤ 2 ^ (f.expBits - 1) - 1 := by
    rw [Nat.div_le_iff_le_mul_add_pred hF]
    unfold FloatFormat.oneCode at hc
    rw [Nat.mul_comm] at hc
    omega
  have hexp : packFloat f neg code / 2 ^ f.fracBits % 2 ^ f.expBits = code / 2 ^ f.fracBits := by
    have hsign : packFloat f neg code = code + 2 ^ f.fracBits * (2 ^ f.expBits * (if neg then 1 else 0)) := by
      unfold packFloat
      rw [Nat.pow_add]
      split <;> ring
    rw [hsign, Nat.add_mul_div_left _ _ hF, Nat.add_mul_mod_self_left, Nat.mod_eq_of_lt (by omega)]
  have hfrac : packFloat f neg code % 2 ^ f.fracBits = code % 2 ^ f.fracBits := by
    unfold packFloat
    split
    · rw [Nat.add_comm f.expBits, Nat.pow_add, Nat.mul_add_mod]
    · rw [Nat.zero_add]
  have hdm := Nat.div_add_mod code (2 ^ f.fracBits)
  have hlt := Nat.mod_lt code hF
  have hmin : f.minExp = 2 - ((2 ^ (f.expBits - 1) : Nat) : Int) - f.fracBits := by simp [FloatFormat.minExp]
  unfold unpackFloat
  simp only [hexp, hfrac]
  rw [if_neg (by omega)]
  split
  · exact ⟨_, rfl, abs_toRat_le_one (k := f.fracBits) (by omega) (by omega)⟩
  · rcases Nat.lt_or_ge (code / 2 ^ f.fracBits) (2 ^ (f.expBits - 1) - 1) with h | h
    · exact ⟨_, rfl, abs_toRat_le_one (k := f.fracBits + 1) (by rw [Nat.pow_succ]; omega) (by omega)⟩
    · have hone : code / 2 ^ f.fracBits = 2 ^ (f.expBits - 1) - 1 := by omega
      rw [hone, Nat.mul_comm] at hdm
      unfold FloatFormat.oneCode at hc
      exact ⟨_, rfl, abs_toRat_le_one (k := f.fracBits) (by omega) (by omega)⟩

/-- A pattern of a number in [-1, 1]: its magnitude code is at most that of 1.0. -/
def UnitPattern (f : FloatFormat) (x : Nat) : Prop := ∃ (sign : Bool) (code : Nat), x = packFloat f sign code ∧ code ≤ f.oneCode

/-- A sine or cosine of a finite operand is a number in [-1, 1], if its value at a zero is. -/
theorem trigFloat_unit (f : FloatFormat) (zero : Bool → Nat) (hz : ∀ neg, UnitPattern f (zero neg)) (value : Nat)
    {a : FloatValue} {q : ℚ} (ha : a.toRat = some q) : UnitPattern f (trigFloat f zero value a) := by
  cases a with
  | nan => exact nomatch ha
  | infinite => exact nomatch ha
  | finite neg m e =>
    simp only [trigFloat]
    split
    · exact hz neg
    · exact ⟨_, _, rfl, Nat.min_le_right ..⟩

end Sys2Proof.Machine

namespace Sys2Proof

open Sys2Proof.Machine

/-- Such an operation on `w` bits differs by at most 2 from any function into [-1, 1]. -/
theorem approximates_of_unit (f : FloatFormat) (hE : 1 < f.expBits) {w : Nat} (hw : 1 + f.expBits + f.fracBits = w) (g : ℝ → ℝ)
    (hg : ∀ x, |g x| ≤ 1) (zero : Bool → Nat)
    (hz : ∀ neg, UnitPattern f (zero neg)) (value : BitVec w → BitVec w) :
    Approximates f g 2 (fun a => BitVec.ofNat w (trigFloat f zero (value a).toNat (unpackFloat f a.toNat))) := by
  intro x q hq
  obtain ⟨sign, code, heq, hc⟩ := trigFloat_unit f zero hz (value x).toNat hq
  obtain ⟨r, hr, habs⟩ := unpackFloat_packFloat_unit f hE sign code hc
  have hlt : packFloat f sign code < 2 ^ w := by
    have hB : 2 ^ (f.expBits - 1) - 1 < 2 ^ f.expBits := by
      have := Nat.pow_le_pow_right (n := 2) (by decide) (Nat.sub_le f.expBits 1)
      have := Nat.two_pow_pos (f.expBits - 1)
      omega
    have hcode : code < 2 ^ (f.expBits + f.fracBits) := by
      rw [Nat.pow_add]
      exact Nat.lt_of_le_of_lt hc (Nat.mul_lt_mul_of_pos_right hB (Nat.two_pow_pos _))
    have htop : 2 ^ w = 2 * 2 ^ (f.expBits + f.fracBits) := by rw [← hw, Nat.add_assoc, Nat.pow_add, Nat.pow_one]
    unfold packFloat
    split <;> omega
  refine ⟨r, ?_, ?_⟩
  · rw [BitVec.toNat_ofNat, heq, Nat.mod_eq_of_lt hlt, hr]
  · have hr1 : |(r : ℝ)| ≤ 1 := by exact_mod_cast habs
    have := hg q
    rw [abs_le] at *
    push_cast
    constructor <;> linarith

/-- Whatever is left open, sine and cosine of the instance are numbers in [-1, 1], so their absolute error is at most 2. -/
theorem ieee_trigWithin_two (o : FloatOpen) : (Fp.ieee o).TrigWithin 2 := by
  have hs : ∀ (f : FloatFormat) (neg : Bool), UnitPattern f (packFloat f neg 0) := fun f neg => ⟨neg, 0, rfl, Nat.zero_le _⟩
  have hc : ∀ (f : FloatFormat) (_ : Bool), UnitPattern f (packFloat f false f.oneCode) := fun f _ => ⟨false, _, rfl, Nat.le_refl _⟩
  exact ⟨approximates_of_unit binary32 (by decide) rfl _ Real.abs_sin_le_one _ (hs _) o.sin32,
    approximates_of_unit binary32 (by decide) rfl _ Real.abs_cos_le_one _ (hc _) o.cos32,
    approximates_of_unit binary64 (by decide) rfl _ Real.abs_sin_le_one _ (hs _) o.sin64,
    approximates_of_unit binary64 (by decide) rfl _ Real.abs_cos_le_one _ (hc _) o.cos64⟩

end Sys2Proof
end

