-- ==== Sys2Proof/Laws/Step.lean ====
section
/-! SUPPORT. What a step can do, in terms of the fetch (spec/00_scope.md R16) and of `Effect`. -/

namespace Sys2Proof

/-- The opcode of an instruction's first word is the opcode of its fields (30_encoding.md R60). -/
theorem opcodeField_firstWord (i : Instr) :
    match fields i with
    | .op opc => opcodeField (firstWord i) = opc
    | .r opc _ => opcodeField (firstWord i) = opc
    | .rr opc _ _ => opcodeField (firstWord i) = opc
    | .ri opc _ _ => opcodeField (firstWord i) = opc
    | .riNoReg opc _ => opcodeField (firstWord i) = opc
    | .reserved opc _ => opcodeField (firstWord i) = opc := by
  cases h : fields i <;> simp only [firstWord, encode, h, wordsOf, List.headD_cons]
  · exact opcodeField_append ..
  · rw [wordR_split, opcodeField_append]
  · rw [wordRR_split, opcodeField_append]
  · rw [wordR_split, opcodeField_append]
  · exact opcodeField_append ..
  · exact opcodeField_append ..

end Sys2Proof

namespace Sys2Proof.Machine

/-- A fetch at `pc` reads the word that stands there. -/
theorem fetchWord_of_wordAtPc {s : State} {w : Word} (h : WordAtPc s w) : fetchWord s s.pc = .ok w := by
  obtain ⟨-, ha, -, hr, hb⟩ := h
  rw [fetchWord, if_neg (by simp [ha]), memRead_of_le (sz := .b8) hr]
  congr 1
  exact BytesAt.unique (sz := .b8) (bytesAt_readBytes s _ .b8) hb

/-- The first word of a step is the word at `pc`. -/
theorem fetchFirst_of_wordAtPc {s : State} {w : Word} (h : WordAtPc s w) : fetchFirst s = .ok w := by
  rw [fetchFirst, fetchWord_of_wordAtPc h]
  simp [h.2.2.1]

/-- All that reading the first word can answer (10_state.md R24, 20_memory.md R43, R45). -/
theorem fetchFirst_cases (s : State) :
    (s.pc.toNat % 8 ≠ 0 ∧ fetchFirst s = .error ⟨.misalignedFetch, s.pc⟩) ∨
      (s.pc.toNat % 8 = 0 ∧ (s.pcWrapped = true ∨ s.par.memSize < s.pc.toNat + 8) ∧
        fetchFirst s = .error ⟨.memOutOfRange, s.pc⟩) ∨
      ∃ w, s.pc.toNat % 8 = 0 ∧ s.pcWrapped = false ∧ s.pc.toNat + 8 ≤ s.par.memSize ∧
        fetchWord s s.pc = .ok w ∧ fetchFirst s = .ok w := by
  unfold fetchFirst fetchWord
  by_cases ha : s.pc.toNat % 8 = 0
  · rw [if_neg (by simpa using ha)]
    by_cases hr : s.pc.toNat + Size.b8.bytes ≤ s.par.memSize
    · rw [memRead_of_le hr]
      cases hw : s.pcWrapped with
      | true => exact .inr (.inl ⟨ha, .inl rfl, rfl⟩)
      | false => exact .inr (.inr ⟨_, ha, rfl, hr, rfl, rfl⟩)
    · rw [memRead_of_lt (by omega)]
      exact .inr (.inl ⟨ha, .inr (Nat.lt_of_not_le hr), rfl⟩)
  · rw [if_pos ha]
    exact .inl ⟨ha, rfl⟩

/-- All that reading the second word can answer (20_memory.md R45). -/
theorem fetchSecond_cases (s : State) :
    (s.pc.toNat + 16 ≤ s.par.memSize ∧
        fetchSecond s = .ok (assemble s.par.endian 8 (Memory.readBytes s.mem (s.pc + 8).toNat 8))) ∨
      (s.par.memSize < s.pc.toNat + 16 ∧ fetchSecond s = .error ⟨.memOutOfRange, s.pc + 8⟩) := by
  unfold fetchSecond
  by_cases hr : s.pc.toNat + 16 ≤ s.par.memSize
  · have hb : (s.pc + 8).toNat + Size.b8.bytes ≤ s.par.memSize := by
      have : (s.pc + 8).toNat ≤ s.pc.toNat + 8 := by
        rw [BitVec.toNat_add]
        exact Nat.mod_le _ _
      have h8 : Size.b8.bytes = 8 := rfl
      omega
    exact .inl ⟨hr, by rw [if_pos hr, memRead_of_le hb]⟩
  · exact .inr ⟨by omega, by rw [if_neg hr]⟩

/-- What a fetch that gives a word has read. -/
theorem fetchWord_eq_ok {s : State} {a w : Word} (h : fetchWord s a = .ok w) :
    a.toNat % 8 = 0 ∧ a.toNat + 8 ≤ s.par.memSize ∧ BytesAt s a.toNat .b8 w := by
  unfold fetchWord at h
  split at h
  · cases h
  · rename_i ha
    by_cases hr : a.toNat + Size.b8.bytes ≤ s.par.memSize
    · rw [memRead_of_le hr] at h
      cases h
      exact ⟨by omega, hr, bytesAt_readBytes s _ .b8⟩
    · rw [memRead_of_lt (by omega)] at h
      cases h

/-- A step whose fetch faults raises that fault. -/
theorem step_of_fetch_error {s : State} {f : FaultInfo} (hr : s.run = .running) (h : fetchInstr s = .error f) :
    step s = .next { s with run := .faulted f.kind f.info } := by
  rw [step, hr]
  simp only [h]
  rfl

/-- A step whose fetch gives an instruction runs it. -/
theorem step_of_fetch_ok {s : State} {i : Instr} (hr : s.run = .running) (h : fetchInstr s = .ok i) : step s = exec i s := by
  rw [step, hr]
  simp only [h]

/-- Everything a step that leads to a state can have done: it started Running, and either the fetch faulted or the instruction
fetched had its effect. -/
theorem step_cases {s t : State} (h : step s = .next t) :
    s.run = .running ∧
      ((∃ f, fetchInstr s = .error f ∧ t = { s with run := .faulted f.kind f.info }) ∨
        ∃ i, fetchInstr s = .ok i ∧ exec i s = .next t ∧ Effect i s t) := by
  cases hr : s.run with
  | halted =>
    rw [step, hr] at h
    cases h
  | faulted k info =>
    rw [step, hr] at h
    cases h
  | running =>
    refine ⟨rfl, ?_⟩
    cases hf : fetchInstr s with
    | error f =>
      rw [step_of_fetch_error hr hf] at h
      cases h
      exact .inl ⟨f, rfl, rfl⟩
    | ok i =>
      rw [step_of_fetch_ok hr hf] at h
      exact .inr ⟨i, rfl, h, effect_of_exec h⟩

/-- Everything a fetch that faults can have met, in the order of 60_exceptions.md R322 (1) to (5). -/
theorem fetchInstr_error_cases {s : State} {f : FaultInfo} (h : fetchInstr s = .error f) :
    (s.pc.toNat % 8 ≠ 0 ∧ f = ⟨.misalignedFetch, s.pc⟩) ∨
      (s.pc.toNat % 8 = 0 ∧ (s.pcWrapped = true ∨ s.par.memSize < s.pc.toNat + 8) ∧ f = ⟨.memOutOfRange, s.pc⟩) ∨
      ∃ w, fetchWord s s.pc = .ok w ∧
        ((findRow (opcodeField w) = none ∧ f = ⟨.illegalOpcode, w⟩) ∨
          (∃ row, findRow (opcodeField w) = some row ∧ zeroFieldsOk row w = false ∧ f = ⟨.illegalEncoding, w⟩) ∨
          ∃ g, decodeWord w = .ok (.needsImm g) ∧ s.par.memSize < s.pc.toNat + 16 ∧ f = ⟨.memOutOfRange, s.pc + 8⟩) := by
  unfold fetchInstr at h
  rcases fetchFirst_cases s with ⟨ha, hf⟩ | ⟨ha, hr, hf⟩ | ⟨w, -, -, -, hw, hf⟩
  · rw [hf] at h
    cases h
    exact .inl ⟨ha, rfl⟩
  · rw [hf] at h
    cases h
    exact .inr (.inl ⟨ha, hr, rfl⟩)
  · rw [hf] at h
    refine .inr (.inr ⟨w, hw, ?_⟩)
    simp only at h
    split at h
    · rename_i x hx
      cases h
      unfold decodeWord at hx
      split at hx
      · rename_i hn
        cases hx
        exact .inl ⟨hn, rfl⟩
      · rename_i row hrow
        split at hx
        · cases hx
        · rename_i hz
          cases hx
          exact .inr (.inl ⟨row, hrow, by simpa using hz, rfl⟩)
    · cases h
    · rename_i g hg
      refine .inr (.inr ⟨g, hg, ?_⟩)
      rcases fetchSecond_cases s with ⟨-, hs⟩ | ⟨hr, hs⟩
      · rw [hs] at h
        cases h
      · rw [hs] at h
        cases h
        exact ⟨hr, rfl⟩

/-- All that a fetch which gives an instruction has met: `pc` is aligned and inside memory, the word read is the first word of
that instruction, and the whole instruction lies in memory (30_encoding.md R71, 20_memory.md R45). -/
theorem fetchInstr_eq_ok {s : State} {i : Instr} (h : fetchInstr s = .ok i) :
    fetchWord s s.pc = .ok (firstWord i) ∧ s.pc.toNat % 8 = 0 ∧ s.pcWrapped = false ∧
      s.pc.toNat + i.length ≤ s.par.memSize := by
  unfold fetchInstr at h
  rcases fetchFirst_cases s with ⟨-, hf⟩ | ⟨-, -, hf⟩ | ⟨w, ha, hp, hr, hw, hf⟩
  · rw [hf] at h
    cases h
  · rw [hf] at h
    cases h
  · rw [hf] at h
    simp only at h
    split at h
    · cases h
    · rename_i j hj
      cases h
      have he := encode_of_decodeWord_whole hj
      exact ⟨by simp [hw, firstWord, he], ha, hp, by simpa [Instr.length, he] using hr⟩
    · rename_i g hg
      rcases fetchSecond_cases s with ⟨hr2, hs⟩ | ⟨-, hs⟩
      · generalize assemble s.par.endian 8 (Memory.readBytes s.mem (s.pc + 8).toNat 8) = imm at hs
        rw [hs] at h
        cases h
        have he := encode_of_decodeWord_needsImm hg imm
        exact ⟨by simp [hw, firstWord, he], ha, hp, by simpa [Instr.length, he] using hr2⟩
      · rw [hs] at h
        cases h

end Sys2Proof.Machine
end

