-- ==== Sys2Proof/Tests/Slice0.lean ====
section
/-! SUPPORT. The tests. Expected results are those of spec/95_test_vectors.md (a test named after a vector is that vector) and of the
encodings and examples of spec/30_encoding.md and the instruction rules; the witnesses show that the hypotheses of the
statements can be met, at the boundary values of their ranges. -/

namespace Sys2Proof.Tests

open Sys2Proof Sys2Proof.Machine

/-! ## Ill-formed parameters and images are refused (00_scope.md section 4, 70_reset_and_hazards.md R345) -/

theorem test_params_working_wf : Params.working.wf = true := by decide
theorem test_params_no_memory : { Params.working with memSize := 0 }.wf = false := by decide
theorem test_params_largest_memory : { Params.working with memSize := 2 ^ 64 }.wf = true := by decide
theorem test_params_memory_too_large : { Params.working with memSize := 2 ^ 64 + 1 }.wf = false := by decide
theorem test_params_code_range_reversed : { Params.working with codeRange := ⟨16, 8⟩ }.wf = false := by decide
theorem test_params_code_outside_memory : { Params.working with codeRange := ⟨0, 0x10001⟩ }.wf = false := by decide

/-- An image of one instruction and one data byte. -/
def image : Image := ⟨0, [0x0061200000000000, 0x1122334455667788, 0], [(0x200, 0xDE), (0x201, 0xAD)]⟩

theorem test_image_wf : image.wf Params.working = true := by decide
theorem test_image_misaligned : { image with base := 4 }.wf Params.working = false := by decide
theorem test_image_outside_memory : { image with base := 0xFFF0 }.wf { Params.working with resetPc := 0xFFF0 } = false := by decide
theorem test_image_reset_pc_below : { image with base := 8 }.wf Params.working = false := by decide
theorem test_image_reset_pc_above : image.wf { Params.working with resetPc := 24 } = false := by decide
theorem test_image_data_in_code : { image with data := [(23, 0)] }.wf Params.working = false := by decide
theorem test_image_data_outside_memory : { image with data := [(0x10000, 0)] }.wf Params.working = false := by decide

/-! ## Every constructor's word, written out from its encoding line (`0x...ds`: d is RD, s is RS), decodes to it -/

theorem test_decode_system :
    decodeTableWord 64 0x0000000000000000 = some .parar ∧
    decodeTableWord 64 0x0001000000000000 = some .nop ∧
    decodeTableWord 64 0x00A30123456789AB = some (.reserved00A3 0x0123456789AB) ∧
    decodeTableWord 64 0x00A40123456789AB = some (.reserved00A4 0x0123456789AB) := by
  decide

theorem test_decode_arithmetic_1 :
    decodeTableWord 64 0x00100000000000C5 = some (.add 12 5) ∧
    decodeTableWord 64 0x00110000000000C5 = some (.sub 12 5) ∧
    decodeTableWord 64 0x00120000000000C5 = some (.muls 12 5) ∧
    decodeTableWord 64 0x00130000000000C5 = some (.mul 12 5) ∧
    decodeTableWord 64 0x00140000000000C5 = some (.div 12 5) ∧
    decodeTableWord 128 0x0123456789ABCDEF0020700000000000 = some (.addv 7 0x0123456789ABCDEF) ∧
    decodeTableWord 128 0x0123456789ABCDEF0021700000000000 = some (.subv 7 0x0123456789ABCDEF) ∧
    decodeTableWord 64 0x0030900000000000 = some (.inc 9) ∧
    decodeTableWord 64 0x0031900000000000 = some (.dec 9) ∧
    decodeTableWord 64 0x0064900000000000 = some (.clr 9) ∧
    decodeTableWord 64 0x01000000000000C5 = some (.add1 12 5) ∧
    decodeTableWord 64 0x01010000000000C5 = some (.sub1 12 5) ∧
    decodeTableWord 64 0x01020000000000C5 = some (.mul1 12 5) := by
  decide

theorem test_decode_arithmetic_2 :
    decodeTableWord 64 0x01030000000000C5 = some (.muls1 12 5) ∧
    decodeTableWord 64 0x01040000000000C5 = some (.div1 12 5) ∧
    decodeTableWord 128 0x0123456789ABCDEF0110700000000000 = some (.addv1 7 0x0123456789ABCDEF) ∧
    decodeTableWord 128 0x0123456789ABCDEF0111700000000000 = some (.subv1 7 0x0123456789ABCDEF) ∧
    decodeTableWord 64 0x02000000000000C5 = some (.add2 12 5) ∧
    decodeTableWord 64 0x02010000000000C5 = some (.sub2 12 5) ∧
    decodeTableWord 64 0x02020000000000C5 = some (.mul2 12 5) ∧
    decodeTableWord 64 0x02030000000000C5 = some (.muls2 12 5) ∧
    decodeTableWord 64 0x02040000000000C5 = some (.div2 12 5) ∧
    decodeTableWord 128 0x0123456789ABCDEF0210700000000000 = some (.addv2 7 0x0123456789ABCDEF) ∧
    decodeTableWord 128 0x0123456789ABCDEF0211700000000000 = some (.subv2 7 0x0123456789ABCDEF) ∧
    decodeTableWord 64 0x03000000000000C5 = some (.add4 12 5) ∧
    decodeTableWord 64 0x03010000000000C5 = some (.sub4 12 5) := by
  decide

theorem test_decode_arithmetic_3 :
    decodeTableWord 64 0x03020000000000C5 = some (.mul4 12 5) ∧
    decodeTableWord 64 0x03030000000000C5 = some (.muls4 12 5) ∧
    decodeTableWord 64 0x03040000000000C5 = some (.div4 12 5) ∧
    decodeTableWord 128 0x0123456789ABCDEF0310700000000000 = some (.addv4 7 0x0123456789ABCDEF) ∧
    decodeTableWord 128 0x0123456789ABCDEF0311700000000000 = some (.subv4 7 0x0123456789ABCDEF) ∧
    decodeTableWord 64 0x03120000000000C5 = some (.add8 12 5) ∧
    decodeTableWord 64 0x03130000000000C5 = some (.sub8 12 5) ∧
    decodeTableWord 64 0x03140000000000C5 = some (.mul8 12 5) ∧
    decodeTableWord 64 0x03150000000000C5 = some (.muls8 12 5) ∧
    decodeTableWord 64 0x03160000000000C5 = some (.div8 12 5) ∧
    decodeTableWord 128 0x0123456789ABCDEF0317700000000000 = some (.addv8 7 0x0123456789ABCDEF) ∧
    decodeTableWord 128 0x0123456789ABCDEF0318700000000000 = some (.subv8 7 0x0123456789ABCDEF) := by
  decide

theorem test_decode_logic :
    decodeTableWord 64 0x0040900000000000 = some (.not 9) ∧
    decodeTableWord 64 0x00410000000000C5 = some (.and 12 5) ∧
    decodeTableWord 128 0x0123456789ABCDEF0042700000000000 = some (.andv 7 0x0123456789ABCDEF) ∧
    decodeTableWord 64 0x00430000000000C5 = some (.or 12 5) ∧
    decodeTableWord 128 0x0123456789ABCDEF0044700000000000 = some (.orv 7 0x0123456789ABCDEF) ∧
    decodeTableWord 64 0x00450000000000C5 = some (.xor 12 5) ∧
    decodeTableWord 128 0x0123456789ABCDEF0046700000000000 = some (.xorv 7 0x0123456789ABCDEF) ∧
    decodeTableWord 64 0x0050900000000000 = some (.shi 9) ∧
    decodeTableWord 64 0x0051900000000000 = some (.shd 9) ∧
    decodeTableWord 64 0x0052900000000000 = some (.ushi 9) ∧
    decodeTableWord 64 0x0053900000000000 = some (.ushd 9) := by
  decide

theorem test_decode_move_1 :
    decodeTableWord 128 0x0123456789ABCDEF0060700000000000 = some (.load 7 0x0123456789ABCDEF) ∧
    decodeTableWord 128 0x0123456789ABCDEF0061700000000000 = some (.loadv 7 0x0123456789ABCDEF) ∧
    decodeTableWord 64 0x00620000000000C5 = some (.loadr 12 5) ∧
    decodeTableWord 128 0x0123456789ABCDEF0063700000000000 = some (.storev 7 0x0123456789ABCDEF) ∧
    decodeTableWord 64 0x04000000000000C5 = some (.mov1 12 5) ∧
    decodeTableWord 64 0x04010000000000C5 = some (.mov2 12 5) ∧
    decodeTableWord 64 0x04020000000000C5 = some (.mov4 12 5) ∧
    decodeTableWord 64 0x04030000000000C5 = some (.mov8 12 5) ∧
    decodeTableWord 128 0x0123456789ABCDEF0410700000000000 = some (.movv1 7 0x0123456789ABCDEF) ∧
    decodeTableWord 128 0x0123456789ABCDEF0411700000000000 = some (.movv2 7 0x0123456789ABCDEF) ∧
    decodeTableWord 128 0x0123456789ABCDEF0412700000000000 = some (.movv4 7 0x0123456789ABCDEF) ∧
    decodeTableWord 128 0x0123456789ABCDEF0413700000000000 = some (.movv8 7 0x0123456789ABCDEF) ∧
    decodeTableWord 128 0x0123456789ABCDEF0500700000000000 = some (.load1 7 0x0123456789ABCDEF) := by
  decide

theorem test_decode_move_2 :
    decodeTableWord 128 0x0123456789ABCDEF0501700000000000 = some (.load2 7 0x0123456789ABCDEF) ∧
    decodeTableWord 128 0x0123456789ABCDEF0502700000000000 = some (.load4 7 0x0123456789ABCDEF) ∧
    decodeTableWord 128 0x0123456789ABCDEF0503700000000000 = some (.load8 7 0x0123456789ABCDEF) ∧
    decodeTableWord 64 0x05100000000000C5 = some (.loadr1 12 5) ∧
    decodeTableWord 64 0x05110000000000C5 = some (.loadr2 12 5) ∧
    decodeTableWord 64 0x05120000000000C5 = some (.loadr4 12 5) ∧
    decodeTableWord 64 0x05130000000000C5 = some (.loadr8 12 5) ∧
    decodeTableWord 128 0x0123456789ABCDEF0600700000000000 = some (.store1 7 0x0123456789ABCDEF) ∧
    decodeTableWord 128 0x0123456789ABCDEF0601700000000000 = some (.store2 7 0x0123456789ABCDEF) ∧
    decodeTableWord 128 0x0123456789ABCDEF0602700000000000 = some (.store4 7 0x0123456789ABCDEF) ∧
    decodeTableWord 128 0x0123456789ABCDEF0603700000000000 = some (.store8 7 0x0123456789ABCDEF) ∧
    decodeTableWord 64 0x06100000000000C5 = some (.storer1 12 5) ∧
    decodeTableWord 64 0x06110000000000C5 = some (.storer2 12 5) := by
  decide

theorem test_decode_move_3 :
    decodeTableWord 64 0x06120000000000C5 = some (.storer4 12 5) ∧
    decodeTableWord 64 0x06130000000000C5 = some (.storer8 12 5) := by
  decide

theorem test_decode_compare_1 :
    decodeTableWord 64 0x00700000000000C5 = some (.cmp 12 5) ∧
    decodeTableWord 128 0x0123456789ABCDEF0071700000000000 = some (.cmpv 7 0x0123456789ABCDEF) ∧
    decodeTableWord 64 0x0080000000000000 = some .clrZ ∧
    decodeTableWord 64 0x0081000000000000 = some .setZ ∧
    decodeTableWord 64 0x0082000000000000 = some .clrN ∧
    decodeTableWord 64 0x0083000000000000 = some .setN ∧
    decodeTableWord 64 0x0084000000000000 = some .clrC ∧
    decodeTableWord 64 0x0085000000000000 = some .setC ∧
    decodeTableWord 64 0x0086000000000000 = some .clrV ∧
    decodeTableWord 64 0x0087000000000000 = some .setV ∧
    decodeTableWord 64 0x08300000000000C5 = some (.cmp1 12 5) ∧
    decodeTableWord 64 0x08310000000000C5 = some (.cmp2 12 5) ∧
    decodeTableWord 64 0x08320000000000C5 = some (.cmp4 12 5) := by
  decide

theorem test_decode_compare_2 :
    decodeTableWord 64 0x08330000000000C5 = some (.cmp8 12 5) ∧
    decodeTableWord 128 0x0123456789ABCDEF0840700000000000 = some (.cmpv1 7 0x0123456789ABCDEF) ∧
    decodeTableWord 128 0x0123456789ABCDEF0841700000000000 = some (.cmpv2 7 0x0123456789ABCDEF) ∧
    decodeTableWord 128 0x0123456789ABCDEF0842700000000000 = some (.cmpv4 7 0x0123456789ABCDEF) ∧
    decodeTableWord 128 0x0123456789ABCDEF0843700000000000 = some (.cmpv8 7 0x0123456789ABCDEF) := by
  decide

theorem test_decode_jump :
    decodeTableWord 128 0x0123456789ABCDEF0090000000000000 = some (.jmp 0x0123456789ABCDEF) ∧
    decodeTableWord 128 0x0123456789ABCDEF0091000000000000 = some (.jeq 0x0123456789ABCDEF) ∧
    decodeTableWord 128 0x0123456789ABCDEF0092000000000000 = some (.jne 0x0123456789ABCDEF) ∧
    decodeTableWord 128 0x0123456789ABCDEF0093000000000000 = some (.jn 0x0123456789ABCDEF) ∧
    decodeTableWord 128 0x0123456789ABCDEF0094000000000000 = some (.jnn 0x0123456789ABCDEF) ∧
    decodeTableWord 128 0x0123456789ABCDEF0095000000000000 = some (.jc 0x0123456789ABCDEF) ∧
    decodeTableWord 128 0x0123456789ABCDEF0096000000000000 = some (.jnc 0x0123456789ABCDEF) ∧
    decodeTableWord 128 0x0123456789ABCDEF0097000000000000 = some (.jlt 0x0123456789ABCDEF) ∧
    decodeTableWord 128 0x0123456789ABCDEF0098000000000000 = some (.jge 0x0123456789ABCDEF) ∧
    decodeTableWord 128 0x0123456789ABCDEF0099000000000000 = some (.call 0x0123456789ABCDEF) := by
  decide

theorem test_decode_io :
    decodeTableWord 128 0x0123456789ABCDEF00A0700000000000 = some (.svio 7 0x0123456789ABCDEF) ∧
    decodeTableWord 128 0x0123456789ABCDEF00A1700000000000 = some (.loadio 7 0x0123456789ABCDEF) ∧
    decodeTableWord 128 0x0123456789ABCDEF00A2000000000000 = some (.showio 0x0123456789ABCDEF) := by
  decide

theorem test_decode_fpu_1 :
    decodeTableWord 64 0x07000000000000C5 = some (.fadd4 12 5) ∧
    decodeTableWord 64 0x07010000000000C5 = some (.fsub4 12 5) ∧
    decodeTableWord 64 0x07020000000000C5 = some (.fmul4 12 5) ∧
    decodeTableWord 64 0x07030000000000C5 = some (.fdiv4 12 5) ∧
    decodeTableWord 64 0x07100000000000C5 = some (.fadd8 12 5) ∧
    decodeTableWord 64 0x07110000000000C5 = some (.fsub8 12 5) ∧
    decodeTableWord 64 0x07120000000000C5 = some (.fmul8 12 5) ∧
    decodeTableWord 64 0x07130000000000C5 = some (.fdiv8 12 5) ∧
    decodeTableWord 64 0x0720900000000000 = some (.fsqrt4 9) ∧
    decodeTableWord 64 0x0721900000000000 = some (.fsqrt8 9) ∧
    decodeTableWord 64 0x0722900000000000 = some (.fsin4 9) ∧
    decodeTableWord 64 0x0723900000000000 = some (.fcos4 9) ∧
    decodeTableWord 64 0x0724900000000000 = some (.fsin8 9) := by
  decide

theorem test_decode_fpu_2 :
    decodeTableWord 64 0x0725900000000000 = some (.fcos8 9) ∧
    decodeTableWord 64 0x0726900000000000 = some (.intfloat4 9) ∧
    decodeTableWord 64 0x0727900000000000 = some (.intfloat8 9) := by
  decide

theorem test_decode_stack :
    decodeTableWord 64 0x0800000000000000 = some .ret ∧
    decodeTableWord 64 0x0810900000000000 = some (.pop1 9) ∧
    decodeTableWord 64 0x0811900000000000 = some (.pop2 9) ∧
    decodeTableWord 64 0x0812900000000000 = some (.pop4 9) ∧
    decodeTableWord 64 0x0813900000000000 = some (.pop8 9) ∧
    decodeTableWord 64 0x0820900000000000 = some (.push1 9) ∧
    decodeTableWord 64 0x0821900000000000 = some (.push2 9) ∧
    decodeTableWord 64 0x0822900000000000 = some (.push4 9) ∧
    decodeTableWord 64 0x0823900000000000 = some (.push8 9) := by
  decide

/-- The bytes of `ADD R3, R5` at rising addresses, and the opcode in the two highest ones (30_encoding.md R80, 20_memory.md R41). -/
theorem test_bytes_of_add :
    encodeBytes .little (.add 3 5) = [0x35, 0, 0, 0, 0, 0, 0x10, 0] ∧ encodeBytes .big (.add 3 5) = [0, 0x10, 0, 0, 0, 0, 0, 0x35] := by
  decide

/-- A list of bytes that ends inside an instruction is refused. -/
theorem test_decode_truncated : (match decodeBytes .little [0, 0, 0, 0, 0, 0, 0x90, 0] with
    | .error .truncated => true
    | _ => false) = true := by
  decide

/-! ## Vectors of 95_test_vectors.md, one step each -/

/-- The parameters of the vectors (95_test_vectors.md), with `DIV_SIGNED` false where a vector does not
say, and `SUBWORD_WRITE` preserve, one of the results that a vector's "unspecified" upper bits admit. -/
def par : Params := { Params.working with divSigned := false, subwordWrite := .preserve }

/-- A machine with the words at `pc`, the bytes in memory, and the registers named; the others hold 0. -/
def machine (p : Params) (pc sp : Word) (regs : List (Reg × Word)) (f : Flags) (cells : List (Nat × List Byte))
    (words : List Word) : State :=
  regs.foldl (fun s r => s.setReg r.1 r.2)
    { par := p, regs := Vector.replicate 16 0, pc := pc, pcWrapped := false, sp := sp, flags := f, run := .running, ioTrace := [], draws := 0,
      mem := cells.foldl (fun m c => Memory.writeBytes m c.1 c.2) (Memory.writeWords p.endian [] pc.toNat words) }

/-- The state after one step passes a check. -/
def after (s : State) (check : State → Bool) : Bool :=
  match step s with
  | .next t => check t
  | .fault _ => false
  | .refused _ => false

theorem test_V1_PARAR : after (machine par 0x100 0x2000 [] ⟨true, false, true, false⟩ [] [0x0])
      (fun t => t.flags == ⟨true, false, true, false⟩ && t.run == .halted && t.pc == 0x100) = true := by decide
theorem test_V2_NOP : after (machine par 0x100 0x2000 [] ⟨true, false, true, false⟩ [] [0x1000000000000])
      (fun t => t.flags == ⟨true, false, true, false⟩ && t.pc == 0x108) = true := by decide
theorem test_V3_raw_word : after (machine par 0x100 0x2000 [] ⟨true, false, true, false⟩ [] [0xA3000000000000])
      (fun t => t.run == .faulted .illegalOpcode 0xA3000000000000 && t.pc == 0x100) = true := by decide
theorem test_V4_raw_word : after (machine par 0x100 0x2000 [] ⟨true, false, true, false⟩ [] [0xA4000000000000])
      (fun t => t.run == .faulted .illegalOpcode 0xA4000000000000 && t.pc == 0x100) = true := by decide
theorem test_V7_ADD : after (machine par 0x100 0x2000 [(3, 0x4000000000000001)] ⟨true, false, true, false⟩ [] [0x10000000000033])
      (fun t => t.reg 3 == 0x8000000000000002 && t.pc == 0x108) = true := by decide
theorem test_V8_SUB : after (machine par 0x100 0x2000 [(1, 0x0), (2, 0x1)] ⟨true, false, true, false⟩ [] [0x11000000000012])
      (fun t => t.reg 1 == 0xFFFFFFFFFFFFFFFF && t.pc == 0x108) = true := by decide
theorem test_V11_MUL : after (machine par 0x100 0x2000 [(1, 0xFFFFFFFFFFFFFFFF), (2, 0xFFFFFFFFFFFFFFFF)] ⟨true, false, true, false⟩ [] [0x13000000000012])
      (fun t => t.reg 1 == 0x1 && t.pc == 0x108) = true := by decide
theorem test_V14_MULS : after (machine par 0x100 0x2000 [(1, 0xFFFFFFFFFFFFFFFE), (2, 0x3)] ⟨true, false, true, false⟩ [] [0x12000000000012])
      (fun t => t.reg 1 == 0xFFFFFFFFFFFFFFFA && t.pc == 0x108) = true := by decide
theorem test_V18_DIV : after (machine par 0x100 0x2000 [(1, 0x64), (2, 0x0)] ⟨true, false, true, false⟩ [] [0x14000000000012])
      (fun t => t.run == .faulted .divideByZero 0x100 && t.pc == 0x100) = true := by decide
theorem test_V19_DIV : after (machine { par with divSigned := true } 0x100 0x2000 [(1, 0xFFFFFFFFFFFFFFF9), (2, 0x2)] ⟨true, false, true, false⟩ [] [0x14000000000012])
      (fun t => t.reg 1 == 0xFFFFFFFFFFFFFFFD && t.pc == 0x108) = true := by decide
theorem test_V20_DIV : after (machine { par with divSigned := false } 0x100 0x2000 [(1, 0xFFFFFFFFFFFFFFF9), (2, 0x2)] ⟨true, false, true, false⟩ [] [0x14000000000012])
      (fun t => t.reg 1 == 0x7FFFFFFFFFFFFFFC && t.pc == 0x108) = true := by decide
theorem test_V21_DIV : after (machine { par with divSigned := true } 0x100 0x2000 [(1, 0x7), (2, 0xFFFFFFFFFFFFFFFE)] ⟨true, false, true, false⟩ [] [0x14000000000012])
      (fun t => t.reg 1 == 0xFFFFFFFFFFFFFFFD && t.pc == 0x108) = true := by decide
theorem test_V23_DIV : after (machine { par with divSigned := true } 0x100 0x2000 [(1, 0x8000000000000000), (2, 0xFFFFFFFFFFFFFFFF)] ⟨true, false, true, false⟩ [] [0x14000000000012])
      (fun t => t.run == .faulted .divideOverflow 0x100 && t.pc == 0x100) = true := by decide
theorem test_V26_ADDV : after (machine par 0x100 0x2000 [(1, 0xFFFFFFFFFFFFFFF0)] ⟨true, false, true, false⟩ [] [0x20100000000000, 0x20])
      (fun t => t.reg 1 == 0x10 && t.pc == 0x110) = true := by decide
theorem test_V27_SUBV : after (machine par 0x100 0x2000 [(1, 0x10)] ⟨true, false, true, false⟩ [] [0x21100000000000, 0x20])
      (fun t => t.reg 1 == 0xFFFFFFFFFFFFFFF0 && t.pc == 0x110) = true := by decide
theorem test_V28_INC : after (machine par 0x100 0x2000 [(1, 0xFFFFFFFFFFFFFFFF)] ⟨true, false, true, false⟩ [] [0x30100000000000])
      (fun t => t.reg 1 == 0x0 && t.pc == 0x108) = true := by decide
theorem test_V29_DEC : after (machine par 0x100 0x2000 [(1, 0x0)] ⟨true, false, true, false⟩ [] [0x31100000000000])
      (fun t => t.reg 1 == 0xFFFFFFFFFFFFFFFF && t.pc == 0x108) = true := by decide
theorem test_V30_CLR : after (machine par 0x100 0x2000 [(7, 0x123456789ABCDEF1)] ⟨true, false, true, false⟩ [] [0x64700000000000])
      (fun t => t.reg 7 == 0x0 && t.pc == 0x108) = true := by decide
theorem test_V31_ADD1 : after (machine par 0x100 0x2000 [(1, 0x11223344556677FF), (2, 0xAAAAAAAAAAAAAA01)] ⟨true, false, true, false⟩ [] [0x100000000000012])
      (fun t => t.regLow .b1 1 == 0x0 && t.pc == 0x108) = true := by decide
theorem test_V35_MULS1 : after (machine par 0x100 0x2000 [(1, 0xFF), (2, 0xFF)] ⟨true, false, true, false⟩ [] [0x103000000000012])
      (fun t => t.regLow .b1 1 == 0x1 && t.pc == 0x108) = true := by decide
theorem test_V36_DIV1 : after (machine par 0x100 0x2000 [(1, 0x64), (2, 0x100)] ⟨true, false, true, false⟩ [] [0x104000000000012])
      (fun t => t.run == .faulted .divideByZero 0x100 && t.pc == 0x100) = true := by decide
theorem test_V38_ADDV1 : after (machine par 0x100 0x2000 [(1, 0xF0)] ⟨true, false, true, false⟩ [] [0x110100000000000, 0x1234])
      (fun t => t.regLow .b1 1 == 0x24 && t.pc == 0x110) = true := by decide
theorem test_V39_SUBV1 : after (machine par 0x100 0x2000 [(1, 0x0)] ⟨true, false, true, false⟩ [] [0x111100000000000, 0x1])
      (fun t => t.regLow .b1 1 == 0xFF && t.pc == 0x110) = true := by decide
theorem test_V41_SUB2 : after (machine par 0x100 0x2000 [(1, 0x8000), (2, 0x1)] ⟨true, false, true, false⟩ [] [0x201000000000012])
      (fun t => t.regLow .b2 1 == 0x7FFF && t.pc == 0x108) = true := by decide
theorem test_V43_MULS2 : after (machine par 0x100 0x2000 [(1, 0xFFFE), (2, 0x3)] ⟨true, false, true, false⟩ [] [0x203000000000012])
      (fun t => t.regLow .b2 1 == 0xFFFA && t.pc == 0x108) = true := by decide
theorem test_V44_DIV2 : after (machine par 0x100 0x2000 [(1, 0x7FFF), (2, 0x10)] ⟨true, false, true, false⟩ [] [0x204000000000012])
      (fun t => t.regLow .b2 1 == 0x7FF && t.pc == 0x108) = true := by decide
theorem test_V46_SUBV2 : after (machine par 0x100 0x2000 [(1, 0x2)] ⟨true, false, true, false⟩ [] [0x211100000000000, 0x3])
      (fun t => t.regLow .b2 1 == 0xFFFF && t.pc == 0x110) = true := by decide
theorem test_V47_ADD4 : after (machine par 0x100 0x2000 [(1, 0xFFFFFFFF), (2, 0x1)] ⟨true, false, true, false⟩ [] [0x300000000000012])
      (fun t => t.regLow .b4 1 == 0x0 && t.pc == 0x108) = true := by decide
theorem test_V50_MULS4 : after (machine par 0x100 0x2000 [(1, 0xFFFFFFFF), (2, 0x5)] ⟨true, false, true, false⟩ [] [0x303000000000012])
      (fun t => t.regLow .b4 1 == 0xFFFFFFFB && t.pc == 0x108) = true := by decide
theorem test_V51_DIV4 : after (machine par 0x100 0x2000 [(1, 0x7FFFFFFF), (2, 0x2)] ⟨true, false, true, false⟩ [] [0x304000000000012])
      (fun t => t.regLow .b4 1 == 0x3FFFFFFF && t.pc == 0x108) = true := by decide
theorem test_V53_SUBV4 : after (machine par 0x100 0x2000 [(1, 0x80000000)] ⟨true, false, true, false⟩ [] [0x311100000000000, 0x1])
      (fun t => t.regLow .b4 1 == 0x7FFFFFFF && t.pc == 0x110) = true := by decide
theorem test_V54_ADD8 : after (machine par 0x100 0x2000 [(1, 0xFFFFFFFFFFFFFFFF), (2, 0x1)] ⟨true, false, true, false⟩ [] [0x312000000000012])
      (fun t => t.reg 1 == 0x0 && t.pc == 0x108) = true := by decide
theorem test_V57_MULS8 : after (machine par 0x100 0x2000 [(1, 0xFFFFFFFFFFFFFFFF), (2, 0x2)] ⟨true, false, true, false⟩ [] [0x315000000000012])
      (fun t => t.reg 1 == 0xFFFFFFFFFFFFFFFE && t.pc == 0x108) = true := by decide
theorem test_V58_DIV8 : after (machine par 0x100 0x2000 [(1, 0x3E8), (2, 0xA)] ⟨true, false, true, false⟩ [] [0x316000000000012])
      (fun t => t.reg 1 == 0x64 && t.pc == 0x108) = true := by decide
theorem test_V60_SUBV8 : after (machine par 0x100 0x2000 [(1, 0x8000000000000000)] ⟨true, false, true, false⟩ [] [0x318100000000000, 0x1])
      (fun t => t.reg 1 == 0x7FFFFFFFFFFFFFFF && t.pc == 0x110) = true := by decide
theorem test_V61_NOT : after (machine par 0x100 0x2000 [(4, 0xFF00FF0F0F3355)] ⟨true, false, true, false⟩ [] [0x40400000000000])
      (fun t => t.reg 4 == 0xFF00FF00F0F0CCAA && t.pc == 0x108) = true := by decide
theorem test_V63_AND : after (machine par 0x100 0x2000 [(1, 0xFF00FF0F0F3355), (2, 0xF0F0F0FFFFF0000)] ⟨true, false, true, false⟩ [] [0x41000000000012])
      (fun t => t.reg 1 == 0xF000F0F0F0000 && t.pc == 0x108) = true := by decide
theorem test_V65_ANDV : after (machine par 0x100 0x2000 [(1, 0x1122334455667788)] ⟨true, false, true, false⟩ [] [0x42100000000000, 0xFFFF0000])
      (fun t => t.reg 1 == 0x55660000 && t.pc == 0x110) = true := by decide
theorem test_V66_OR : after (machine par 0x100 0x2000 [(1, 0xFF00FF0F0F3355), (2, 0xF0F0F0FFFFF0000)] ⟨true, false, true, false⟩ [] [0x43000000000012])
      (fun t => t.reg 1 == 0xFFF0FFFFFFF3355 && t.pc == 0x108) = true := by decide
theorem test_V67_ORV : after (machine par 0x100 0x2000 [(1, 0x1)] ⟨true, false, true, false⟩ [] [0x44100000000000, 0x8000000000000000])
      (fun t => t.reg 1 == 0x8000000000000001 && t.pc == 0x110) = true := by decide
theorem test_V68_XOR : after (machine par 0x100 0x2000 [(1, 0xFF00FF0F0F3355), (2, 0xF0F0F0FFFFF0000)] ⟨true, false, true, false⟩ [] [0x45000000000012])
      (fun t => t.reg 1 == 0xFF00FF0F0F03355 && t.pc == 0x108) = true := by decide
theorem test_V70_XORV : after (machine par 0x100 0x2000 [(1, 0x1122334455667788)] ⟨true, false, true, false⟩ [] [0x46100000000000, 0xFFFFFFFF])
      (fun t => t.reg 1 == 0x11223344AA998877 && t.pc == 0x110) = true := by decide
theorem test_V73_USHI : after (machine par 0x100 0x2000 [(2, 0xC000000000000001)] ⟨true, false, true, false⟩ [] [0x52200000000000])
      (fun t => t.reg 2 == 0x8000000000000002 && t.pc == 0x108) = true := by decide
theorem test_V77_USHD : after (machine par 0x100 0x2000 [(2, 0x8000000000000003)] ⟨true, false, true, false⟩ [] [0x53200000000000])
      (fun t => t.reg 2 == 0x4000000000000001 && t.pc == 0x108) = true := by decide
theorem test_V79_SHI : after (machine { par with shiftCount := 4 } 0x100 0x2000 [(2, 0xC000000000000001)] ⟨true, false, true, false⟩ [] [0x50200000000000])
      (fun t => t.reg 2 == 0x10 && t.pc == 0x108) = true := by decide
theorem test_V80_SHD : after (machine { par with shiftCount := 4 } 0x100 0x2000 [(2, 0x8000000000000030)] ⟨true, false, true, false⟩ [] [0x51200000000000])
      (fun t => t.reg 2 == 0xF800000000000003 && t.pc == 0x108) = true := by decide
theorem test_V81_LOADV : after (machine par 0x100 0x2000 [] ⟨false, true, false, true⟩ [] [0x61200000000000, 0x1122334455667788])
      (fun t => t.reg 2 == 0x1122334455667788 && t.flags == ⟨false, true, false, true⟩ && t.pc == 0x110) = true := by decide
theorem test_V83_LOAD : after (machine par 0x100 0x2000 [] ⟨true, false, true, false⟩ [(0x1003, [0x01, 0x02, 0x03, 0x04, 0x05, 0x06, 0x07, 0x08])] [0x60100000000000, 0x1003])
      (fun t => t.reg 1 == 0x807060504030201 && t.pc == 0x110) = true := by decide
theorem test_V84_LOAD : after (machine par 0x100 0x2000 [] ⟨true, false, true, false⟩ [] [0x60100000000000, 0xFFF9])
      (fun t => t.run == .faulted .memOutOfRange 0xFFF9 && t.pc == 0x100) = true := by decide
theorem test_V86_LOADR : after (machine par 0x100 0x2000 [(2, 0x1000)] ⟨true, false, true, false⟩ [(0x1000, [0x88, 0x77, 0x66, 0x55, 0x44, 0x33, 0x22, 0x11])] [0x62000000000022])
      (fun t => t.reg 2 == 0x1122334455667788 && t.pc == 0x108) = true := by decide
theorem test_V88_STOREV : after (machine par 0x100 0x2000 [(1, 0x1122334455667788)] ⟨true, false, true, false⟩ [] [0x63100000000000, 0x10000])
      (fun t => t.run == .faulted .memOutOfRange 0x10000 && t.pc == 0x100) = true := by decide
theorem test_V89_MOV1 : after (machine par 0x100 0x2000 [(1, 0xAAAAAAAAAAAAAAAA), (2, 0x1122334455667788)] ⟨true, false, true, false⟩ [] [0x400000000000012])
      (fun t => t.regLow .b1 1 == 0x88 && t.pc == 0x108) = true := by decide
theorem test_V91_MOV4 : after (machine par 0x100 0x2000 [(1, 0xAAAAAAAAAAAAAAAA), (2, 0x1122334455667788)] ⟨true, false, true, false⟩ [] [0x402000000000012])
      (fun t => t.regLow .b4 1 == 0x55667788 && t.pc == 0x108) = true := by decide
theorem test_V93_MOVV1 : after (machine par 0x100 0x2000 [] ⟨true, false, true, false⟩ [] [0x410100000000000, 0x1234])
      (fun t => t.regLow .b1 1 == 0x34 && t.pc == 0x110) = true := by decide
theorem test_V95_MOVV4 : after (machine par 0x100 0x2000 [] ⟨true, false, true, false⟩ [] [0x412100000000000, 0x123456789A])
      (fun t => t.regLow .b4 1 == 0x3456789A && t.pc == 0x110) = true := by decide
theorem test_V96_MOVV8 : after (machine par 0x100 0x2000 [] ⟨true, false, true, false⟩ [] [0x413100000000000, 0x1122334455667788])
      (fun t => t.reg 1 == 0x1122334455667788 && t.pc == 0x110) = true := by decide
theorem test_V98_LOAD2 : after (machine par 0x100 0x2000 [] ⟨true, false, true, false⟩ [(0x1000, [0x88, 0x77, 0x66, 0x55, 0x44, 0x33, 0x22, 0x11])] [0x501100000000000, 0x1000])
      (fun t => t.regLow .b2 1 == 0x7788 && t.pc == 0x110) = true := by decide
theorem test_V99_LOAD4 : after (machine par 0x100 0x2000 [] ⟨true, false, true, false⟩ [(0x1000, [0x88, 0x77, 0x66, 0x55, 0x44, 0x33, 0x22, 0x11])] [0x502100000000000, 0x1004])
      (fun t => t.regLow .b4 1 == 0x11223344 && t.pc == 0x110) = true := by decide
theorem test_V100_LOAD8 : after (machine par 0x100 0x2000 [] ⟨true, false, true, false⟩ [(0x1000, [0x88, 0x77, 0x66, 0x55, 0x44, 0x33, 0x22, 0x11])] [0x503100000000000, 0x1000])
      (fun t => t.reg 1 == 0x1122334455667788 && t.pc == 0x110) = true := by decide
theorem test_V102_LOADR2 : after (machine par 0x100 0x2000 [(2, 0x1001)] ⟨true, false, true, false⟩ [(0x1000, [0x88, 0x77, 0x66, 0x55, 0x44, 0x33, 0x22, 0x11])] [0x511000000000012])
      (fun t => t.regLow .b2 1 == 0x6677 && t.pc == 0x108) = true := by decide
theorem test_V104_LOADR8 : after (machine par 0x100 0x2000 [(2, 0x1000)] ⟨true, false, true, false⟩ [(0x1000, [0x88, 0x77, 0x66, 0x55, 0x44, 0x33, 0x22, 0x11])] [0x513000000000012])
      (fun t => t.reg 1 == 0x1122334455667788 && t.pc == 0x108) = true := by decide
theorem test_V106_STORE2 : after (machine par 0x100 0x2000 [(1, 0x1122334455667788)] ⟨true, false, true, false⟩ [] [0x601100000000000, 0x1000])
      (fun t => Memory.readBytes t.mem 0x1000 2 == [0x88, 0x77] && t.pc == 0x110) = true := by decide
theorem test_V109_STORE4 : after (machine par 0x100 0x2000 [(1, 0x1122334455667788)] ⟨true, false, true, false⟩ [] [0x602100000000000, 0xFFFD])
      (fun t => t.run == .faulted .memOutOfRange 0xFFFD && t.pc == 0x100) = true := by decide
theorem test_V110_STORER1 : after (machine par 0x100 0x2000 [(1, 0x1000), (2, 0x1122334455667788)] ⟨true, false, true, false⟩ [] [0x610000000000012])
      (fun t => Memory.readBytes t.mem 0x1000 1 == [0x88] && t.pc == 0x108) = true := by decide
theorem test_V111_STORER2 : after (machine par 0x100 0x2000 [(1, 0x1000), (2, 0x1122334455667788)] ⟨true, false, true, false⟩ [] [0x611000000000012])
      (fun t => Memory.readBytes t.mem 0x1000 2 == [0x88, 0x77] && t.pc == 0x108) = true := by decide
theorem test_V113_STORER8 : after (machine par 0x100 0x2000 [(1, 0x1000), (2, 0x1122334455667788)] ⟨true, false, true, false⟩ [] [0x613000000000012])
      (fun t => Memory.readBytes t.mem 0x1000 8 == [0x88, 0x77, 0x66, 0x55, 0x44, 0x33, 0x22, 0x11] && t.pc == 0x108) = true := by decide
theorem test_V115_STORE8 : after (machine { par with endian := .big } 0x100 0x2000 [(1, 0x1122334455667788)] ⟨true, false, true, false⟩ [] [0x603100000000000, 0x1000])
      (fun t => Memory.readBytes t.mem 0x1000 8 == [0x11, 0x22, 0x33, 0x44, 0x55, 0x66, 0x77, 0x88] && t.pc == 0x110) = true := by decide
theorem test_V116_LOAD4 : after (machine { par with endian := .big } 0x100 0x2000 [] ⟨true, false, true, false⟩ [(0x1000, [0x88, 0x77, 0x66, 0x55, 0x44, 0x33, 0x22, 0x11])] [0x502100000000000, 0x1004])
      (fun t => t.regLow .b4 1 == 0x44332211 && t.pc == 0x110) = true := by decide
theorem test_V120_CMP : after (machine par 0x100 0x2000 [(1, 0xFFFFFFFFFFFFFFFF), (2, 0x1)] ⟨true, false, true, false⟩ [] [0x70000000000012])
      (fun t => t.flags == ⟨false, true, false, false⟩ && t.pc == 0x108) = true := by decide
theorem test_V121_CMP : after (machine par 0x100 0x2000 [(1, 0x1), (2, 0xFFFFFFFFFFFFFFFF)] ⟨true, false, true, false⟩ [] [0x70000000000012])
      (fun t => t.flags == ⟨false, false, true, false⟩ && t.pc == 0x108) = true := by decide
theorem test_V122_CMP : after (machine par 0x100 0x2000 [(1, 0x8000000000000000), (2, 0x1)] ⟨true, false, true, false⟩ [] [0x70000000000012])
      (fun t => t.flags == ⟨false, false, false, true⟩ && t.pc == 0x108) = true := by decide
theorem test_V123_CMP : after (machine par 0x100 0x2000 [(1, 0x7FFFFFFFFFFFFFFF), (2, 0xFFFFFFFFFFFFFFFF)] ⟨true, false, true, false⟩ [] [0x70000000000012])
      (fun t => t.flags == ⟨false, true, true, true⟩ && t.pc == 0x108) = true := by decide
theorem test_V127_CMP1 : after (machine par 0x100 0x2000 [(1, 0x1180), (2, 0x227F)] ⟨true, false, true, false⟩ [] [0x830000000000012])
      (fun t => t.flags == ⟨false, false, false, true⟩ && t.pc == 0x108) = true := by decide
theorem test_V129_CMP2 : after (machine par 0x100 0x2000 [(1, 0x1), (2, 0xFFFF)] ⟨true, false, true, false⟩ [] [0x831000000000012])
      (fun t => t.flags == ⟨false, false, true, false⟩ && t.pc == 0x108) = true := by decide
theorem test_V130_CMP4 : after (machine par 0x100 0x2000 [(1, 0x80000000), (2, 0x7FFFFFFF)] ⟨true, false, true, false⟩ [] [0x832000000000012])
      (fun t => t.flags == ⟨false, false, false, true⟩ && t.pc == 0x108) = true := by decide
theorem test_V132_CMPV1 : after (machine par 0x100 0x2000 [(1, 0x41)] ⟨true, false, true, false⟩ [] [0x840100000000000, 0x141])
      (fun t => t.flags == ⟨true, false, false, false⟩ && t.pc == 0x110) = true := by decide
theorem test_V133_CMPV2 : after (machine par 0x100 0x2000 [(1, 0x7FFF)] ⟨true, false, true, false⟩ [] [0x841100000000000, 0x8000])
      (fun t => t.flags == ⟨false, true, true, true⟩ && t.pc == 0x110) = true := by decide
theorem test_V134_CMPV4 : after (machine par 0x100 0x2000 [(1, 0x0)] ⟨true, false, true, false⟩ [] [0x842100000000000, 0xFFFFFFFF])
      (fun t => t.flags == ⟨false, false, true, false⟩ && t.pc == 0x110) = true := by decide
theorem test_V135_CMPV8 : after (machine par 0x100 0x2000 [(1, 0x8000000000000000)] ⟨true, false, true, false⟩ [] [0x843100000000000, 0x8000000000000000])
      (fun t => t.flags == ⟨true, false, false, false⟩ && t.pc == 0x110) = true := by decide
theorem test_V136_CMP : after (machine { par with subCarry := .notBorrow } 0x100 0x2000 [(1, 0x3), (2, 0x5)] ⟨true, false, true, false⟩ [] [0x70000000000012])
      (fun t => t.flags == ⟨false, true, false, false⟩ && t.pc == 0x108) = true := by decide
theorem test_V137_CLR_Z : after (machine par 0x100 0x2000 [] ⟨true, true, true, true⟩ [] [0x80000000000000])
      (fun t => t.flags == ⟨false, true, true, true⟩ && t.pc == 0x108) = true := by decide
theorem test_V140_SET_N : after (machine par 0x100 0x2000 [] ⟨false, false, false, false⟩ [] [0x83000000000000])
      (fun t => t.flags == ⟨false, true, false, false⟩ && t.pc == 0x108) = true := by decide
theorem test_V142_SET_C : after (machine par 0x100 0x2000 [] ⟨false, false, false, false⟩ [] [0x85000000000000])
      (fun t => t.flags == ⟨false, false, true, false⟩ && t.pc == 0x108) = true := by decide
theorem test_V143_CLR_V : after (machine par 0x100 0x2000 [] ⟨true, true, true, true⟩ [] [0x86000000000000])
      (fun t => t.flags == ⟨true, true, true, false⟩ && t.pc == 0x108) = true := by decide
theorem test_V146_JMP : after (machine par 0x100 0x2000 [] ⟨false, false, false, false⟩ [] [0x90000000000000, 0x40])
      (fun t => t.flags == ⟨false, false, false, false⟩ && t.pc == 0x40) = true := by decide
theorem test_V148_JEQ : after (machine par 0x100 0x2000 [] ⟨false, true, true, true⟩ [] [0x91000000000000, 0x40])
      (fun t => t.flags == ⟨false, true, true, true⟩ && t.pc == 0x110) = true := by decide
theorem test_V149_JNE : after (machine par 0x100 0x2000 [] ⟨false, false, false, false⟩ [] [0x92000000000000, 0x40])
      (fun t => t.flags == ⟨false, false, false, false⟩ && t.pc == 0x40) = true := by decide
theorem test_V152_JN : after (machine par 0x100 0x2000 [] ⟨true, false, true, true⟩ [] [0x93000000000000, 0x40])
      (fun t => t.flags == ⟨true, false, true, true⟩ && t.pc == 0x110) = true := by decide
theorem test_V153_JNN : after (machine par 0x100 0x2000 [] ⟨false, false, false, false⟩ [] [0x94000000000000, 0x40])
      (fun t => t.flags == ⟨false, false, false, false⟩ && t.pc == 0x40) = true := by decide
theorem test_V155_JC : after (machine par 0x100 0x2000 [] ⟨false, false, true, false⟩ [] [0x95000000000000, 0x40])
      (fun t => t.flags == ⟨false, false, true, false⟩ && t.pc == 0x40) = true := by decide
theorem test_V158_JNC : after (machine par 0x100 0x2000 [] ⟨false, false, true, false⟩ [] [0x96000000000000, 0x40])
      (fun t => t.flags == ⟨false, false, true, false⟩ && t.pc == 0x110) = true := by decide
theorem test_V160_JLT : after (machine par 0x100 0x2000 [] ⟨false, false, false, true⟩ [] [0x97000000000000, 0x40])
      (fun t => t.flags == ⟨false, false, false, true⟩ && t.pc == 0x40) = true := by decide
theorem test_V161_JLT : after (machine par 0x100 0x2000 [] ⟨false, true, false, true⟩ [] [0x97000000000000, 0x40])
      (fun t => t.flags == ⟨false, true, false, true⟩ && t.pc == 0x110) = true := by decide
theorem test_V163_JGE : after (machine par 0x100 0x2000 [] ⟨false, true, false, true⟩ [] [0x98000000000000, 0x40])
      (fun t => t.flags == ⟨false, true, false, true⟩ && t.pc == 0x40) = true := by decide
theorem test_V167_raw_word : after (machine par 0x44 0x2000 [] ⟨true, false, true, false⟩ [] [])
      (fun t => t.run == .faulted .misalignedFetch 0x44 && t.pc == 0x44) = true := by decide
theorem test_V169_CALL : after (machine par 0x20 0x2000 [] ⟨true, false, false, true⟩ [] [0x99000000000000, 0x80])
      (fun t => t.flags == ⟨true, false, false, true⟩ && Memory.readBytes t.mem 0x1FF8 8 == [0x30, 0x00, 0x00, 0x00, 0x00, 0x00, 0x00, 0x00] && t.sp == 0x1FF8 && t.pc == 0x80) = true := by decide
theorem test_V170_RET : after (machine par 0x100 0x1FF8 [] ⟨true, false, true, false⟩ [(0x1FF8, [0x30, 0x00, 0x00, 0x00, 0x00, 0x00, 0x00, 0x00])] [0x800000000000000])
      (fun t => t.sp == 0x2000 && t.pc == 0x30) = true := by decide
theorem test_V171_RET : after (machine par 0x100 0x10000 [] ⟨true, false, true, false⟩ [] [0x800000000000000])
      (fun t => t.run == .faulted .memOutOfRange 0x10000 && t.pc == 0x100) = true := by decide
theorem test_V172_CALL : after (machine par 0x100 0x4 [] ⟨true, false, true, false⟩ [] [0x99000000000000, 0x80])
      (fun t => t.run == .faulted .memOutOfRange 0xFFFFFFFFFFFFFFFC && t.pc == 0x100) = true := by decide
theorem test_V174_PUSH2 : after (machine par 0x100 0x2000 [(1, 0x1122334455667788)] ⟨true, false, true, false⟩ [] [0x821100000000000])
      (fun t => Memory.readBytes t.mem 0x1FFE 2 == [0x88, 0x77] && t.sp == 0x1FFE && t.pc == 0x108) = true := by decide
theorem test_V177_PUSH8 : after (machine par 0x100 0x1FFF [(1, 0x1122334455667788)] ⟨true, false, true, false⟩ [] [0x823100000000000])
      (fun t => Memory.readBytes t.mem 0x1FF7 8 == [0x88, 0x77, 0x66, 0x55, 0x44, 0x33, 0x22, 0x11] && t.sp == 0x1FF7 && t.pc == 0x108) = true := by decide
theorem test_V178_POP1 : after (machine par 0x100 0x1FF8 [] ⟨true, false, true, false⟩ [(0x1FF8, [0x88, 0x77, 0x66, 0x55, 0x44, 0x33, 0x22, 0x11])] [0x810100000000000])
      (fun t => t.regLow .b1 1 == 0x88 && t.sp == 0x1FF9 && t.pc == 0x108) = true := by decide
theorem test_V180_POP4 : after (machine par 0x100 0x1FF8 [] ⟨true, false, true, false⟩ [(0x1FF8, [0x88, 0x77, 0x66, 0x55, 0x44, 0x33, 0x22, 0x11])] [0x812100000000000])
      (fun t => t.regLow .b4 1 == 0x55667788 && t.sp == 0x1FFC && t.pc == 0x108) = true := by decide
theorem test_V181_POP8 : after (machine par 0x100 0x1FF8 [] ⟨true, false, true, false⟩ [(0x1FF8, [0x88, 0x77, 0x66, 0x55, 0x44, 0x33, 0x22, 0x11])] [0x813100000000000])
      (fun t => t.reg 1 == 0x1122334455667788 && t.sp == 0x2000 && t.pc == 0x108) = true := by decide
theorem test_V182_POP8 : after (machine par 0x100 0xFFFC [] ⟨true, false, true, false⟩ [(0xFFFC, [0x01, 0x02, 0x03, 0x04])] [0x813100000000000])
      (fun t => t.run == .faulted .memOutOfRange 0xFFFC && t.pc == 0x100) = true := by decide
theorem test_V183_SVIO : after (machine par 0x100 0x2000 [(1, 0x1122334455667748)] ⟨true, false, true, false⟩ [] [0xA0100000000000, 0x10])
      (fun t => t.pc == 0x110 && t.ioTrace == [.write 0x10 0x48]) = true := by decide
theorem test_V185_LOADIO : after (machine par 0x100 0x2000 [] ⟨true, false, true, false⟩ [] [0xA1200000000000, 0x11])
      (fun t => t.pc == 0x110 && t.ioTrace.length == 1) = true := by decide
theorem test_V186_SHOWIO : after (machine par 0x100 0x2000 [] ⟨true, false, true, false⟩ [] [0xA2000000000000, 0x10])
      (fun t => t.pc == 0x110 && t.ioTrace == [.show 0x10]) = true := by decide
theorem test_V187_SVIO : after (machine { par with ioSize := 256 } 0x100 0x2000 [(1, 0x48)] ⟨true, false, true, false⟩ [] [0xA0100000000000, 0x100])
      (fun t => t.run == .faulted .ioOutOfRange 0x100 && t.pc == 0x100) = true := by decide
theorem test_V205_raw_word : after (machine par 0x100 0x2000 [] ⟨true, false, true, false⟩ [] [0x2000000000000])
      (fun t => t.run == .faulted .illegalOpcode 0x2000000000000 && t.pc == 0x100) = true := by decide
theorem test_V207_raw_word : after (machine par 0x100 0x2000 [] ⟨true, false, true, false⟩ [] [0x1])
      (fun t => t.run == .faulted .illegalEncoding 0x1 && t.pc == 0x100) = true := by decide
theorem test_V208_raw_word : after (machine par 0x100 0x2000 [(3, 0x5)] ⟨true, false, true, false⟩ [] [0x30300000000001])
      (fun t => t.run == .faulted .illegalEncoding 0x30300000000001 && t.pc == 0x100) = true := by decide
theorem test_V209_raw_word : after (machine par 0x100 0x2000 [(3, 0x1), (5, 0x2)] ⟨true, false, true, false⟩ [] [0x10000000000135])
      (fun t => t.run == .faulted .illegalEncoding 0x10000000000135 && t.pc == 0x100) = true := by decide
theorem test_V210_raw_word : after (machine par 0x100 0x2000 [] ⟨true, false, true, false⟩ [] [0x61200000000001, 0x5])
      (fun t => t.run == .faulted .illegalEncoding 0x61200000000001 && t.pc == 0x100) = true := by decide
theorem test_V211_raw_word : after (machine par 0x100 0x2000 [] ⟨true, false, true, false⟩ [] [0x90100000000000, 0x40])
      (fun t => t.run == .faulted .illegalEncoding 0x90100000000000 && t.pc == 0x100) = true := by decide
theorem test_V213_raw_word : after (machine par 0xFFF8 0x2000 [] ⟨true, false, true, false⟩ [] [0x61100000000000])
      (fun t => t.run == .faulted .memOutOfRange 0x10000 && t.pc == 0xFFF8) = true := by decide
theorem test_V214_raw_word : after (machine par 0x10000 0x2000 [] ⟨true, false, true, false⟩ [] [])
      (fun t => t.run == .faulted .memOutOfRange 0x10000 && t.pc == 0x10000) = true := by decide
theorem test_V215_raw_word : after (machine par 0xFFF8 0x2000 [] ⟨true, false, true, false⟩ [] [0xA3000000000001])
      (fun t => t.run == .faulted .illegalOpcode 0xA3000000000001 && t.pc == 0xFFF8) = true := by decide

/-! ## The IEEE instance of the floating-point record (47_fpu.md R291; vectors V188 to V191, V193 to V204) -/

theorem test_ieee_V188_add32 (o : FloatOpen) : (Fp.ieee o).add32 0x40C00000 0x40000000 = 0x41000000 := rfl
theorem test_ieee_V189_sub32 (o : FloatOpen) : (Fp.ieee o).sub32 0x40C00000 0x40000000 = 0x40800000 := rfl
theorem test_ieee_V190_mul32 (o : FloatOpen) : (Fp.ieee o).mul32 0x40C00000 0x40000000 = 0x41400000 := rfl
theorem test_ieee_V191_div32 (o : FloatOpen) : (Fp.ieee o).div32 0x40C00000 0x40000000 = 0x40400000 := rfl
theorem test_ieee_V193_add64 (o : FloatOpen) : (Fp.ieee o).add64 0x3FF8000000000000 0x4002000000000000 = 0x400E000000000000 := rfl
theorem test_ieee_V194_sub64 (o : FloatOpen) : (Fp.ieee o).sub64 0x3FF8000000000000 0x4002000000000000 = 0xBFE8000000000000 := rfl
theorem test_ieee_V195_mul64 (o : FloatOpen) : (Fp.ieee o).mul64 0x3FF8000000000000 0x4002000000000000 = 0x400B000000000000 := rfl
theorem test_ieee_V196_div64 (o : FloatOpen) : (Fp.ieee o).div64 0x3FF0000000000000 0x4010000000000000 = 0x3FD0000000000000 := rfl
theorem test_ieee_V197_sqrt32 (o : FloatOpen) : (Fp.ieee o).sqrt32 0x41100000 = 0x40400000 := rfl
theorem test_ieee_V198_sqrt64 (o : FloatOpen) : (Fp.ieee o).sqrt64 0x4000000000000000 = 0x3FF6A09E667F3BCD := rfl

/-- 0/0, the difference of infinities and the root of -1 are not numbers, whatever the payload. -/
theorem test_ieee_invalid_is_nan (o : FloatOpen) :
    unpackFloat binary32 ((Fp.ieee o).div32 0 0).toNat = .nan ∧
      unpackFloat binary32 ((Fp.ieee o).sub32 0x7F800000 0x7F800000).toNat = .nan ∧
      unpackFloat binary64 ((Fp.ieee o).sqrt64 0xBFF0000000000000).toNat = .nan ∧
      unpackFloat binary64 ((Fp.ieee o).sin64 0x7FF0000000000000).toNat = .nan :=
  ⟨unpackFloat_nan32 _, unpackFloat_nan32 _, unpackFloat_nan64 _, unpackFloat_nan64 _⟩

/-- Sine and cosine of 0 are 0 and 1, whatever is left open. -/
theorem test_ieee_V199_sin32 (o : FloatOpen) : (Fp.ieee o).sin32 0 = 0 := rfl
theorem test_ieee_V200_cos32 (o : FloatOpen) : (Fp.ieee o).cos32 0 = 0x3F800000 := rfl
theorem test_ieee_V201_sin64 (o : FloatOpen) : (Fp.ieee o).sin64 0 = 0 := rfl
theorem test_ieee_V202_cos64 (o : FloatOpen) : (Fp.ieee o).cos64 0 = 0x3FF0000000000000 := rfl

theorem test_ieee_V203_intfloat32 (o : FloatOpen) : (Fp.ieee o).intfloat32 0xFFFFFFFF = 0xBF800000 := rfl
theorem test_ieee_V204_intfloat64 (o : FloatOpen) : (Fp.ieee o).intfloat64 3 = 0x4008000000000000 := rfl

/-! ## Witnesses: the hypotheses of the statements can be met -/

/-- A running machine with one instruction at 0x100; R1 is 0x1122334455667788, R2 is 0x1000, R3 is 0xFFF8. -/
def start (words : List Word) : State :=
  machine par 0x100 0x2000 [(1, 0x1122334455667788), (2, 0x1000), (3, 0xFFF8)] ⟨true, false, true, false⟩ [] words

theorem start_wordAtPc (w : Word) (ws : List Word) (h : BytesAt (start (w :: ws)) 0x100 .b8 w) : WordAtPc (start (w :: ws)) w :=
  ⟨rfl, (by decide : (0x100 : Word).toNat % 8 = 0), rfl, (by decide : (0x100 : Word).toNat + 8 ≤ par.memSize), h⟩

/-- A machine with 2^64 bytes of memory and the words at `pc`. -/
def atTop (pc : Word) (words : List Word) : State :=
  machine { par with memSize := 2 ^ 64 } pc 0x2000 [] ⟨true, false, true, false⟩ [] words

/-- An advance past the top of the 64 bits is remembered, and the fetch after it faults (10_state.md R24). -/
theorem test_R24_advance_past_the_top :
    after (atTop 0xFFFFFFFFFFFFFFF8 [0x0001000000000000]) (fun t => t.run == .running && t.pc == 0 && t.pcWrapped
      && after t (fun u => u.run == .faulted .memOutOfRange 0 && u.pc == 0)) = true := by decide

/-- The second word of an instruction in the last 8 bytes is outside memory (20_memory.md R45). -/
theorem test_R24_second_word_past_the_top :
    after (atTop 0xFFFFFFFFFFFFFFF8 [0x0061100000000000]) (fun t => t.run == .faulted .memOutOfRange 0) = true := by decide

/-- A jump to address 0 from the top of memory is no wrap (45_jump_call_stack.md R269 (e)). -/
theorem test_R24_jump_to_zero :
    after (atTop 0xFFFFFFFFFFFFFFF0 [0x0090000000000000, 0]) (fun t => t.run == .running && t.pc == 0 && !t.pcWrapped) = true := by
  decide

theorem witness_EncodeOfDecodeIsIdentity :
    decodeBytes .little ([0, 0, 0, 0, 0, 0xF0, 0x61, 0, 5, 0, 0, 0, 0, 0, 0, 0x80, 7]) = .ok (.loadv 15 0x8000000000000005, [7]) ∧
      decodeBytes .big ([0, 0x10, 0, 0, 0, 0, 0, 0xEF]) = .ok (.add 14 15, []) :=
  ⟨rfl, rfl⟩

theorem witness_UnknownOpcodeFaults :
    WordAtPc (start [0x0002000000000000]) 0x0002000000000000 ∧
      (∀ i : Instr, opcodeField (firstWord i) ≠ opcodeField 0x0002000000000000) ∧
      WordAtPc (start [0xFFFFFFFFFFFFFFFF]) 0xFFFFFFFFFFFFFFFF ∧
      (∀ i : Instr, opcodeField (firstWord i) ≠ opcodeField 0xFFFFFFFFFFFFFFFF) :=
  ⟨start_wordAtPc _ _ (by unfold BytesAt; decide), (findRow_eq_none_iff _).1 (by simpa using (by decide +kernel : (findRow (opcodeField 0x0002000000000000)).isNone = true)),
    start_wordAtPc _ _ (by unfold BytesAt; decide), (findRow_eq_none_iff _).1 (by simpa using (by decide +kernel : (findRow (opcodeField 0xFFFFFFFFFFFFFFFF)).isNone = true))⟩

theorem witness_NonzeroZeroFieldFaults_op :
    WordAtPc (start [0x0000000000000001]) 0x0000000000000001 ∧ opcodeField 0x0000000000000001 = opcodeField (firstWord .parar) ∧ (0x0000000000000001 : Word).extractLsb' 0 48 ≠ 0 :=
  ⟨start_wordAtPc _ _ (by unfold BytesAt; decide), by decide, by decide⟩

theorem witness_NonzeroZeroFieldFaults_r :
    WordAtPc (start [0x0030300000000001]) 0x0030300000000001 ∧ opcodeField 0x0030300000000001 = opcodeField (firstWord (.inc 3)) ∧ (0x0030300000000001 : Word).extractLsb' 0 44 ≠ 0 :=
  ⟨start_wordAtPc _ _ (by unfold BytesAt; decide), by decide, by decide⟩

theorem witness_NonzeroZeroFieldFaults_rr :
    WordAtPc (start [0x0010000000000135]) 0x0010000000000135 ∧ opcodeField 0x0010000000000135 = opcodeField (firstWord (.add 3 5)) ∧ (0x0010000000000135 : Word).extractLsb' 8 40 ≠ 0 :=
  ⟨start_wordAtPc _ _ (by unfold BytesAt; decide), by decide, by decide⟩

theorem witness_NonzeroZeroFieldFaults_ri :
    WordAtPc (start [0x0061200000000001]) 0x0061200000000001 ∧ opcodeField 0x0061200000000001 = opcodeField (firstWord (.loadv 2 5)) ∧ (0x0061200000000001 : Word).extractLsb' 0 44 ≠ 0 :=
  ⟨start_wordAtPc _ _ (by unfold BytesAt; decide), by decide, by decide⟩

theorem witness_NonzeroZeroFieldFaults_ri_without_register :
    WordAtPc (start [0x0090100000000000]) 0x0090100000000000 ∧ opcodeField 0x0090100000000000 = opcodeField (firstWord (.jmp 0x40)) ∧ (0x0090100000000000 : Word).extractLsb' 0 48 ≠ 0 :=
  ⟨start_wordAtPc _ _ (by unfold BytesAt; decide), by decide, by decide⟩

/-- An 8-byte and a 16-byte instruction in the last bytes of memory. -/
theorem witness_StepRunsDecodedInstruction :
    (∃ s : State, s.run = .running ∧ s.par.wf = true ∧ s.pc.toNat % 8 = 0 ∧ s.pcWrapped = false ∧ s.pc.toNat + (Instr.add 1 2).length ≤ s.par.memSize ∧
      decodeBytes s.par.endian (Memory.readBytes s.mem s.pc.toNat (Instr.add 1 2).length) = .ok (.add 1 2, [])) ∧
    (∃ s : State, s.run = .running ∧ s.par.wf = true ∧ s.pc.toNat % 8 = 0 ∧ s.pcWrapped = false ∧ s.pc.toNat + (Instr.jmp 0x40).length ≤ s.par.memSize ∧
      decodeBytes s.par.endian (Memory.readBytes s.mem s.pc.toNat (Instr.jmp 0x40).length) = .ok (.jmp 0x40, [])) :=
  ⟨⟨machine par 0xFFF8 0x2000 [] ⟨true, true, true, true⟩ [] [0x0010000000000012], rfl, by decide, by decide, rfl, by decide, rfl⟩,
    ⟨machine par 0xFFF0 0x2000 [] ⟨true, true, true, true⟩ [] [0x0090000000000000, 0x40], rfl, by decide, by decide, rfl, by decide, rfl⟩⟩

theorem witness_StepsExactlyWhileRunning :
    (start []).run = .running ∧ ({ start [] with run := .halted }).run = .halted ∧
      ({ start [] with run := .faulted .divideByZero 0x100 }).run = .faulted .divideByZero 0x100 :=
  ⟨rfl, rfl, rfl⟩

theorem witness_MisalignedFetchFaults :
    ({ start [] with pc := 0x101 }).run = .running ∧ ({ start [] with pc := 0x101 }).pc.toNat % 8 ≠ 0 ∧
      transfersControl .nop = false ∧ (start []).pc.toNat % 8 = 0 ∧ ∃ t, exec .nop (start []) = .next t :=
  ⟨rfl, by decide, rfl, by decide, _, rfl⟩

/-- The first word one past the top of memory, one carried past the top of the 64 bits, and the second word one past memory, also
where its address is 0 modulo 2^64. -/
theorem witness_FetchOutsideMemoryFaults :
    (({ start [] with pc := 0x10000 }).run = .running ∧ ({ start [] with pc := 0x10000 }).pc.toNat % 8 = 0 ∧
      (start []).par.memSize < ({ start [] with pc := 0x10000 }).pc.toNat + 8) ∧
    (({ start [] with pc := 0, pcWrapped := true }).run = .running ∧
      ({ start [] with pc := 0, pcWrapped := true }).pcWrapped = true) ∧
    (∃ s : State, WordAtPc s (firstWord (.loadv 1 0)) ∧ (Instr.loadv 1 0).length = 16 ∧
      s.par.memSize < s.pc.toNat + 16) ∧
    (∃ s : State, WordAtPc s (firstWord (.loadv 1 0)) ∧ s.par.memSize < s.pc.toNat + 16 ∧ s.pc + 8 = 0) :=
  ⟨⟨rfl, by decide, by decide⟩, ⟨rfl, rfl⟩,
    ⟨machine par 0xFFF8 0x2000 [] ⟨true, true, true, true⟩ [] [0x0061100000000000],
      ⟨rfl, by decide, rfl, by decide, by unfold BytesAt; decide⟩, rfl, by decide⟩,
    ⟨atTop 0xFFFFFFFFFFFFFFF8 [0x0061100000000000],
      ⟨rfl, by decide, rfl, by decide, by unfold BytesAt; decide⟩, by decide, by decide⟩⟩

/-- NOP in the last word of a memory of 2^64 bytes, and a jump that is not taken in the last two. -/
theorem witness_PcLeavingTheTopFaults :
    (∃ s t : State, transfersControl .nop = false ∧ exec .nop s = .next t ∧ t.run = .running ∧ s.pc.toNat % 8 = 0 ∧
      2 ^ 64 ≤ s.pc.toNat + Instr.length .nop ∧ s.par.wf = true) ∧
    (∃ s : State, s.run = .running ∧ s.pc.toNat % 8 = 0 ∧ 2 ^ 64 ≤ s.pc.toNat + 16 ∧ s.flags.z = false ∧ s.flags.n = false ∧
      s.flags.c = false ∧ s.flags.v = s.flags.n) ∧
    (∃ s : State, s.run = .running ∧ s.pc.toNat % 8 = 0 ∧ 2 ^ 64 ≤ s.pc.toNat + 16 ∧ s.flags.z = true ∧ s.flags.n = true ∧
      s.flags.c = true ∧ s.flags.v ≠ s.flags.n) :=
  ⟨⟨atTop 0xFFFFFFFFFFFFFFF8 [0x0001000000000000], _, rfl, rfl, rfl, by decide, by decide, by decide⟩,
    ⟨{ atTop 0xFFFFFFFFFFFFFFF0 [] with flags := ⟨false, false, false, false⟩ }, rfl, by decide, by decide, rfl, rfl, rfl, rfl⟩,
    ⟨{ atTop 0xFFFFFFFFFFFFFFF0 [] with flags := ⟨true, true, true, false⟩ }, rfl, by decide, by decide, rfl, rfl, rfl, by decide⟩⟩

/-- Two states with the same operands and different flags, draws and memory. -/
theorem witness_MulAndMulsWriteTheSame :
    ∃ s₁ s₂ : State, s₁.regLow .b8 1 = s₂.regLow .b8 1 ∧ s₁.regLow .b8 2 = s₂.regLow .b8 2 ∧ s₁.draws ≠ s₂.draws :=
  ⟨start [], { start [0] with draws := 7, flags := ⟨false, true, false, true⟩ }, rfl, rfl, by decide⟩

/-- A step that faults, for each kind of fault: the hypotheses of FaultsArePrecise and of each clause of
FaultsHaveTheListedCauses; the sources of MemOutOfRange apart (the last a push below address 0). -/
theorem witness_FaultsHaveTheListedCauses :
    (∃ s t : State, step s = .next t ∧ t.run = .faulted .misalignedFetch 0x44) ∧
    (∃ s t : State, step s = .next t ∧ t.run = .faulted .memOutOfRange 0x10000 ∧ s.pc = 0x10000) ∧
    (∃ s t : State, step s = .next t ∧ t.run = .faulted .memOutOfRange 0x10000 ∧ s.pc = 0xFFF8) ∧
    (∃ s t : State, step s = .next t ∧ t.run = .faulted .memOutOfRange 0xFFF9 ∧ s.pc = 0x100) ∧
    (∃ s t : State, step s = .next t ∧ t.run = .faulted .memOutOfRange 0 ∧ s.pc = 0) ∧
    (∃ s t : State, step s = .next t ∧ t.run = .faulted .memOutOfRange 0xFFFFFFFFFFFFFFF8 ∧ s.sp = 0) ∧
    (∃ s t : State, step s = .next t ∧ t.run = .faulted .illegalOpcode 0x0002000000000000) ∧
    (∃ s t : State, step s = .next t ∧ t.run = .faulted .illegalOpcode 0x00A3000000000001) ∧
    (∃ s t : State, step s = .next t ∧ t.run = .faulted .illegalEncoding 1) ∧
    (∃ s t : State, step s = .next t ∧ t.run = .faulted .divideByZero 0x100) ∧
    (∃ s t : State, step s = .next t ∧ t.run = .faulted .divideOverflow 0x100) ∧
    (∃ s t : State, step s = .next t ∧ t.run = .faulted .ioOutOfRange 0x100) :=
  ⟨⟨{ start [] with pc := 0x44 }, _, rfl, rfl⟩,
    ⟨{ start [] with pc := 0x10000 }, _, rfl, rfl, rfl⟩,
    ⟨machine par 0xFFF8 0x2000 [] ⟨true, true, true, true⟩ [] [0x0061100000000000], _, rfl, rfl, rfl⟩,
    ⟨start [0x0060100000000000, 0xFFF9], _, rfl, rfl, rfl⟩,
    ⟨{ start [] with pc := 0, pcWrapped := true }, _, rfl, rfl, rfl⟩,
    ⟨{ atTop 0x100 [0x0823100000000000] with sp := 0 }, _, rfl, rfl, rfl⟩,
    ⟨start [0x0002000000000000], _, rfl, rfl⟩,
    ⟨start [0x00A3000000000001], _, rfl, rfl⟩,
    ⟨start [0x0000000000000001], _, rfl, rfl⟩,
    ⟨start [0x0014000000000014], _, rfl, rfl⟩,
    ⟨machine { par with divSigned := true } 0x100 0x2000 [(1, 0x8000000000000000), (2, 0xFFFFFFFFFFFFFFFF)]
      ⟨true, true, true, true⟩ [] [0x0014000000000012], _, rfl, rfl⟩,
    ⟨machine { par with ioSize := 256 } 0x100 0x2000 [] ⟨true, true, true, true⟩ [] [0x00A0100000000000, 0x100], _, rfl, rfl⟩⟩

theorem witness_FaultsArePrecise : ∃ s t : State, step s = .next t ∧ t.run = .faulted .divideByZero 0x100 :=
  ⟨start [0x0014000000000014], _, rfl, rfl⟩

theorem witness_OnlyPararHalts :
    (∃ s t : State, step s = .next t ∧ t.run = .halted) ∧ ∃ s t : State, step s = .next t ∧ t.run = .running :=
  ⟨⟨start [0], _, rfl, rfl⟩, ⟨start [0x0001000000000000], _, rfl, rfl⟩⟩

/-- A state with the invariant whose step stores the last 8 bytes of memory. -/
theorem witness_StepKeepsInvariant : ∃ s t : State, s.Inv ∧ step s = .next t ∧ t.mem ≠ s.mem :=
  ⟨start [0x0613000000000031], _, ⟨by decide, by decide, by decide, by decide⟩, rfl, by decide⟩

theorem witness_ResetSatisfiesInvariant :
    Params.working.wf = true ∧ ({ Params.working with memSize := 1 }).wf = true ∧
      ({ Params.working with memSize := 2 ^ 64 }).wf = true := by
  decide

theorem witness_StepKeepsParameters : ∃ s t : State, step s = .next t := ⟨start [0x0001000000000000], _, rfl⟩

theorem witness_LoadedImageIsInMemory :
    Params.working.wf = true ∧ image.wf Params.working = true ∧ image.code[0]? = some 0x0061200000000000 ∧
      image.code[2]? = some 0 ∧ image.data.Pairwise (fun c d => c.1 ≠ d.1) ∧ (0x201, 0xAD) ∈ image.data := by
  decide

theorem witness_PcAdvancesByTheLength :
    (∃ s t : State, transfersControl (.loadv 1 0) = false ∧ exec (.loadv 1 0) s = .next t ∧ t.run = .running) ∧
      ∃ s t : State, s.pc = 0xFFFFFFFFFFFFFFF8 ∧ transfersControl .nop = false ∧ exec .nop s = .next t ∧ t.run = .running :=
  ⟨⟨start [], _, rfl, rfl, rfl⟩, ⟨{ start [] with pc := 0xFFFFFFFFFFFFFFF8 }, _, rfl, rfl, rfl, rfl⟩⟩

theorem witness_OnlyStackInstructionsMoveSp :
    (∃ s t : State, exec .nop s = .next t ∧ writesSp .nop = false) ∧
      (∃ s t : State, exec (.push1 1) s = .next t ∧ writesSp (.push1 1) = true) ∧
      (∃ s t : State, exec .ret s = .next t ∧ writesSp .ret = true) ∧
      ∃ s t : State, s.sp = 0x10000 ∧ exec (.pop8 1) s = .next t ∧ writesSp (.pop8 1) = true :=
  ⟨⟨start [], _, rfl, rfl⟩, ⟨start [], _, rfl, rfl⟩, ⟨start [], _, rfl, rfl⟩, ⟨{ start [] with sp := 0x10000 }, _, rfl, rfl, rfl⟩⟩

theorem witness_FlagsChangeOnlyByTheirInstructions :
    (∃ s t : State, exec (.jmp 8) s = .next t ∧ flagRule (.jmp 8) = .keep) ∧
      ∃ s t : State, exec (.inc 1) s = .next t ∧ flagRule (.inc 1) = .havoc ∧ s.par.aluFlags = .unchanged :=
  ⟨⟨start [], _, rfl, rfl⟩,
    ⟨machine { par with aluFlags := .unchanged } 0x100 0x2000 [] ⟨true, true, true, true⟩ [] [], _, rfl, rfl, rfl⟩⟩

theorem witness_RegistersChangeOnlyAsDestination :
    (∃ s t : State, exec (.add 1 2) s = .next t ∧ destReg (.add 1 2) ≠ some 2) ∧
      ∃ s t : State, exec (.cmp 1 2) s = .next t ∧ destReg (.cmp 1 2) ≠ some 1 :=
  ⟨⟨start [], _, rfl, by decide⟩, ⟨start [], _, rfl, by decide⟩⟩

theorem witness_MemoryChangesOnlyWhereStored :
    (∃ (s t : State) (x : Access), exec (.storer8 3 1) s = .next t ∧ access (.storer8 3 1) s = some x ∧ x.store = true ∧
      x.addr.toNat + x.size.bytes = s.par.memSize) ∧
    (∃ s t : State, exec (.load 1 0) s = .next t ∧ ∀ x, access (.load 1 0) s = some x → x.store = false) :=
  ⟨⟨start [], _, _, rfl, rfl, rfl, by decide⟩, ⟨start [], _, rfl, fun x h => by cases h; rfl⟩⟩

theorem witness_EachIoInstructionMakesOneCall :
    (∃ s t : State, exec .nop s = .next t ∧ ioAddress .nop = none) ∧
      (∃ s t : State, exec (.loadio 1 0xFF) s = .next t ∧ ioAddress (.loadio 1 0xFF) = some 0xFF ∧ s.par.ioSize = 0x100) ∧
      ∃ s t : State, exec (.showio 0x100) s = .next t ∧ ioAddress (.showio 0x100) = some 0x100 ∧ s.par.ioSize = 0x100 :=
  ⟨⟨start [], _, rfl, rfl⟩,
    ⟨machine { par with ioSize := 0x100 } 0x100 0x2000 [] ⟨true, true, true, true⟩ [] [], _, rfl, rfl, rfl⟩,
    ⟨machine { par with ioSize := 0x100 } 0x100 0x2000 [] ⟨true, true, true, true⟩ [] [], _, rfl, rfl, rfl⟩⟩

/-- States for the four clauses of a division, for the widest and the narrowest operands; the last two are as near the overflow
as may be on either side. -/
theorem witness_DivisionResults :
    (∃ s : State, s.regLow .b8 2 ≠ 0 ∧ s.par.divSigned = false) ∧
    (∃ s : State, s.regLow .b8 2 = 0) ∧
    (∃ s : State, s.regLow .b1 2 = 0 ∧ s.reg 2 = 0x1000) ∧
    (∃ s : State, s.par.divSigned = true ∧ (s.regLow .b1 1).toInt = -(2 ^ (Size.b1.bits - 1)) ∧ (s.regLow .b1 2).toInt = -1) ∧
    (∃ s : State, s.par.divSigned = true ∧ (s.regLow .b8 1).toInt = -(2 ^ (Size.b8.bits - 1)) ∧ (s.regLow .b8 2).toInt = -1) ∧
    (∃ s : State, s.regLow .b8 2 ≠ 0 ∧ s.par.divSigned = true ∧
      ¬ ((s.regLow .b8 1).toInt = -(2 ^ (Size.b8.bits - 1)) ∧ (s.regLow .b8 2).toInt = -1) ∧ (s.regLow .b8 2).toInt = -1) :=
  ⟨⟨start [], by decide, rfl⟩, ⟨(start []).setReg 2 0, by decide⟩, ⟨start [], by decide, rfl⟩,
    ⟨machine { par with divSigned := true } 0 0 [(1, 0x80), (2, 0xFF)] ⟨true, true, true, true⟩ [] [], rfl, by decide, by decide⟩,
    ⟨machine { par with divSigned := true } 0 0 [(1, 0x8000000000000000), (2, 0xFFFFFFFFFFFFFFFF)] ⟨true, true, true, true⟩ [] [],
      rfl, by decide, by decide⟩,
    ⟨machine { par with divSigned := true } 0 0 [(1, 0x8000000000000001), (2, 0xFFFFFFFFFFFFFFFF)] ⟨true, true, true, true⟩ [] [],
      by decide, rfl, by decide, by decide⟩⟩

theorem witness_DivisionOfNonnegativesIgnoresSign :
    ∃ s : State, divides (.div2 1 2) = some (.b2, 1, 2) ∧ (s.regLow .b2 1).msb = false ∧ (s.regLow .b2 2).msb = false ∧
      s.regLow .b2 2 ≠ 0 ∧ s.par.divSigned = true :=
  ⟨machine { par with divSigned := true } 0 0 [(1, 0x7FFF), (2, 1)] ⟨true, true, true, true⟩ [] [], rfl, by decide, by decide,
    by decide, rfl⟩

/-- Two states that differ in all but the operand bytes. -/
theorem witness_FloatingPointIsAFunctionOfItsOperands :
    ∃ s₁ s₂ t₁ t₂ : State, s₁.regLow .b4 1 = s₂.regLow .b4 1 ∧ s₁.regLow .b4 2 = s₂.regLow .b4 2 ∧ s₁ ≠ s₂ ∧
      exec (.fadd4 1 2) s₁ = .next t₁ ∧ exec (.fadd4 1 2) s₂ = .next t₂ :=
  ⟨start [], machine par 0 0 [(1, 0xFFFFFFFF55667788), (2, 0xAAAAAAAA00001000)] ⟨false, true, true, true⟩ [] [], _, _, by decide,
    by decide, by decide, rfl, rfl⟩

/-- The last access that lies in memory and the first that does not, for each size (LoadResults, StoreResults). -/
theorem witness_LoadResults_StoreResults :
    (∀ sz : Size, sz ∈ [Size.b1, .b2, .b4, .b8] →
      (eaImm (BitVec.ofNat 64 (0x10000 - sz.bytes))).toNat + sz.bytes ≤ (start []).par.memSize ∧
      (start []).par.memSize < (eaImm (BitVec.ofNat 64 (0x10000 - sz.bytes + 1))).toNat + sz.bytes) ∧
    (eaReg 3 (start [])).toNat + 8 ≤ (start []).par.memSize ∧
    (start []).par.memSize < (eaReg 1 (start [])).toNat + 1 := by
  decide

theorem witness_StoreThenLoadReturnsValue :
    (0xFFF8 : Word).toNat + 8 ≤ (start []).par.memSize ∧ (∃ t, exec (.store8 1 0xFFF8) (start []) = .next t) ∧
      (0xFFFF : Word).toNat + 1 ≤ (start []).par.memSize ∧ (∃ t, exec (.store1 1 0xFFFF) (start []) = .next t) ∧
      ((start []).reg 3).toNat + 8 ≤ (start []).par.memSize ∧ ∃ t, exec (.storer8 3 1) (start []) = .next t :=
  ⟨by decide, ⟨_, rfl⟩, by decide, ⟨_, rfl⟩, by decide, _, rfl⟩

/-- In either byte order, at the top of a memory of 2^64 bytes. -/
theorem witness_NarrowLoadSeesTheStoredBytes :
    (∃ s t : State, s.par.wf = true ∧ (0xFFFFFFFFFFFFFFF8 : Word).toNat + 8 ≤ s.par.memSize ∧
      exec (.store8 1 0xFFFFFFFFFFFFFFF8) s = .next t ∧ s.par.endian = .little) ∧
    (∃ s t : State, s.par.wf = true ∧ (0xFFF8 : Word).toNat + 8 ≤ s.par.memSize ∧
      exec (.store8 1 0xFFF8) s = .next t ∧ s.par.endian = .big) :=
  ⟨⟨machine { par with memSize := 2 ^ 64 } 0 0 [] ⟨true, true, true, true⟩ [] [], _, by decide, by decide, rfl, rfl⟩,
    ⟨machine { par with endian := .big } 0 0 [] ⟨true, true, true, true⟩ [] [], _, by decide, by decide, rfl, rfl⟩⟩

theorem witness_StoreIsSeenByFetch :
    ∃ s t : State, (0xFFF8 : Word).toNat % 8 = 0 ∧ (0xFFF8 : Word).toNat + 8 ≤ s.par.memSize ∧
      exec (.store8 1 0xFFF8) s = .next t :=
  ⟨start [], _, by decide, by decide, rfl⟩

/-- The conditional clauses of the compares: either polarity of the carry. -/
theorem witness_CompareResults : (∃ s : State, s.par.subCarry = .borrow) ∧ ∃ s : State, s.par.subCarry = .notBorrow :=
  ⟨⟨start [], rfl⟩, ⟨machine { par with subCarry := .notBorrow } 0 0 [] ⟨true, true, true, true⟩ [] [], rfl⟩⟩

theorem witness_CompareFlagsOrderTheOperands :
    (0x80#8 : BitVec Size.b1.bits)
      = BitVec.ofInt Size.b1.bits (((0x00#8 : BitVec Size.b1.bits).toNat : Int) - ((0x80#8 : BitVec Size.b1.bits).toNat : Int)) := by
  decide

theorem witness_CompareThenJumpOrdersOperands : ∃ s : State, s.par.subCarry = .borrow ∧ (s.reg 2).toNat < (s.reg 1).toNat :=
  ⟨start [], rfl, by decide⟩

/-- For each condition a state in which it holds and one in which it does not. -/
theorem witness_JumpResults :
    (start []).flags.z = true ∧ (start []).flags.n = false ∧ (start []).flags.c = true ∧ (start []).flags.v = (start []).flags.n ∧
      ({ start [] with flags := ⟨false, true, false, false⟩ }).flags.z = false ∧
      ({ start [] with flags := ⟨false, true, false, false⟩ }).flags.n = true ∧
      ({ start [] with flags := ⟨false, true, false, false⟩ }).flags.c = false ∧
      ({ start [] with flags := ⟨false, true, false, false⟩ }).flags.v
        ≠ ({ start [] with flags := ⟨false, true, false, false⟩ }).flags.n := by
  decide

/-- A state with R1 and this stack pointer. -/
def stackAt (sp : Word) : State := { start [] with sp := sp }

/-- The lowest and the highest place of an 8-byte push, and a push below address 0 and one above memory; the same of one byte. -/
theorem witness_PushResults_CallResult :
    (8 ≤ (stackAt 8).sp.toNat ∧ (stackAt 0x10000).sp.toNat ≤ (stackAt 0x10000).par.memSize) ∧
      ((stackAt 7).sp.toNat < 8 ∧ (stackAt 0x10001).par.memSize < (stackAt 0x10001).sp.toNat) ∧
      1 ≤ (stackAt 1).sp.toNat ∧ (stackAt 0).sp.toNat < 1 := by
  decide

/-- With 2^64 bytes of memory a push at sp = 0 faults at the wrapped address, and so does CALL (45_jump_call_stack.md R270). -/
theorem test_R270_push_below_zero :
    exec (.push1 1) { atTop 0x100 [] with sp := 0 }
        = .next { atTop 0x100 [] with sp := 0, run := .faulted .memOutOfRange 0xFFFFFFFFFFFFFFFF } ∧
      exec (.push8 1) { atTop 0x100 [] with sp := 0 }
        = .next { atTop 0x100 [] with sp := 0, run := .faulted .memOutOfRange 0xFFFFFFFFFFFFFFF8 } ∧
      exec (.call 0x80) { atTop 0x100 [] with sp := 0 }
        = .next { atTop 0x100 [] with sp := 0, run := .faulted .memOutOfRange 0xFFFFFFFFFFFFFFF8 } :=
  ⟨rfl, rfl, rfl⟩

theorem witness_PopResults_RetResult :
    ({ start [] with sp := 0xFFF8 }).sp.toNat + 8 ≤ (start []).par.memSize ∧
      (start []).par.memSize < ({ start [] with sp := 0xFFF9 }).sp.toNat + 8 ∧
      ({ start [] with sp := 0xFFFF }).sp.toNat + 1 ≤ (start []).par.memSize ∧
      (start []).par.memSize < ({ start [] with sp := 0x10000 }).sp.toNat + 1 := by
  decide

theorem witness_CallThenRetReturns :
    ∃ s t : State, 8 ≤ s.sp.toNat ∧ s.sp.toNat ≤ s.par.memSize ∧ exec (.call 0x80) s = .next t ∧ s.sp = 0x10000 :=
  ⟨stackAt 0x10000, _, by decide, by decide, rfl, rfl⟩

/-- For every size, at the lowest place. -/
theorem witness_PushThenPopReturnsValue :
    (∃ s t : State, 1 ≤ s.sp.toNat ∧ s.sp.toNat ≤ s.par.memSize ∧ exec (.push1 1) s = .next t ∧ s.sp = 1) ∧
      (∃ s t : State, 2 ≤ s.sp.toNat ∧ s.sp.toNat ≤ s.par.memSize ∧ exec (.push2 1) s = .next t ∧ s.sp = 2) ∧
      (∃ s t : State, 4 ≤ s.sp.toNat ∧ s.sp.toNat ≤ s.par.memSize ∧ exec (.push4 1) s = .next t ∧ s.sp = 4) ∧
      ∃ s t : State, 8 ≤ s.sp.toNat ∧ s.sp.toNat ≤ s.par.memSize ∧ exec (.push8 1) s = .next t ∧ s.sp = 8 :=
  ⟨⟨stackAt 1, _, by decide, by decide, rfl, rfl⟩, ⟨stackAt 2, _, by decide, by decide, rfl, rfl⟩,
    ⟨stackAt 4, _, by decide, by decide, rfl, rfl⟩, ⟨stackAt 8, _, by decide, by decide, rfl, rfl⟩⟩

theorem witness_PushEightPopFourLowHalfFirst :
    ∃ s t : State, s.par.wf = true ∧ s.par.endian = .little ∧ 8 ≤ s.sp.toNat ∧ s.sp.toNat ≤ s.par.memSize ∧
      exec (.push8 1) s = .next t ∧ s.sp = 8 :=
  ⟨stackAt 8, _, by decide, rfl, by decide, by decide, rfl, rfl⟩

/-- The last I/O address and the first beyond. -/
theorem witness_IoInstructionResults :
    ∃ s : State, (0xFF : Word).toNat < s.par.ioSize ∧ s.par.ioSize ≤ (0x100 : Word).toNat :=
  ⟨machine { par with ioSize := 0x100 } 0 0 [] ⟨true, true, true, true⟩ [] [], by decide, by decide⟩

theorem witness_ReservedOpcodesFault :
    (WordAtPc (start [0x00A3FFFFFFFFFFFF]) 0x00A3FFFFFFFFFFFF ∧ opcodeField 0x00A3FFFFFFFFFFFF = 0x00A3) ∧
      WordAtPc (start [0x00A4000000000000]) 0x00A4000000000000 ∧ opcodeField 0x00A4000000000000 = 0x00A4 :=
  ⟨⟨start_wordAtPc _ _ (by unfold BytesAt; decide), by decide⟩, start_wordAtPc _ _ (by unfold BytesAt; decide), by decide⟩

/-- The cautious reading of 20_memory.md R52: a store into the code range touches code, one just past it does not. -/
theorem test_touchesCode :
    touchesCode (.store8 1 0x17) { start [] with par := { par with codeRange := ⟨0, 0x18⟩ } } = true ∧
      touchesCode (.store8 1 0x18) { start [] with par := { par with codeRange := ⟨0, 0x18⟩ } } = false := by
  decide

/-- The interface of the host: the decoder and one step from reset. -/
theorem test_first_step_after_reset :
    (match step (State.reset.withFetchWord 128 0x11223344556677880061200000000000) with
      | .next t => t.reg 2 == 0x1122334455667788 && t.pc == 0x10
      | _ => false) = true := by
  decide

end Sys2Proof.Tests
end

/-! PROOFS. The statements on the step, on faults and on the flags of a compare (spec/00_scope.md R13, R14, R16), each
after the lemmas it rests on. -/

namespace Sys2Proof.Machine

/-! ## When there is a step (00_scope.md R16, 10_state.md R28) -/

theorem step_of_halted {s : State} (h : s.run = .halted) : step s = .fault .halted := by
  rw [step, h]

theorem step_of_faulted {s : State} {k : FaultKind} {info : Word} (h : s.run = .faulted k info) :
    step s = .fault (.faulted k info) := by
  rw [step, h]

/-- A Running machine always has a next state: a fetch that faults leads to Faulted, and every instruction that is
fetched has an effect. -/
theorem exists_step_of_running {s : State} (h : s.run = .running) : ∃ t, step s = .next t := by
  cases hf : fetchInstr s with
  | error f => exact ⟨_, step_of_fetch_error h hf⟩
  | ok i =>
    obtain ⟨t, ht, -⟩ := exec_effect i s
    exact ⟨t, (step_of_fetch_ok h hf).trans ht⟩

theorem running_of_step {s t : State} (h : step s = .next t) : s.run = .running := by
  obtain ⟨hr, -⟩ := step_cases h
  exact hr

/-- Settles O8: the two directions for Running, and the two run states in which the run has ended. -/
theorem stepsExactlyWhileRunning : Obligations.StepsExactlyWhileRunning := by
  intro s
  have hnext : (∃ t, step s = .next t) ↔ s.run = .running :=
    ⟨fun ⟨_, ht⟩ => running_of_step ht, exists_step_of_running⟩
  exact ⟨hnext, step_of_halted, fun _ _ => step_of_faulted⟩

/-! ## Faults are precise (00_scope.md R14) -/

/-- What an instruction can do to the run state: leave it, halt the machine, or raise a fault with nothing else
changed. -/
theorem Effect.run_cases {i : Instr} {s t : State} (h : Effect i s t) :
    t.run = s.run ∨ t = { s with run := .halted } ∨ ∃ f : FaultInfo, t = { s with run := .faulted f.kind f.info } := by
  cases h with
  | halt hi => exact .inr (.inl rfl)
  | fault f hc => exact .inr (.inr ⟨f, rfl⟩)
  | _ => exact .inl (by simp [aluFinish, moveFinish])

/-- A step into Faulted has changed the run state and nothing else, whether the fetch faulted or the instruction did. -/
theorem eq_of_step_faulted {s t : State} {k : FaultKind} {info : Word} (h : step s = .next t)
    (ht : t.run = .faulted k info) : t = { s with run := .faulted k info } := by
  obtain ⟨hr, ⟨f, -, rfl⟩ | ⟨i, -, -, he⟩⟩ := step_cases h
  · rw [← ht]
  · rcases he.run_cases with hrun | rfl | ⟨f, rfl⟩
    · rw [hrun, hr] at ht
      cases ht
    · cases ht
    · rw [← ht]

/-- Settles O11: the state is the one before but for the run state, and Faulted has no step. -/
theorem faultsArePrecise : Obligations.FaultsArePrecise :=
  fun _ _ _ _ h ht => ⟨eq_of_step_faulted h ht, step_of_faulted ht⟩

/-! ## The flags of a compare (00_scope.md R13) -/

/-- The difference of the unsigned values modulo 2^W is the machine's subtraction. -/
theorem ofInt_toNat_sub_toNat {w : Nat} (a b : BitVec w) : BitVec.ofInt w ((a.toNat : Int) - (b.toNat : Int)) = a - b := by
  rw [Int.sub_eq_add_neg, BitVec.ofInt_add, BitVec.ofInt_neg, BitVec.ofInt_natCast, BitVec.ofInt_natCast,
    BitVec.ofNat_toNat, BitVec.ofNat_toNat, BitVec.setWidth_eq, BitVec.setWidth_eq, BitVec.sub_eq_add_neg]

section FlagsSub
variable {w : Nat} (carry : SubCarry) (a b : BitVec w)

theorem flagsSub_n : (flagsSub carry a b).n = (a - b).msb := rfl

theorem flagsSub_z_iff_sub : (flagsSub carry a b).z = true ↔ a - b = 0 := beq_iff_eq

theorem flagsSub_z_iff_eq : (flagsSub carry a b).z = true ↔ a = b := by
  rw [flagsSub_z_iff_sub]
  exact sub_eq_zero

theorem flagsSub_v : (flagsSub carry a b).v = (a.msb != b.msb && (a - b).msb != a.msb) := rfl

theorem flagsSub_v_iff_msb : (flagsSub carry a b).v = true ↔ a.msb ≠ b.msb ∧ (a - b).msb ≠ a.msb := by
  simp [flagsSub_v]

theorem flagsSub_c_borrow : (flagsSub .borrow a b).c = true ↔ a.toNat < b.toNat := decide_eq_true_iff

theorem flagsSub_c_notBorrow : (flagsSub .notBorrow a b).c = true ↔ b.toNat ≤ a.toNat := decide_eq_true_iff

/-- V says that the signed difference does not fit in the width. -/
theorem flagsSub_v_eq_ssubOverflow : (flagsSub carry a b).v = a.ssubOverflow b := by
  rw [BitVec.ssubOverflow_eq, flagsSub_v]
  cases a.msb <;> cases b.msb <;> simp

/-- N xor V is the signed order: without overflow the difference has the sign of the exact one; with overflow the operands
have different signs and the difference has the wrong one. -/
theorem flagsSub_signedLess : (flagsSub carry a b).signedLess = true ↔ a.toInt < b.toInt := by
  rw [Flags.signedLess, flagsSub_v_eq_ssubOverflow, flagsSub_n]
  cases hv : a.ssubOverflow b with
  | false =>
    have hsub : (a - b).toInt = a.toInt - b.toInt := BitVec.toInt_sub_of_not_ssubOverflow (by simp [hv])
    rw [Bool.false_xor, BitVec.msb_eq_toInt, hsub, decide_eq_true_iff, sub_neg]
  | true =>
    have hsigns : (a.msb = false ∧ b.msb = true ∧ (a - b).msb = true) ∨
        (a.msb = true ∧ b.msb = false ∧ (a - b).msb = false) := by
      simpa [BitVec.ssubOverflow_eq, and_assoc] using hv
    rcases hsigns with ⟨ha, hb, hr⟩ | ⟨ha, hb, hr⟩
    · simp only [BitVec.msb_eq_toInt, decide_eq_true_iff, decide_eq_false_iff_not] at ha hb
      have hge : ¬ a.toInt < b.toInt := by omega
      simp [hr, hge]
    · simp only [BitVec.msb_eq_toInt, decide_eq_true_iff, decide_eq_false_iff_not] at ha hb
      have hlt : a.toInt < b.toInt := by omega
      simp [hr, hlt]

end FlagsSub

/-- CMP is the shared compare of two registers on 8 bytes (44_compare_flags.md R220). -/
theorem exec_cmp (rd rs : Reg) (s : State) :
    exec (.cmp rd rs) s = compare (s.regLow .b8 rd) (s.regLow .b8 rs) lenShort s := rfl

/-- Settles O42: the four flags in terms of the difference, the two orders, and the frame of CMP. -/
theorem compareFlagsOrderTheOperands : Obligations.CompareFlagsOrderTheOperands := by
  refine ⟨fun sz carry a b r hr => ?_, fun rd rs s => ⟨_, exec_cmp rd rs s, rfl, fun _ => rfl⟩⟩
  obtain rfl : r = a - b := hr.trans (ofInt_toNat_sub_toNat a b)
  simp only [← BitVec.msb_eq_getLsbD_last]
  refine ⟨flagsSub_z_iff_sub carry a b, flagsSub_n carry a b, flagsSub_v_iff_msb carry a b, ?borrow, ?notBorrow, ?order,
    flagsSub_z_iff_eq carry a b⟩
  case borrow =>
    rintro rfl
    exact flagsSub_c_borrow a b
  case notBorrow =>
    rintro rfl
    exact flagsSub_c_notBorrow a b
  case order =>
    rw [Bool.xor_comm]
    exact flagsSub_signedLess carry a b

/-! ## The step runs the instruction at `pc` (00_scope.md R16, 30_encoding.md R71) -/

/-- A list of bytes that decodes holds the word of an 8-byte instruction or the two words of a 16-byte one. -/
theorem decodeBytes_eq_ok {e : Endian} {bs rest : List Byte} {i : Instr} (h : decodeBytes e bs = .ok (i, rest)) :
    (∃ w, takeWord e bs = some (w, rest) ∧ decodeWord w = .ok (.whole i)) ∨
      ∃ w mid f imm, takeWord e bs = some (w, mid) ∧ decodeWord w = .ok (.needsImm f) ∧
        takeWord e mid = some (imm, rest) ∧ i = f imm := by
  unfold decodeBytes at h
  split at h
  · cases h
  · rename_i w mid hw
    split at h
    · cases h
    · rename_i j hj
      cases h
      exact .inl ⟨w, hw, hj⟩
    · rename_i f hf
      split at h
      · cases h
      · rename_i imm rest' himm
        cases h
        exact .inr ⟨w, mid, f, imm, hw, hf, himm, rfl⟩

/-- The first word of `8 + n` bytes of memory. -/
theorem takeWord_readBytes (e : Endian) (m : Memory) (a n : Nat) :
    takeWord e (Memory.readBytes m a (8 + n)) =
      some (assemble e 8 (Memory.readBytes m a 8), Memory.readBytes m (a + 8) n) := by
  have hlen : (Memory.readBytes m a 8).length = 8 := Memory.readBytes_length m a 8
  rw [Memory.readBytes_add, ← takeWord_disassemble e (assemble e 8 (Memory.readBytes m a 8)), disassemble_assemble e 8 _ hlen]

/-- A first word that passes the checks of the fetch (10_state.md R24, 20_memory.md R43, R45). -/
theorem fetchFirst_of_le {s : State} (ha : s.pc.toNat % 8 = 0) (hp : s.pcWrapped = false)
    (hle : s.pc.toNat + 8 ≤ s.par.memSize) :
    fetchFirst s = .ok (assemble s.par.endian 8 (Memory.readBytes s.mem s.pc.toNat 8)) := by
  rw [fetchFirst, fetchWord, if_neg (by simp [ha]), memRead_of_le (sz := .b8) hle]
  simp [hp]

/-- The second word of an instruction that lies in memory: the 8 bytes after the first, with no wrap of the address. -/
theorem fetchSecond_of_le {s : State} (hwf : s.par.wf = true) (hle : s.pc.toNat + 16 ≤ s.par.memSize) :
    fetchSecond s = .ok (assemble s.par.endian 8 (Memory.readBytes s.mem (s.pc.toNat + 8) 8)) := by
  have hmem : s.par.memSize ≤ 2 ^ 64 := by
    simp only [Params.wf, Bool.and_eq_true, decide_eq_true_eq] at hwf
    omega
  have hpc : (s.pc + 8).toNat = s.pc.toNat + 8 := BitVec.toNat_add_of_lt (by simp; omega)
  rcases fetchSecond_cases s with ⟨-, hs⟩ | ⟨hlt, -⟩
  · rw [hs, hpc]
  · omega

/-- The fetch reads the instruction that the bytes at `pc` decode to (20_memory.md R41). -/
theorem fetchInstr_of_decodeBytes {s : State} {i : Instr} (hwf : s.par.wf = true) (ha : s.pc.toNat % 8 = 0)
    (hp : s.pcWrapped = false) (hle : s.pc.toNat + i.length ≤ s.par.memSize)
    (hd : decodeBytes s.par.endian (Memory.readBytes s.mem s.pc.toNat i.length) = .ok (i, [])) :
    fetchInstr s = .ok i := by
  rcases decodeBytes_eq_ok hd with ⟨w, hw, hi⟩ | ⟨w, mid, f, imm, hw, hf, himm, rfl⟩
  · have hlen : i.length = 8 := by rw [Instr.length, encode_of_decodeWord_whole hi]; rfl
    rw [hlen] at hle hw
    rw [takeWord_readBytes _ _ _ 0] at hw
    cases hw
    rw [fetchInstr, fetchFirst_of_le ha hp hle]
    simp only [hi]
  · have hlen : (f imm).length = 8 + 8 := by rw [Instr.length, encode_of_decodeWord_needsImm hf]; rfl
    rw [hlen] at hle hw
    rw [takeWord_readBytes] at hw
    cases hw
    rw [takeWord_readBytes _ _ _ 0] at himm
    cases himm
    rw [fetchInstr, fetchFirst_of_le ha hp (by omega), fetchSecond_of_le hwf hle]
    simp only [hf]
    rfl

/-- Settles O7: the fetch gives the instruction, and the step is its `exec`. -/
theorem stepRunsDecodedInstruction : Obligations.StepRunsDecodedInstruction :=
  fun _ _ hr hwf ha hp hle hd => step_of_fetch_ok hr (fetchInstr_of_decodeBytes hwf ha hp hle hd)

end Sys2Proof.Machine

/-! PROOFS. The statements on the state: what reset gives it, the invariant that every step keeps, and which part of it an
instruction may change (spec/10_state.md R22 to R34). Each of the latter is read off `Effect` by one lemma for the part. -/

namespace Sys2Proof.Machine

/-! ## Reset (10_state.md R34) -/

section Reset
variable (p : Params)

@[simp] theorem State.resetWith_par : (State.resetWith p).par = p := rfl
@[simp] theorem State.resetWith_pc : (State.resetWith p).pc = p.resetPc := rfl
@[simp] theorem State.resetWith_pcWrapped : (State.resetWith p).pcWrapped = false := rfl
@[simp] theorem State.resetWith_sp : (State.resetWith p).sp = p.resetSp := rfl
@[simp] theorem State.resetWith_run : (State.resetWith p).run = .running := rfl
@[simp] theorem State.resetWith_mem : (State.resetWith p).mem = [] := rfl
@[simp] theorem State.resetWith_ioTrace : (State.resetWith p).ioTrace = [] := rfl

end Reset

/-- With legal parameters the invariant holds after reset: memory lists nothing, and `pc` has not advanced. -/
theorem State.resetWith_inv {p : Params} (h : p.wf = true) : (State.resetWith p).Inv :=
  ⟨rfl, by simp, h, by simp⟩

theorem Params.working_wf : Params.working.wf = true := by decide

/-- Settles O15: `State.reset` is one of the resets with legal parameters. -/
theorem resetSatisfiesInvariant : Obligations.ResetSatisfiesInvariant :=
  ⟨fun _ => State.resetWith_inv, State.resetWith_inv Params.working_wf⟩

/-- Settles O17: the fields of the reset state, and the working values of the parameters. -/
theorem resetLeavesTheStatedValues : Obligations.ResetLeavesTheStatedValues :=
  ⟨fun p => ⟨State.resetWith_pc p, State.resetWith_sp p, State.resetWith_run p, State.resetWith_ioTrace p,
      State.resetWith_mem p, State.resetWith_par p⟩,
    State.resetWith_pc _, rfl, State.resetWith_run _, State.resetWith_ioTrace _⟩

/-! ## The ends of instructions, field by field -/

section Finish
variable (sz : Size) (rd : Reg) (v : BitVec sz.bits) (len : Word) (s : State)

@[simp] theorem aluFinish_par : (aluFinish sz rd v len s).par = s.par := by simp [aluFinish]
@[simp] theorem aluFinish_sp : (aluFinish sz rd v len s).sp = s.sp := by simp [aluFinish]
@[simp] theorem aluFinish_run : (aluFinish sz rd v len s).run = s.run := by simp [aluFinish]
@[simp] theorem aluFinish_mem : (aluFinish sz rd v len s).mem = s.mem := by simp [aluFinish]

@[simp] theorem moveFinish_par : (moveFinish sz rd v len s).par = s.par := rfl
@[simp] theorem moveFinish_sp : (moveFinish sz rd v len s).sp = s.sp := rfl
@[simp] theorem moveFinish_flags : (moveFinish sz rd v len s).flags = s.flags := rfl
@[simp] theorem moveFinish_run : (moveFinish sz rd v len s).run = s.run := rfl
@[simp] theorem moveFinish_mem : (moveFinish sz rd v len s).mem = s.mem := rfl

end Finish

/-! ## The length of an instruction (30_encoding.md R65) -/

/-- An instruction is one word or two. -/
theorem length_eq_or (i : Instr) : i.length = 8 ∨ i.length = 16 := by
  unfold Instr.length encode
  cases fields i with
  | ri opc rd imm => exact .inr rfl
  | riNoReg opc imm => exact .inr rfl
  | _ => exact .inl rfl

theorem toNat_ofNat_length (i : Instr) : (BitVec.ofNat 64 i.length).toNat = i.length := by
  rcases length_eq_or i with h | h <;> rw [h] <;> rfl

/-! ## The run state (10_state.md R28) -/

/-- Why the run state is not the one before: the instruction is PARAR, or it faulted. -/
theorem Effect.run_eq_or {i : Instr} {s t : State} (h : Effect i s t) :
    t.run = s.run ∨ i = .parar ∨ ∃ f, FaultCause i s f ∧ t.run = .faulted f.kind f.info := by
  cases h with
  | halt hi => exact .inr (.inl hi)
  | fault f hc => exact .inr (.inr ⟨f, hc, rfl⟩)
  | alu => exact .inl (aluFinish_run ..)
  | _ => exact .inl rfl

theorem run_of_exec_parar {s t : State} (h : exec .parar s = .next t) : t.run = .halted := by
  cases h
  rfl

/-- Settles O13: a step starts Running, and only PARAR's effect leads from there to Halted. -/
theorem onlyPararHalts : Obligations.OnlyPararHalts := by
  intro s t h
  obtain ⟨hr, ⟨f, hf, rfl⟩ | ⟨i, hf, hx, he⟩⟩ := step_cases h
  · simp [hf]
  · rw [hf]
    constructor
    · intro ht
      rcases he.run_eq_or with hrun | rfl | ⟨f, -, hrun⟩
      · simp [hr, ht] at hrun
      · rfl
      · simp [ht] at hrun
    · rintro ⟨⟩
      exact run_of_exec_parar hx

/-! ## The program counter (10_state.md R23, R24) -/

/-- What becomes of `pc`: it advances by the length, or a transfer of control gives it a target, or the machine stops and
it stays. -/
theorem Effect.pc_cases {i : Instr} {s t : State} (h : Effect i s t) :
    PcAdvanced (BitVec.ofNat 64 i.length) s t ∨ (transfersControl i = true ∧ ∃ target, PcAt target t) ∨
      (t.run ≠ .running ∧ t.pc = s.pc ∧ t.pcWrapped = s.pcWrapped) := by
  cases h with
  | alu => exact .inl (aluFinish_spec ..).2.1
  | halt => exact .inr (.inr ⟨nofun, rfl, rfl⟩)
  | fault => exact .inr (.inr ⟨nofun, rfl, rfl⟩)
  | jump target _ _ _ _ ht => exact .inr (.inl ⟨ht, target, rfl, rfl⟩)
  | call _ target _ _ _ _ ht => exact .inr (.inl ⟨ht, target, rfl, rfl⟩)
  | ret target _ _ _ _ ht => exact .inr (.inl ⟨ht, target, rfl, rfl⟩)
  | _ => exact .inl ⟨rfl, by simp⟩

/-- Settles O19: the transfers of control and the effects that stop the machine are excluded. -/
theorem pcAdvancesByTheLength : Obligations.PcAdvancesByTheLength := by
  intro i s t ht h hr
  rcases (effect_of_exec h).pc_cases with hpc | ⟨htr, -⟩ | ⟨hn, -⟩
  · exact hpc
  · simp [ht] at htr
  · exact absurd hr hn

/-- An advance to the top of the 64 bits or past it: one carry is lost, and that is remembered. -/
theorem PcAdvanced.carry {len : Word} {s t : State} (h : PcAdvanced len s t) (htop : 2 ^ 64 ≤ s.pc.toNat + len.toNat) :
    t.pcWrapped = true ∧ t.pc.toNat + 2 ^ 64 = s.pc.toNat + len.toNat := by
  obtain ⟨hpc, hw⟩ := h
  refine ⟨hw.2 htop, ?_⟩
  rw [hpc]
  bv_omega

/-- A `pc` that left memory at the top is not fetched from (10_state.md R24). -/
theorem step_of_pcWrapped {s : State} (hr : s.run = .running) (ha : s.pc.toNat % 8 = 0) (hw : s.pcWrapped = true) :
    step s = .next { s with run := .faulted .memOutOfRange s.pc } := by
  rcases fetchFirst_cases s with ⟨hn, -⟩ | ⟨-, -, hf⟩ | ⟨w, -, hp, -⟩
  · exact absurd ha hn
  · exact step_of_fetch_error (f := ⟨.memOutOfRange, s.pc⟩) hr (by rw [fetchInstr, hf])
  · simp [hw] at hp

/-- After an advance of whole words from an aligned `pc` past the top, the next step faults. -/
theorem PcAdvanced.step_past_top {len : Word} {s t : State} (h : PcAdvanced len s t) (hr : t.run = .running)
    (ha : s.pc.toNat % 8 = 0) (hl : len.toNat % 8 = 0) (htop : 2 ^ 64 ≤ s.pc.toNat + len.toNat) :
    step t = .next { t with run := .faulted .memOutOfRange t.pc } := by
  obtain ⟨hw, hpc⟩ := h.carry htop
  exact step_of_pcWrapped hr (by omega) hw

/-- A conditional jump falls through at the top when its condition is false. -/
theorem leavesAtTheTop_of_jumpIf {i : Instr} {imm : Word} {falls : Flags → Prop} (c : Flags → Bool)
    (h : ∀ s, exec i s = jumpIf (c s.flags) imm s) (hc : ∀ f, falls f → c f = false) : LeavesAtTheTop i falls 16 := by
  intro s hr ha htop hfalls
  refine ⟨s.advance lenRI, (h s).trans (by rw [hc _ hfalls]; rfl), ?_⟩
  exact (advance_pcAdvanced s lenRI).step_past_top hr ha rfl htop

/-- Settles O58: the advance of any other instruction, and each conditional jump with its condition. -/
theorem pcLeavingTheTopFaults : Obligations.PcLeavingTheTopFaults := by
  constructor
  · intro i s t ht h hr ha htop
    have hlen := toNat_ofNat_length i
    have hwords := length_eq_or i
    exact (pcAdvancesByTheLength i s t ht h hr).step_past_top hr ha (by omega) (by omega)
  · intro imm
    refine ⟨?jeq, ?jne, ?jn, ?jnn, ?jc, ?jnc, ?jlt, ?jge⟩
    case jeq => exact leavesAtTheTop_of_jumpIf (·.z) (fun _ => rfl) fun _ h => h
    case jne => exact leavesAtTheTop_of_jumpIf (!·.z) (fun _ => rfl) fun f h => by simp [h]
    case jn => exact leavesAtTheTop_of_jumpIf (·.n) (fun _ => rfl) fun _ h => h
    case jnn => exact leavesAtTheTop_of_jumpIf (!·.n) (fun _ => rfl) fun f h => by simp [h]
    case jc => exact leavesAtTheTop_of_jumpIf (·.c) (fun _ => rfl) fun _ h => h
    case jnc => exact leavesAtTheTop_of_jumpIf (!·.c) (fun _ => rfl) fun f h => by simp [h]
    case jlt => exact leavesAtTheTop_of_jumpIf (·.signedLess) (fun _ => rfl) fun f h => by simp [Flags.signedLess, h]
    case jge => exact leavesAtTheTop_of_jumpIf (!·.signedLess) (fun _ => rfl) fun f h => by simpa [Flags.signedLess] using h

/-! ## The stack pointer (10_state.md R25, 45_jump_call_stack.md R270) -/

/-- The instructions that write `sp` are CALL, RET, the pops and the pushes: none of them divides, does I/O or is a
reserved opcode. -/
theorem not_divides_io_reserved_of_writesSp {i : Instr} (h : writesSp i = true) :
    divides i = none ∧ ioAddress i = none ∧ ∀ opc low, fields i ≠ .reserved opc low := by
  cases i with
  | call | ret | pop1 | pop2 | pop4 | pop8 | push1 | push2 | push4 | push8 => exact ⟨rfl, rfl, nofun⟩
  | _ => cases h

/-- An instruction that writes `sp` can fault on its data access only. -/
theorem FaultCause.of_writesSp {i : Instr} {s : State} {f : FaultInfo} (h : FaultCause i s f) (hs : writesSp i = true) :
    ∃ x, access i s = some x ∧ f = ⟨.memOutOfRange, x.addr⟩ := by
  obtain ⟨hdiv, hio, hres⟩ := not_divides_io_reserved_of_writesSp hs
  cases h with
  | memory x ha => exact ⟨x, ha, rfl⟩
  | belowZero x ha => exact ⟨x, ha, rfl⟩
  | reserved opc low _ hf => exact absurd hf (hres opc low)
  | divideByZero _ _ _ hd => simp [hdiv] at hd
  | divideOverflow _ _ _ hd => simp [hdiv] at hd
  | io _ ha => simp [hio] at ha

/-- What becomes of `sp`: a push or pop moves it by the size of its access; a fault and every other instruction leave it. -/
theorem Effect.sp_cases {i : Instr} {s t : State} (h : Effect i s t) :
    (t.sp = s.sp ∧ (writesSp i = false ∨ ∃ f, FaultCause i s f ∧ t.run = .faulted f.kind f.info)) ∨
      (writesSp i = true ∧ ∃ x, access i s = some x ∧
        t.sp = if x.store then s.sp - BitVec.ofNat 64 x.size.bytes else s.sp + BitVec.ofNat 64 x.size.bytes) := by
  cases h with
  | push _ _ _ ha hs => exact .inr ⟨hs, _, ha, rfl⟩
  | call _ _ _ ha hs => exact .inr ⟨hs, _, ha, rfl⟩
  | pop _ _ _ _ _ ha hs => exact .inr ⟨hs, _, ha, rfl⟩
  | ret _ _ ha hs => exact .inr ⟨hs, _, ha, rfl⟩
  | fault f hc => exact .inl ⟨rfl, .inr ⟨f, hc, rfl⟩⟩
  | halt hi => exact .inl ⟨rfl, .inl (hi ▸ rfl)⟩
  | alu _ _ _ _ _ hq => exact .inl ⟨aluFinish_sp .., .inl hq.2.1⟩
  | flags _ _ hq => exact .inl ⟨rfl, .inl hq.2.1⟩
  | nop _ hq => exact .inl ⟨rfl, .inl hq.2.1⟩
  | _ => exact .inl ⟨rfl, .inl ‹writesSp i = false›⟩

/-- Settles O20: the two cases for `sp`, and the fault of a stack access. -/
theorem onlyStackInstructionsMoveSp : Obligations.OnlyStackInstructionsMoveSp := by
  intro i s t h
  rcases (effect_of_exec h).sp_cases with ⟨hsp, hwhy⟩ | ⟨hs, x, ha, hsp⟩
  · refine ⟨fun _ => hsp, fun hs => ?_⟩
    rcases hwhy with hn | ⟨f, hc, hrun⟩
    · simp [hn] at hs
    · obtain ⟨x, ha, rfl⟩ := hc.of_writesSp hs
      exact ⟨x, ha, .inl ⟨hrun, hsp⟩⟩
  · exact ⟨fun hn => by simp [hn] at hs, fun _ => ⟨x, ha, .inr hsp⟩⟩

/-! ## The flags (10_state.md R27) -/

/-- What becomes of the flags: HavocFlags() for an instruction with that rule, the instruction's own values for a compare
or a flag instruction, and nothing for the rest. -/
theorem Effect.flags_cases {i : Instr} {s t : State} (h : Effect i s t) :
    t.flags = s.flags ∨ (flagRule i = .havoc ∧ (s.par.aluFlags = .unchanged → t.flags = s.flags)) ∨
      (flagRule i ≠ .keep ∧ flagRule i ≠ .havoc) := by
  cases h with
  | alu sz rd r hf => exact .inr (.inl ⟨hf, fun hp => by simp [aluFinish, havocFlags_unchanged, hp]⟩)
  | flags f hf => exact .inr (.inr hf)
  | _ => exact .inl rfl

/-- Settles O21: each rule of the table against the three cases. -/
theorem flagsChangeOnlyByTheirInstructions : Obligations.FlagsChangeOnlyByTheirInstructions := by
  intro i s t h
  rcases (effect_of_exec h).flags_cases with hflags | ⟨hrule, hflags⟩ | ⟨hkeep, hhavoc⟩
  · exact ⟨fun _ => hflags, fun _ _ => hflags⟩
  · exact ⟨fun hk => by simp [hrule] at hk, fun _ => hflags⟩
  · exact ⟨fun hk => absurd hk hkeep, fun hh => absurd hh hhavoc⟩

/-! ## The general registers (10_state.md R22) -/

/-- A register that is not the destination of the instruction keeps its value. -/
theorem Effect.reg_eq {i : Instr} {s t : State} {r : Reg} (h : Effect i s t) (hr : destReg i ≠ some r) :
    t.reg r = s.reg r := by
  have ne_dest : ∀ {rd}, destReg i = some rd → r ≠ rd := fun hd e => hr (e ▸ hd)
  cases h with
  | alu sz rd v _ hd => exact (aluFinish_frame ..).1 r (ne_dest hd)
  | move sz rd v _ hd => exact (moveFinish_frame ..).1.1 r (ne_dest hd)
  | pop sz rd v _ hd => exact (moveFinish_frame ..).1.1 r (ne_dest hd)
  | ioIn a rd _ hd => exact (moveFinish_frame ..).1.1 r (ne_dest hd)
  | _ => rfl

/-- Settles O22: every effect leaves the registers that are not its destination. -/
theorem registersChangeOnlyAsDestination : Obligations.RegistersChangeOnlyAsDestination :=
  fun _ _ _ _ h hr => (effect_of_exec h).reg_eq hr

/-! ## The invariant (10_state.md R24, R31, 20_memory.md R45) -/

theorem memSize_le_of_wf {p : Params} (h : p.wf = true) : p.memSize ≤ 2 ^ 64 := by
  simp only [Params.wf, Bool.and_eq_true, decide_eq_true_eq] at h
  omega

/-- No instruction changes a parameter. -/
theorem Effect.par_eq {i : Instr} {s t : State} (h : Effect i s t) : t.par = s.par := by
  cases h with
  | alu => exact aluFinish_par ..
  | _ => rfl

/-- What becomes of memory: the bytes of the instruction's store, which lie in memory, are written, or nothing is. -/
theorem Effect.mem_cases {i : Instr} {s t : State} (h : Effect i s t) :
    t.mem = s.mem ∨ ∃ (x : Access) (v : BitVec x.size.bits), access i s = some x ∧ x.store = true ∧
      x.addr.toNat + x.size.bytes ≤ s.par.memSize ∧
      t.mem = Memory.writeBytes s.mem x.addr.toNat (disassemble s.par.endian x.size.bytes v) := by
  cases h with
  | store a sz v _ ha _ _ hle => exact .inr ⟨_, v, ha, rfl, hle, rfl⟩
  | push sz v _ ha _ _ hn hle => exact .inr ⟨_, v, ha, rfl, (pushAddr_add_bytes hn).trans_le hle, rfl⟩
  | call v _ _ ha _ _ _ hn hle =>
    exact .inr ⟨⟨pushAddr .b8 s, .b8, true⟩, v, ha, rfl, (pushAddr_add_bytes hn).trans_le hle, rfl⟩
  | alu => exact .inl (aluFinish_mem ..)
  | _ => exact .inl rfl

/-- An instruction keeps memory canonical. -/
theorem Effect.mem_wf {i : Instr} {s t : State} (h : Effect i s t) (hwf : Memory.wf s.mem = true) :
    Memory.wf t.mem = true := by
  rcases h.mem_cases with hm | ⟨x, v, -, -, -, hm⟩ <;> rw [hm]
  · exact hwf
  · exact Memory.wf_writeBytes _ _ hwf

/-- An instruction lists no address outside memory. -/
theorem Effect.mem_below {i : Instr} {s t : State} (h : Effect i s t) (hb : ∀ c ∈ s.mem, c.1 < s.par.memSize) :
    ∀ c ∈ t.mem, c.1 < s.par.memSize := by
  rcases h.mem_cases with hm | ⟨x, v, -, -, hle, hm⟩ <;> rw [hm]
  · exact hb
  · exact Memory.below_writeBytes _ hb (by rwa [disassemble_length])

/-- An instruction that was fetched lies in memory, so an advance past the top ends exactly at 2^64, and memory does. -/
theorem Effect.pc_eq_zero_of_pcWrapped {i : Instr} {s t : State} (h : Effect i s t) (hf : fetchInstr s = .ok i)
    (hmem : s.par.memSize ≤ 2 ^ 64) (hw : t.pcWrapped = true) : t.pc = 0 ∧ s.par.memSize = 2 ^ 64 := by
  obtain ⟨-, -, hs, hle⟩ := fetchInstr_eq_ok hf
  rcases h.pc_cases with hadv | ⟨-, _, -, hn⟩ | ⟨-, -, heq⟩
  · have hlen := toNat_ofNat_length i
    have htop := hadv.2.1 hw
    obtain ⟨-, hpc⟩ := hadv.carry htop
    exact ⟨BitVec.eq_of_toNat_eq (by simp; omega), by omega⟩
  · simp [hw] at hn
  · simp [hw, hs] at heq

/-- A fault changes the run state alone, of which the invariant says nothing. -/
theorem State.Inv.with_run {s : State} (h : s.Inv) (r : RunState) : State.Inv { s with run := r } := h

/-- The effect of an instruction that was fetched keeps the invariant. -/
theorem State.Inv.of_effect {i : Instr} {s t : State} (h : s.Inv) (hf : fetchInstr s = .ok i) (he : Effect i s t) :
    t.Inv := by
  obtain ⟨hwf, hbelow, hpar, -⟩ := h
  unfold State.Inv
  rw [he.par_eq]
  exact ⟨he.mem_wf hwf, he.mem_below hbelow, hpar, he.pc_eq_zero_of_pcWrapped hf (memSize_le_of_wf hpar)⟩

/-- Settles O14: a step raises the fault of its fetch, or takes the effect of the instruction fetched. -/
theorem stepKeepsInvariant : Obligations.StepKeepsInvariant := by
  intro s t hinv h
  obtain ⟨-, ⟨f, -, rfl⟩ | ⟨i, hf, -, he⟩⟩ := step_cases h
  · exact hinv.with_run _
  · exact hinv.of_effect hf he

end Sys2Proof.Machine

/-! PROOFS. The statements on memory and on the fetch from it (spec/20_memory.md): which fetches fault, what a step and an
instruction leave unchanged, and that a load or fetch after a store reads the bytes stored. -/

namespace Sys2Proof.Machine

/-! ## Fetches that fault (20_memory.md R43, R45, 60_exceptions.md R322) -/

/-- When the first word cannot be read, there is no instruction, and its fault is the fetch's. -/
theorem fetchInstr_of_fetchFirst_error {s : State} {f : FaultInfo} (h : fetchFirst s = .error f) :
    fetchInstr s = .error f := by
  rw [fetchInstr, h]

/-- A fetch at a `pc` that is not a multiple of 8, whatever lies there (20_memory.md R43). -/
theorem fetchFirst_of_misaligned {s : State} (h : s.pc.toNat % 8 ≠ 0) :
    fetchFirst s = .error ⟨.misalignedFetch, s.pc⟩ := by
  rcases fetchFirst_cases s with ⟨-, hf⟩ | ⟨ha, -⟩ | ⟨-, ha, -⟩
  · exact hf
  · exact absurd ha h
  · exact absurd ha h

/-- A fetch at an aligned `pc` outside memory or past the top of the 64 bits (20_memory.md R45, 10_state.md R24). -/
theorem fetchFirst_of_outside {s : State} (ha : s.pc.toNat % 8 = 0)
    (h : s.pcWrapped = true ∨ s.par.memSize < s.pc.toNat + 8) : fetchFirst s = .error ⟨.memOutOfRange, s.pc⟩ := by
  rcases fetchFirst_cases s with ⟨hn, -⟩ | ⟨-, -, hf⟩ | ⟨-, -, hp, hle, -⟩
  · exact absurd ha hn
  · exact hf
  · rcases h with hw | hlt
    · simp [hp] at hw
    · omega

/-- The first word of a 16-byte instruction asks for the immediate (30_encoding.md R65). -/
theorem decodeWord_firstWord_of_length {i : Instr} (h : i.length = 16) :
    ∃ f, decodeWord (firstWord i) = .ok (.needsImm f) := by
  rcases decodeWord_encode i with ⟨w, he, -⟩ | ⟨w, imm, f, he, hd, -⟩
  · simp [Instr.length, he] at h
  · exact ⟨f, by rw [firstWord, he]; exact hd⟩

/-- A fetch of an instruction whose second word does not lie in memory (60_exceptions.md R322 (5)). -/
theorem fetchInstr_of_second_outside {s : State} {i : Instr} (hw : WordAtPc s (firstWord i)) (hl : i.length = 16)
    (hlt : s.par.memSize < s.pc.toNat + 16) : fetchInstr s = .error ⟨.memOutOfRange, s.pc + 8⟩ := by
  obtain ⟨f, hf⟩ := decodeWord_firstWord_of_length hl
  rcases fetchSecond_cases s with ⟨hle, -⟩ | ⟨-, hs⟩
  · omega
  · rw [fetchInstr, fetchFirst_of_wordAtPc hw]
    simp only [hf, hs]
    rfl

/-- An advance by whole words keeps `pc` a multiple of 8, also when it passes the top. -/
theorem PcAdvanced.aligned {len : Word} {s t : State} (h : PcAdvanced len s t) (ha : s.pc.toNat % 8 = 0)
    (hl : len.toNat % 8 = 0) : t.pc.toNat % 8 = 0 := by
  obtain ⟨hpc, -⟩ := h
  rw [hpc, BitVec.toNat_add]
  omega

/-- Settles O9: the first check of the fetch, and the two ways `pc` goes on without a transfer of control. -/
theorem misalignedFetchFaults : Obligations.MisalignedFetchFaults := by
  constructor
  · intro s hr hn
    exact step_of_fetch_error hr (fetchInstr_of_fetchFirst_error (fetchFirst_of_misaligned hn))
  · intro i s t ht ha h
    rcases (effect_of_exec h).pc_cases with hadv | ⟨htr, -⟩ | ⟨-, hpc, -⟩
    · have hlen := toNat_ofNat_length i
      have hwords := length_eq_or i
      exact hadv.aligned ha (by omega)
    · simp [ht] at htr
    · rwa [hpc]

/-- Settles O10: the first word outside memory, and the second. -/
theorem fetchOutsideMemoryFaults : Obligations.FetchOutsideMemoryFaults := by
  constructor
  · intro s hr ha hout
    exact step_of_fetch_error hr (fetchInstr_of_fetchFirst_error (fetchFirst_of_outside ha hout))
  · intro s i hw hl hlt
    have ⟨hr, _⟩ := hw
    exact step_of_fetch_error hr (fetchInstr_of_second_outside hw hl hlt)

/-! ## What a step leaves unchanged (20_memory.md R40, R44) -/

/-- Settles O16: neither a fault of the fetch nor an instruction's effect reaches the parameters. -/
theorem stepKeepsParameters : Obligations.StepKeepsParameters := by
  intro s t h
  obtain ⟨-, ⟨f, -, rfl⟩ | ⟨i, -, -, he⟩⟩ := step_cases h
  · rfl
  · exact he.par_eq

theorem SameBytes.outside {s t : State} (h : SameBytes s t) (addr n : Nat) : SameBytesOutside addr n s t :=
  fun a _ => h a

/-- Which bytes an instruction may change: those of its store, if it has one. -/
theorem Effect.bytes_cases {i : Instr} {s t : State} (h : Effect i s t) :
    SameBytes s t ∨ ∃ x : Access, access i s = some x ∧ x.store = true ∧
      SameBytesOutside x.addr.toNat x.size.bytes s t := by
  rcases h.mem_cases with hm | ⟨x, v, ha, hst, -, hm⟩
  · exact .inl (sameBytes_of_mem hm)
  · exact .inr ⟨x, ha, hst, sameBytesOutside_writeBytes (disassemble_length ..) hm⟩

/-- Settles O23: an instruction has one data access at most, so the store that changed memory is the table's. -/
theorem memoryChangesOnlyWhereStored : Obligations.MemoryChangesOnlyWhereStored := by
  intro i s t h
  rcases (effect_of_exec h).bytes_cases with hsame | ⟨y, hy, hst, hout⟩
  · exact ⟨fun x _ _ => hsame.outside x.addr.toNat x.size.bytes, fun _ => hsame⟩
  · refine ⟨fun x hx _ => ?_, fun hno => ?_⟩
    · obtain rfl : y = x := Option.some.inj (hy.symm.trans hx)
      exact hout
    · simp [hno y hy] at hst

/-! ## A load after a store (20_memory.md R40, R46) -/

/-- A store into memory that has completed has put the low bytes of its register there and left registers and
parameters. -/
theorem StoreResult.of_exec {i : Instr} {sz : Size} {data : Reg} {ea : State → Word} {len : Word} {s t : State}
    (hi : StoreResult i sz data ea len) (hle : (ea s).toNat + sz.bytes ≤ s.par.memSize) (h : exec i s = .next t) :
    BytesAt t (ea s).toNat sz (low sz (s.reg data)) ∧ SameRegs s t ∧ t.par = s.par := by
  obtain ⟨t', ht', hbytes, ⟨hregs, -, -, -, -, hpar⟩, -⟩ := (hi s).1 hle
  cases ht'.symm.trans h
  exact ⟨hbytes, hregs, hpar⟩

/-- A load from memory completes with the value whose bytes stand at its address. -/
theorem LoadResult.exists_low_eq {i : Instr} {sz : Size} {rd : Reg} {ea : State → Word} {len : Word} {s : State}
    (hi : LoadResult i sz rd ea len) (hle : (ea s).toNat + sz.bytes ≤ s.par.memSize) :
    ∃ t, exec i s = .next t ∧ ∀ v, BytesAt s (ea s).toNat sz v → low sz (t.reg rd) = v := by
  obtain ⟨t, w, ht, hw, ⟨hlow, -⟩, -⟩ := (hi s).1 hle
  exact ⟨t, ht, fun v hv => hlow.trans (hw.unique hv)⟩

/-- A load of the size and from the address of the store before it gives the bytes stored, when the address depends on
the registers alone, which a store leaves. -/
theorem LoadResult.after_store {i j : Instr} {sz : Size} {data rx : Reg} {ea : State → Word} {len len' : Word}
    {s t : State} (hj : LoadResult j sz rx ea len') (hi : StoreResult i sz data ea len)
    (hea : SameRegs s t → ea t = ea s) (hle : (ea s).toNat + sz.bytes ≤ s.par.memSize) (h : exec i s = .next t) :
    ∃ u, exec j t = .next u ∧ low sz (u.reg rx) = low sz (s.reg data) := by
  obtain ⟨hbytes, hregs, hpar⟩ := hi.of_exec hle h
  have ht := hea hregs
  obtain ⟨u, hu, hval⟩ := hj.exists_low_eq (s := t) (by rw [ht, hpar]; exact hle)
  exact ⟨u, hu, hval _ (by rw [ht]; exact hbytes)⟩

/-- STOREn (or STOREV), then LOADn of the same address (43_move_load_store.md R170 (a)). -/
theorem load_after_store_imm {i j : Instr} {sz : Size} {data rx : Reg} {imm : Word} {s t : State}
    (h : exec i s = .next t) (hle : imm.toNat + sz.bytes ≤ s.par.memSize)
    (hi : ∀ s, exec i s = storeTo sz data (eaImm imm) lenRI s) (hj : ∀ s, exec j s = loadFrom sz rx (eaImm imm) lenRI s) :
    ∃ u, exec j t = .next u ∧ low sz (u.reg rx) = low sz (s.reg data) :=
  (loadFrom_result (ea := fun _ => eaImm imm) hj).after_store (storeTo_result hi) (fun _ => rfl) hle h

/-- STORERn, then LOADRn through the same address register (43_move_load_store.md R170 (a)). -/
theorem load_after_store_reg {i j : Instr} {sz : Size} {data rx ra : Reg} {s t : State}
    (h : exec i s = .next t) (hle : (s.reg ra).toNat + sz.bytes ≤ s.par.memSize)
    (hi : ∀ s, exec i s = storeTo sz data (eaReg ra s) lenShort s)
    (hj : ∀ s, exec j s = loadFrom sz rx (eaReg ra s) lenShort s) :
    ∃ u, exec j t = .next u ∧ low sz (u.reg rx) = low sz (s.reg data) :=
  (loadFrom_result (ea := eaReg ra) hj).after_store (storeTo_result hi) (fun hregs => hregs ra) hle h

/-- Settles O38: the two addressing modes at each size. -/
theorem storeThenLoadReturnsValue : Obligations.StoreThenLoadReturnsValue := by
  intro rd rx imm s t
  refine ⟨?storev, ?store1, ?store2, ?store4, ?store8, ?storer1, ?storer2, ?storer4, ?storer8⟩
  case storev | store1 | store2 | store4 | store8 =>
    exact fun hle h => load_after_store_imm h hle (fun _ => rfl) fun _ => rfl
  case storer1 | storer2 | storer4 | storer8 =>
    exact fun _ hle h => load_after_store_reg h hle (fun _ => rfl) fun _ => rfl

/-! ## The bytes of a wider store (20_memory.md R40, R41) -/

/-- A byte of a part of a value is a byte of the value. -/
theorem extractLsb'_byte {w n k : Nat} (v : BitVec w) (o : Nat) (hk : k < n) :
    (v.extractLsb' (8 * o) (8 * n)).extractLsb' (8 * k) 8 = v.extractLsb' (8 * (o + k)) 8 := by
  apply BitVec.eq_of_getLsbD_eq
  intro j hj
  have hlt : 8 * k + j < 8 * n := by omega
  simp [hj, hlt, Nat.mul_add, Nat.add_assoc]

/-- Where a part of a value stands, `o` bytes above its least significant byte: with `little` its bytes are `o` places
up from the first, with `big` `o` places down from the last. -/
theorem BytesAt.part {s : State} {a o : Nat} {sz part : Size} {v : BitVec sz.bits} (h : BytesAt s a sz v)
    (ho : o + part.bytes ≤ sz.bytes) :
    BytesAt s (a + match s.par.endian with | .little => o | .big => sz.bytes - part.bytes - o) part
      (v.extractLsb' (8 * o) part.bits) := by
  intro k hk
  rw [extractLsb'_byte v o hk, ← h (o + k) (by omega)]
  congr 1
  cases s.par.endian with
  | little => exact Nat.add_assoc ..
  | big => simp only; omega

/-- STORE8 is the shared store of 8 bytes (43_move_load_store.md R194). -/
theorem store8_result (rd : Reg) (a : Word) : StoreResult (.store8 rd a) .b8 rd (fun _ => eaImm a) 16 :=
  storeTo_result fun _ => rfl

/-- 8 bytes of a register are all of it (00_scope.md R5). -/
@[simp] theorem low_b8 (w : Word) : low .b8 w = w := BitVec.setWidth_eq w

/-- STORE8 puts the whole register into memory. -/
theorem bytesAt_of_store8 {rd : Reg} {a : Word} {s t : State} (hle : a.toNat + 8 ≤ s.par.memSize)
    (h : exec (.store8 rd a) s = .next t) : BytesAt t a.toNat .b8 (s.reg rd) ∧ t.par = s.par := by
  obtain ⟨hbytes, -, hpar⟩ := (store8_result rd a).of_exec hle h
  rw [low_b8] at hbytes
  exact ⟨hbytes, hpar⟩

/-- Settles O39: each narrow load reads a part of the value stored, whose place the byte order gives. -/
theorem narrowLoadSeesTheStoredBytes : Obligations.NarrowLoadSeesTheStoredBytes := by
  intro rd rx a s t hwf hle h
  obtain ⟨hbytes, hpar⟩ := bytesAt_of_store8 hle h
  have hmem := memSize_le_of_wf hwf
  have ha4 : (a + 4).toNat = a.toNat + 4 := BitVec.toNat_add_of_lt (by simp; omega)
  have hload1 : LoadResult (.load1 rx a) .b1 rx (fun _ => a) 16 := loadFrom_result fun _ => rfl
  have hload4 : LoadResult (.load4 rx (a + 4)) .b4 rx (fun _ => a + 4) 16 := loadFrom_result fun _ => rfl
  obtain ⟨u, hu, hval1⟩ := hload1.exists_low_eq (s := t) (show a.toNat + 1 ≤ t.par.memSize by rw [hpar]; omega)
  obtain ⟨v, hv, hval4⟩ := hload4.exists_low_eq (s := t) (show (a + 4).toNat + 4 ≤ t.par.memSize by rw [hpar]; omega)
  rw [ha4] at hval4
  refine ⟨u, v, hu, hv, fun he => ?little, fun he => ?big⟩
  case little =>
    have low1 := hbytes.part (o := 0) (part := .b1) (by decide)
    have high4 := hbytes.part (o := 4) (part := .b4) (by decide)
    rw [hpar, he] at low1 high4
    exact ⟨hval1 _ low1, hval4 _ high4⟩
  case big =>
    have high1 := hbytes.part (o := 7) (part := .b1) (by decide)
    have low4 := hbytes.part (o := 0) (part := .b4) (by decide)
    rw [hpar, he] at high1 low4
    exact ⟨hval1 _ high1, hval4 _ low4⟩

/-! ## A fetch after a store (20_memory.md R52) -/

/-- A fetch at any aligned address in memory reads the word that stands there. -/
theorem fetchWord_of_bytesAt {s : State} {a w : Word} (ha : a.toNat % 8 = 0) (hle : a.toNat + 8 ≤ s.par.memSize)
    (hb : BytesAt s a.toNat .b8 w) : fetchWord s a = .ok w := by
  rw [fetchWord, if_neg (by simp [ha]), memRead_of_le (sz := .b8) hle]
  exact congrArg Except.ok ((bytesAt_readBytes s a.toNat .b8).unique hb)

/-- Settles O40: the word stored stands at the address, and the store has left MEM_SIZE. -/
theorem storeIsSeenByFetch : Obligations.StoreIsSeenByFetch := by
  intro rd a s t ha hle h
  obtain ⟨hbytes, hpar⟩ := bytesAt_of_store8 hle h
  exact fetchWord_of_bytesAt ha (by rwa [hpar]) hbytes

end Sys2Proof.Machine

/-! PROOFS. The statements on the encoding (spec/30_encoding.md): decoding and encoding undo each other on bytes, the fields
stand where R80 puts them, and a word that is no encoding of an instruction faults. -/

namespace Sys2Proof

open Sys2Proof.Machine

/-! ## Bytes that decode, and the bytes of an instruction (30_encoding.md R71, R80) -/

section EncodeBytes
variable {i : Instr} {w imm : Word} (e : Endian)

/-- The bytes of an 8-byte instruction are those of its word (20_memory.md R41). -/
theorem encodeBytes_of_encode_whole (h : encode i = [w]) : encodeBytes e i = disassemble e 8 w := by
  rw [encodeBytes, h, List.flatMap_singleton]

/-- The bytes of a 16-byte instruction are those of its first word and then those of its immediate. -/
theorem encodeBytes_of_encode_imm (h : encode i = [w, imm]) :
    encodeBytes e i = disassemble e 8 w ++ disassemble e 8 imm := by
  rw [encodeBytes, h, List.flatMap_cons, List.flatMap_singleton]

end EncodeBytes

/-- Settles O2: the first word decodes to the instruction, or asks for the immediate that the second word holds. -/
theorem decodeOfEncodeIsIdentity : Obligations.DecodeOfEncodeIsIdentity := by
  intro e i rest
  rcases decodeWord_encode i with ⟨w, henc, hdec⟩ | ⟨w, imm, f, henc, hdec, hi⟩
  · rw [encodeBytes_of_encode_whole e henc, decodeBytes, takeWord_disassemble]
    simp only [hdec]
  · rw [encodeBytes_of_encode_imm e henc, List.append_assoc, decodeBytes, takeWord_disassemble]
    simp only [hdec, takeWord_disassemble, hi]

/-- Settles O3: each word that the decoder took is a word of the encoding, and its bytes are the ones it was read from. -/
theorem encodeOfDecodeIsIdentity : Obligations.EncodeOfDecodeIsIdentity := by
  intro e bs rest i h
  rcases decodeBytes_eq_ok h with ⟨w, hw, hdec⟩ | ⟨w, mid, f, imm, hw, hdec, himm, rfl⟩
  · rw [encodeBytes_of_encode_whole e (encode_of_decodeWord_whole hdec)]
    exact takeWord_eq_some hw
  · rw [encodeBytes_of_encode_imm e (encode_of_decodeWord_needsImm hdec imm), List.append_assoc, ← takeWord_eq_some himm]
    exact takeWord_eq_some hw

/-! ## The places of the fields (30_encoding.md R61, R80): concatenation of fields as shifts -/

section Layout
variable (opc : BitVec 16) (rd rs : Reg)

theorem regField_setWidth (r : Reg) : (regField r).setWidth 64 = BitVec.ofNat 64 r.val := by
  rw [regField, BitVec.ofFin_eq_ofNat, BitVec.setWidth_ofNat_of_le_of_lt (by decide) r.isLt]

theorem opcode_append_eq_shift (low : BitVec 48) :
    (opc ++ low : Word) = opc.setWidth 64 <<< 48 ||| low.setWidth 64 := by
  rw [← BitVec.setWidth_eq (opc ++ low : Word), BitVec.setWidth_append_eq_shiftLeft_setWidth_or]

theorem wordOp_eq_shift : (opc ++ 0#48 : Word) = opc.setWidth 64 <<< 48 := by
  rw [opcode_append_eq_shift, BitVec.setWidth_zero, BitVec.or_zero]

theorem wordR_eq_shift :
    (opc ++ regField rd ++ 0#44 : Word) = opc.setWidth 64 <<< 48 ||| BitVec.ofNat 64 rd.val <<< 44 := by
  rw [← BitVec.setWidth_eq (opc ++ regField rd ++ 0#44 : Word),
    BitVec.setWidth_append_append_eq_shiftLeft_setWidth_or, regField_setWidth, BitVec.setWidth_zero, BitVec.or_zero]

theorem wordRR_eq_shift :
    (opc ++ 0#40 ++ regField rd ++ regField rs : Word) =
      opc.setWidth 64 <<< 48 ||| BitVec.ofNat 64 rd.val <<< 4 ||| BitVec.ofNat 64 rs.val := by
  rw [← BitVec.setWidth_eq (opc ++ 0#40 ++ regField rd ++ regField rs : Word),
    BitVec.setWidth_append_append_append_eq_shiftLeft_setWidth_or, regField_setWidth, regField_setWidth,
    BitVec.setWidth_zero, BitVec.zero_shiftLeft, BitVec.or_zero]

end Layout

/-- Settles O1: the words format by format, the decoder on exactly the bytes of an instruction, and the examples of R80. -/
theorem encodingPutsFieldsInPlace : Obligations.EncodingPutsFieldsInPlace := by
  refine ⟨fun i => ?words, fun i e => ?inverse, rfl, rfl, rfl, rfl, rfl⟩
  case words =>
    unfold encode
    cases fields i with
    | op opc => exact congrArg ([·]) (wordOp_eq_shift opc)
    | r opc rd => exact congrArg ([·]) (wordR_eq_shift opc rd)
    | rr opc rd rs => exact congrArg ([·]) (wordRR_eq_shift opc rd rs)
    | ri opc rd imm => exact congrArg ([·, imm]) (wordR_eq_shift opc rd)
    | riNoReg opc imm => exact congrArg ([·, imm]) (wordOp_eq_shift opc)
    | reserved opc low => exact congrArg ([·]) (opcode_append_eq_shift opc low)
  case inverse =>
    have h := decodeOfEncodeIsIdentity e i []
    rwa [List.append_nil] at h

/-- Settles O4: the decoder reads twelve fixed words, one for each format and family. -/
theorem sampleWordsDecode : Obligations.SampleWordsDecode := by
  unfold Obligations.SampleWordsDecode
  decide

/-! ## Words that are no encoding (30_encoding.md R68, R69, R71, R74) -/

/-- Step (1) of decoding refuses an opcode without a row. -/
theorem decodeWord_of_findRow_none {w : Word} (h : findRow (opcodeField w) = none) :
    decodeWord w = .error .illegalOpcode := by
  rw [decodeWord, h]

/-- Step (4) of decoding refuses a zero field that is not zero. -/
theorem decodeWord_of_zeroFieldsOk_false {w : Word} {row : Row} (h : findRow (opcodeField w) = some row)
    (hz : zeroFieldsOk row w = false) : decodeWord w = .error .illegalEncoding := by
  simp [decodeWord, h, hz]

/-- The zero fields of the format of these fields hold zero in a word (30_encoding.md R62 to R65, R69): the decoder's
`zeroFieldsOk`, said of the encoder's format. -/
def Fields.zeroFieldsOk : Fields → Word → Bool
  | .op _, w => w.extractLsb' 0 48 == 0
  | .r _ _, w => w.extractLsb' 0 44 == 0
  | .rr _ _ _, w => w.extractLsb' 8 40 == 0
  | .ri _ _ _, w => w.extractLsb' 0 44 == 0
  | .riNoReg _ _, w => w.extractLsb' 0 48 == 0
  | .reserved _ _, _ => true

/-- The opcode of an instruction has a row, and the row has the zero fields of the instruction's format. -/
theorem exists_findRow_firstWord (i : Instr) :
    ∃ row, findRow (opcodeField (firstWord i)) = some row ∧ ∀ w, zeroFieldsOk row w = (fields i).zeroFieldsOk w := by
  have htable := layoutInTable i
  have hopc := opcodeField_firstWord i
  cases hf : fields i
  all_goals
    simp only [hf, Fields.instr?] at htable hopc
    split at htable
    · rename_i hrow
      exact ⟨_, hopc ▸ hrow, fun _ => rfl⟩
    · cases htable

/-- A word with the opcode of an instruction and a zero field of its format that is not zero does not decode. -/
theorem decodeWord_of_fields_zeroFieldsOk_false {w : Word} {i : Instr} (ho : opcodeField w = opcodeField (firstWord i))
    (hz : (fields i).zeroFieldsOk w = false) : decodeWord w = .error .illegalEncoding := by
  obtain ⟨row, hrow, hzero⟩ := exists_findRow_firstWord i
  exact decodeWord_of_zeroFieldsOk_false (ho ▸ hrow) ((hzero w).trans hz)

end Sys2Proof

namespace Sys2Proof.Machine

/-! ## The step at a word that is no encoding (30_encoding.md R71) -/

/-- A step at a word that does not decode raises the decoder's fault, with that word. -/
theorem step_of_decodeWord_error {s : State} {w : Word} {x : DecodeError} (hw : WordAtPc s w)
    (h : decodeWord w = .error x) :
    step s = .next { s with run := .faulted (decodeFault x w).kind (decodeFault x w).info } := by
  have hf : fetchInstr s = .error (decodeFault x w) := by
    rw [fetchInstr, fetchFirst_of_wordAtPc hw]
    simp only [h]
  obtain ⟨hr, -⟩ := hw
  exact step_of_fetch_error hr hf

/-- Settles O5: an opcode that no instruction has is one without a row. -/
theorem unknownOpcodeFaults : Obligations.UnknownOpcodeFaults := fun _ _ hw hno =>
  step_of_decodeWord_error hw (decodeWord_of_findRow_none ((findRow_eq_none_iff _).2 hno))

/-- Settles O6: in each format the field that is not zero is the one the decoder checks; a reserved opcode has none. -/
theorem nonzeroZeroFieldFaults : Obligations.NonzeroZeroFieldFaults := by
  intro s w i hw ho hz
  have hbad : (fields i).zeroFieldsOk w = false := by
    revert hz
    cases fields i with
    | reserved => exact False.elim
    | _ => exact beq_eq_false_iff_ne.2
  exact step_of_decodeWord_error hw (decodeWord_of_fields_zeroFieldsOk_false ho hbad)

end Sys2Proof.Machine

/-! PROOFS. The statements on the system instructions (spec/40_system.md): the reserved opcodes, PARAR and NOP. -/

namespace Sys2Proof

/-! ## Decoding a reserved opcode (40_system.md R92, R93) -/

section
variable {w : Word}

/-- A reserved row takes every word with its opcode: it has no zero field (30_encoding.md R73). -/
theorem decodeWord_of_findRow_reserved {f : BitVec 48 → Instr} (h : findRow (opcodeField w) = some (.reserved f)) :
    decodeWord w = .ok (.whole (f (w.extractLsb' 0 48))) := by
  rw [decodeWord, h]
  rfl

theorem decodeWord_reserved00A3 (h : opcodeField w = 0x00A3#16) :
    decodeWord w = .ok (.whole (.reserved00A3 (w.extractLsb' 0 48))) :=
  decodeWord_of_findRow_reserved (h ▸ rfl)

theorem decodeWord_reserved00A4 (h : opcodeField w = 0x00A4#16) :
    decodeWord w = .ok (.whole (.reserved00A4 (w.extractLsb' 0 48))) :=
  decodeWord_of_findRow_reserved (h ▸ rfl)

end

end Sys2Proof

namespace Sys2Proof.Machine

/-! ## The step at a word that is a whole instruction (00_scope.md R16) -/

/-- A step at the word of an 8-byte instruction runs the instruction. -/
theorem step_of_decodeWord_whole {s : State} {w : Word} {i : Instr} (hw : WordAtPc s w)
    (h : decodeWord w = .ok (.whole i)) : step s = exec i s := by
  have hf : fetchInstr s = .ok i := by
    rw [fetchInstr, fetchFirst_of_wordAtPc hw]
    simp only [h]
  obtain ⟨hr, -⟩ := hw
  exact step_of_fetch_ok hr hf

/-! ## What the system instructions do (40_system.md R90 to R93) -/

section
variable (s : State) (rest : BitVec 48)

theorem exec_parar : exec .parar s = .next { s with run := .halted } := rfl

theorem exec_nop : exec .nop s = .next (s.advance lenShort) := rfl

theorem exec_reserved00A3 :
    exec (.reserved00A3 rest) s = .next { s with run := .faulted .illegalOpcode (0x00A3#16 ++ rest) } := rfl

theorem exec_reserved00A4 :
    exec (.reserved00A4 rest) s = .next { s with run := .faulted .illegalOpcode (0x00A4#16 ++ rest) } := rfl

end

/-- Settles O56: the word decodes to the reserved instruction with its low 48 bits, and the opcode before those bits is the
word again. -/
theorem reservedOpcodesFault : Obligations.ReservedOpcodesFault := by
  refine ⟨fun s w hw ho => ?_, fun s rest => ⟨exec_reserved00A3 s rest, exec_reserved00A4 s rest⟩⟩
  rcases ho with (ho : opcodeField w = 0x00A3#16) | (ho : opcodeField w = 0x00A4#16)
  · rw [step_of_decodeWord_whole hw (decodeWord_reserved00A3 ho), exec_reserved00A3, ← ho, opcode_append_low]
  · rw [step_of_decodeWord_whole hw (decodeWord_reserved00A4 ho), exec_reserved00A4, ← ho, opcode_append_low]

/-- Settles O54: the state after PARAR differs in the run state alone, and Halted has no step. -/
theorem pararHalts : Obligations.PararHalts :=
  ⟨rfl, fun s => ⟨_, exec_parar s, rfl, rfl, rfl, step_of_halted rfl⟩⟩

/-- Settles O55: NOP is the advance of `pc` by the length of a one-word instruction. -/
theorem nopOnlyAdvancesPc : Obligations.NopOnlyAdvancesPc := ⟨rfl, exec_nop⟩

end Sys2Proof.Machine

/-! PROOFS. The statements on integer arithmetic and on logic (spec/41_arithmetic.md, spec/42_logic_shift.md): the values the
rules give are the machine's operations on bit vectors, and each shared shape writes its value in every state. -/

namespace Sys2Proof.Machine

/-! ## The values of the rules as operations on bit vectors (41_arithmetic.md R139, R140, 42_logic_shift.md R151) -/

section Values
variable {w : Nat} (a b : BitVec w)

theorem sumMod_eq_add : sumMod a b = a + b := (BitVec.add_def a b).symm

theorem diffMod_eq_sub : diffMod a b = a - b := ofInt_toNat_sub_toNat a b

theorem productUnsigned_eq_mul : productUnsigned a b = a * b := by
  rw [productUnsigned, BitVec.ofNat_mul, BitVec.ofNat_toNat, BitVec.ofNat_toNat, BitVec.setWidth_eq, BitVec.setWidth_eq]

theorem productSigned_eq_mul : productSigned a b = a * b := by
  rw [productSigned, BitVec.ofInt_mul, BitVec.ofInt_toInt, BitVec.ofInt_toInt]

/-- The sign of the operands is lost in the low bits of the product. -/
theorem productUnsigned_eq_productSigned : productUnsigned a b = productSigned a b :=
  (productUnsigned_eq_mul a b).trans (productSigned_eq_mul a b).symm

theorem productUnsigned_eq_mulUnsigned : productUnsigned a b = mulUnsigned a b := rfl

theorem productSigned_eq_mulSigned : productSigned a b = mulSigned a b := rfl

/-- The complement of every bit is the distance from the word of ones. -/
theorem ofNat_sub_toNat_eq_not : BitVec.ofNat w (2 ^ w - 1 - a.toNat) = ~~~a := by
  rw [← BitVec.toNat_not, BitVec.ofNat_toNat, BitVec.setWidth_eq]

end Values

/-! ## The shared shapes, with the value as the rule gives it (41_arithmetic.md R100) -/

section Shapes
variable {i j : Instr} {sz : Size} {rd rs : Reg} {imm : Word}

theorem regReg_of_aluRR {f g : BitVec sz.bits → BitVec sz.bits → BitVec sz.bits} (hfg : ∀ a b, f a b = g a b)
    (h : ∀ s, exec i s = aluRR sz g rd rs s) : RegReg i sz f rd rs := by
  obtain rfl : f = g := funext₂ hfg
  exact aluRR_result f h

theorem regImm_of_aluRI {f g : BitVec sz.bits → BitVec sz.bits → BitVec sz.bits} (hfg : ∀ a b, f a b = g a b)
    (h : ∀ s, exec i s = aluRI sz g rd imm s) : RegImm i sz f rd imm := by
  obtain rfl : f = g := funext₂ hfg
  exact aluRI_result f h

theorem regOnly_of_aluR {f g : BitVec sz.bits → BitVec sz.bits} (hfg : ∀ a, f a = g a)
    (h : ∀ s, exec i s = aluR sz g rd s) : RegOnly i sz f rd := by
  obtain rfl : f = g := funext hfg
  exact aluR_result f h

/-- Two instructions that write one function of the same two operands give one result. -/
theorem RegReg.sameResult {f g : BitVec sz.bits → BitVec sz.bits → BitVec sz.bits} (hi : RegReg i sz f rd rs)
    (hj : RegReg j sz g rd rs) (hfg : ∀ a b, f a b = g a b) : SameResult i j sz rd rs := by
  intro s₁ s₂ hrd hrs
  obtain ⟨t₁, h₁, ⟨hlow₁, -⟩, -⟩ := hi s₁
  obtain ⟨t₂, h₂, ⟨hlow₂, -⟩, -⟩ := hj s₂
  refine ⟨t₁, t₂, h₁, h₂, ?_⟩
  calc t₁.regLow sz rd
      _ = f (s₁.regLow sz rd) (s₁.regLow sz rs) := hlow₁
      _ = g (s₂.regLow sz rd) (s₂.regLow sz rs) := by rw [hrd, hrs, hfg]
      _ = t₂.regLow sz rd := hlow₂.symm

end Shapes

/-! ## Addition, subtraction and logic (41_arithmetic.md R139, 42_logic_shift.md R150) -/

/-- Settles O25: the machine's addition is the sum modulo 2^W, in each of the three formats. -/
theorem additionResults : Obligations.AdditionResults := by
  intro rd rs imm
  refine ⟨?add, ?add1, ?add2, ?add4, ?add8, ?addv, ?addv1, ?addv2, ?addv4, ?addv8, ?inc⟩
  case add | add1 | add2 | add4 | add8 => exact regReg_of_aluRR sumMod_eq_add fun _ => rfl
  case addv | addv1 | addv2 | addv4 | addv8 => exact regImm_of_aluRI sumMod_eq_add fun _ => rfl
  case inc => exact regOnly_of_aluR (fun a => sumMod_eq_add a 1) fun _ => rfl

/-- Settles O26: the machine's subtraction is the difference modulo 2^W, in each of the three formats. -/
theorem subtractionResults : Obligations.SubtractionResults := by
  intro rd rs imm
  refine ⟨?sub, ?sub1, ?sub2, ?sub4, ?sub8, ?subv, ?subv1, ?subv2, ?subv4, ?subv8, ?dec⟩
  case sub | sub1 | sub2 | sub4 | sub8 => exact regReg_of_aluRR diffMod_eq_sub fun _ => rfl
  case subv | subv1 | subv2 | subv4 | subv8 => exact regImm_of_aluRI diffMod_eq_sub fun _ => rfl
  case dec => exact regOnly_of_aluR (fun a => diffMod_eq_sub a 1) fun _ => rfl

/-- Settles O31: CLR reads no operand, NOT complements, and the others have the operation of the rule. -/
theorem logicResults : Obligations.LogicResults := by
  intro rd rs imm
  refine ⟨?clr, ?not, ?and, ?andv, ?or, ?orv, ?xor, ?xorv⟩
  case clr => exact fun _ => ⟨_, rfl, aluFinish_spec ..⟩
  case not => exact regOnly_of_aluR ofNat_sub_toNat_eq_not fun _ => rfl
  case and | or | xor => exact aluRR_result _ fun _ => rfl
  case andv | orv | xorv => exact aluRI_result _ fun _ => rfl

/-! ## Multiplication (41_arithmetic.md R140) -/

/-- Settles O27: the products of the rules are those of the machine. -/
theorem multiplicationResults : Obligations.MultiplicationResults := by
  intro rd rs
  refine ⟨?mul, ?mul1, ?mul2, ?mul4, ?mul8, ?muls, ?muls1, ?muls2, ?muls4, ?muls8⟩
  case mul | mul1 | mul2 | mul4 | mul8 => exact regReg_of_aluRR productUnsigned_eq_mulUnsigned fun _ => rfl
  case muls | muls1 | muls2 | muls4 | muls8 => exact regReg_of_aluRR productSigned_eq_mulSigned fun _ => rfl

/-- Settles O28: both products are the product of bit vectors, so MUL and MULS of a size write the same function of their
operands. -/
theorem mulAndMulsWriteTheSame : Obligations.MulAndMulsWriteTheSame := by
  refine ⟨fun _ => productUnsigned_eq_productSigned, fun rd rs => ?_⟩
  obtain ⟨mul, mul1, mul2, mul4, mul8, muls, muls1, muls2, muls4, muls8⟩ := multiplicationResults rd rs
  exact ⟨mul.sameResult muls productUnsigned_eq_productSigned, mul1.sameResult muls1 productUnsigned_eq_productSigned,
    mul2.sameResult muls2 productUnsigned_eq_productSigned, mul4.sameResult muls4 productUnsigned_eq_productSigned,
    mul8.sameResult muls8 productUnsigned_eq_productSigned⟩

/-! ## Division (41_arithmetic.md R141) -/

/-- Each instruction that the table of divisions lists is the shared division, at the size and on the registers listed. -/
theorem divResult_of_divides {i : Instr} {sz : Size} {rd rs : Reg} (h : divides i = some (sz, rd, rs)) :
    DivResult i sz rd rs := by
  cases i with
  | div | div1 | div2 | div4 | div8 =>
    cases h
    exact divRR_result fun _ => rfl
  | _ => cases h

/-- Settles O29: the five instructions of the table of divisions. -/
theorem divisionResults : Obligations.DivisionResults := fun _ _ =>
  ⟨divResult_of_divides rfl, divResult_of_divides rfl, divResult_of_divides rfl, divResult_of_divides rfl,
    divResult_of_divides rfl⟩

/-- On values whose top bits are 0 the signed quotient rounded toward zero is the unsigned one. -/
theorem ofInt_tdiv_of_msb_false {w : Nat} {a b : BitVec w} (ha : a.msb = false) (hb : b.msb = false) :
    BitVec.ofInt w (a.toInt.tdiv b.toInt) = BitVec.ofNat w (a.toNat / b.toNat) := by
  rw [BitVec.toInt_eq_toNat_of_msb ha, BitVec.toInt_eq_toNat_of_msb hb, ← Int.ofNat_tdiv, BitVec.ofInt_natCast]

/-- A value whose top bit is 0 is not -1. -/
theorem toInt_ne_neg_one_of_msb_false {w : Nat} {b : BitVec w} (hb : b.msb = false) : b.toInt ≠ -1 := by
  rw [BitVec.toInt_eq_toNat_of_msb hb]
  omega

/-- Settles O30: the unsigned quotient is that of the rule, and under `DIV_SIGNED` there is no overflow and the quotient is
the same. -/
theorem divisionOfNonnegativesIgnoresSign : Obligations.DivisionOfNonnegativesIgnoresSign := by
  intro i sz rd rs s hd ha hb h0
  obtain ⟨hunsigned, hsigned, -, -⟩ := divResult_of_divides hd s
  cases hp : s.par.divSigned with
  | false => exact hunsigned h0 hp
  | true =>
    rw [← ofInt_tdiv_of_msb_false ha hb]
    exact hsigned h0 hp fun ⟨_, hneg⟩ => toInt_ne_neg_one_of_msb_false hb hneg

end Sys2Proof.Machine

/-! PROOFS. The statement on the shifts (spec/42_logic_shift.md R158 to R161): each shift of a bit vector is the product or the
floored quotient by a power of 2 that its rule gives. -/

namespace Sys2Proof.Machine

/-! ## Shifts as arithmetic (42_logic_shift.md R158 to R161) -/

section ShiftValues
variable {w : Nat} (a : BitVec w) (k : Nat)

/-- The bits that a left shift loses are the multiples of `2 ^ w` in the product. -/
theorem shiftLeft_eq_ofNat_mul_two_pow : a <<< k = BitVec.ofNat w (a.toNat * 2 ^ k) :=
  congrArg (BitVec.ofNat w) (Nat.shiftLeft_eq a.toNat k)

/-- The arithmetic shift rounds toward minus infinity, as the division of integers by a positive divisor does. -/
theorem sshiftRight_eq_ofInt_div_two_pow : a.sshiftRight k = BitVec.ofInt w (a.toInt / 2 ^ k) := by
  rw [BitVec.sshiftRight, Int.shiftRight_eq_div_pow, Int.natCast_pow, Int.cast_ofNat_Int]

theorem ushiftRight_eq_ofNat_div_two_pow : a >>> k = BitVec.ofNat w (a.toNat / 2 ^ k) := by
  rw [← Nat.shiftRight_eq_div_pow, ← BitVec.toNat_ushiftRight, BitVec.ofNat_toNat, BitVec.setWidth_eq]

end ShiftValues

/-- The shape of a shift: `aluR` on all 64 bits, with an operation that may read the parameters (42_logic_shift.md R150). -/
theorem aluResult_of_aluR_b8 {i : Instr} {rd : Reg} {v : State → Word} (f : State → Word → Word)
    (h : ∀ s, exec i s = aluR .b8 (f s) rd s) (hv : ∀ s, f s (s.reg rd) = v s) : AluResult i .b8 rd v 8 := by
  intro s
  rw [← hv s, ← low_b8 (s.reg rd)]
  exact ⟨_, h s, aluFinish_spec ..⟩

/-- Settles O32: each shift runs the shared shape, with the arithmetic value of its shift by `SHIFT_COUNT`. -/
theorem shiftResults : Obligations.ShiftResults := by
  intro rd
  refine ⟨?shi, ?ushi, ?shd, ?ushd⟩
  case shi | ushi =>
    exact aluResult_of_aluR_b8 (fun s a => a <<< s.par.shiftCount.val) (fun _ => rfl)
      fun _ => shiftLeft_eq_ofNat_mul_two_pow ..
  case shd =>
    exact aluResult_of_aluR_b8 (fun s a => a.sshiftRight s.par.shiftCount.val) (fun _ => rfl)
      fun _ => sshiftRight_eq_ofInt_div_two_pow ..
  case ushd =>
    exact aluResult_of_aluR_b8 (fun s a => a >>> s.par.shiftCount.val) (fun _ => rfl)
      fun _ => ushiftRight_eq_ofNat_div_two_pow ..

end Sys2Proof.Machine

/-! PROOFS. The statements on moves, loads and stores (spec/43_move_load_store.md R170 to R198): each instruction is a shared shape
of its size, and the shape does in every state what the rules say. -/

namespace Sys2Proof.Machine

/-! ## Moves (43_move_load_store.md R172, R175 to R182) -/

/-- All that a move does. -/
theorem moveFinish_result {i : Instr} {sz : Size} {rd : Reg} {v : State → BitVec sz.bits} {len : Word}
    (h : ∀ s, exec i s = .next (moveFinish sz rd (v s) len s)) : MoveResult i sz rd v len := fun s =>
  ⟨_, h s, moveFinish_spec ..⟩

/-- LOADV sets the register outright, which is the move of all 8 bytes: there are no upper bits (00_scope.md R9). -/
theorem exec_loadv (rd : Reg) (imm : Word) (s : State) :
    exec (.loadv rd imm) s = .next (moveFinish .b8 rd imm lenRI s) :=
  congrArg Host.Outcome.next (moveFinish_b8 rd imm lenRI s).symm

/-- Settles O35: LOADV is a move of 8 bytes, and the others are the shared move at their size. -/
theorem moveResults : Obligations.MoveResults := by
  intro rd rs imm
  refine ⟨?loadv, ?mov1, ?mov2, ?mov4, ?mov8, ?movv1, ?movv2, ?movv4, ?movv8⟩
  case loadv => exact moveFinish_result (exec_loadv rd imm)
  case mov1 | mov2 | mov4 | mov8 | movv1 | movv2 | movv4 | movv8 => exact moveFinish_result fun _ => rfl

/-! ## Loads and stores (43_move_load_store.md R170, R171, R173, R174, R183 to R198) -/

/-- Settles O36: each load is the shared load of its size, from the effective address of its mode. -/
theorem loadResults : Obligations.LoadResults := by
  intro rd rs imm
  refine ⟨?load, ?load1, ?load2, ?load4, ?load8, ?loadr, ?loadr1, ?loadr2, ?loadr4, ?loadr8⟩
  case load | load1 | load2 | load4 | load8 => exact loadFrom_result (ea := fun _ => eaImm imm) fun _ => rfl
  case loadr | loadr1 | loadr2 | loadr4 | loadr8 => exact loadFrom_result (ea := eaReg rs) fun _ => rfl

/-- Settles O37: each store is the shared store of its size, to the effective address of its mode; STORERn takes it from RD. -/
theorem storeResults : Obligations.StoreResults := by
  intro rd rs imm
  refine ⟨?storev, ?store1, ?store2, ?store4, ?store8, ?storer1, ?storer2, ?storer4, ?storer8, ?roles⟩
  case storev | store1 | store2 | store4 | store8 => exact storeTo_result (ea := fun _ => eaImm imm) fun _ => rfl
  case storer1 | storer2 | storer4 | storer8 =>
    exact storeTo_result (ea := eaReg (storerRoles rd rs).1) fun _ => rfl
  case roles => rfl

end Sys2Proof.Machine

/-! PROOFS. The statements on the compares, on the jumps after a CMP and on the flag instructions (spec/44_compare_flags.md R220 to
R238): each instruction is a shared shape, and a jump after a CMP tests an order through the flags of the difference. -/

namespace Sys2Proof.Machine

/-! ## The compares (44_compare_flags.md R220 to R230) -/

/-- Settles O41: each compare is the shared one, at its size, of a register and of a register or the immediate. -/
theorem compareResults : Obligations.CompareResults := by
  intro rd rs imm
  refine ⟨?cmp, ?cmp1, ?cmp2, ?cmp4, ?cmp8, ?cmpv, ?cmpv1, ?cmpv2, ?cmpv4, ?cmpv8⟩
  case cmp | cmp1 | cmp2 | cmp4 | cmp8 | cmpv | cmpv1 | cmpv2 | cmpv4 | cmpv8 => exact compare_result fun _ => rfl

/-! ## The flag instructions (44_compare_flags.md R231 to R238) -/

/-- Settles O44: each flag instruction is the shared one with the update of its flag. -/
theorem flagInstructionResults : Obligations.FlagInstructionResults := by
  refine ⟨⟨rfl, ?clrZ⟩, ⟨rfl, ?setZ⟩, ⟨rfl, ?clrN⟩, ⟨rfl, ?setN⟩, ⟨rfl, ?clrC⟩, ⟨rfl, ?setC⟩, ⟨rfl, ?clrV⟩, ⟨rfl, ?setV⟩⟩
  case clrZ | setZ | clrN | setN | clrC | setC | clrV | setV => exact setFlags_result _ fun _ => rfl

/-! ## A jump after a compare (45_jump_call_stack.md R251 to R258) -/

/-- CMP compares the whole registers. -/
theorem exists_exec_cmp_flags (rd rs : Reg) (s : State) : ∃ t : State, exec (.cmp rd rs) s = .next t ∧
    t.flags = flagsSub s.par.subCarry (s.reg rd) (s.reg rs) :=
  ⟨_, exec_cmp rd rs s, by simp [State.regLow]⟩

section JumpTarget
variable {i : Instr} {c : Bool} {k : Word} {t : State} {p : Prop} [Decidable p]

/-- Where a jump leads whose condition says `p`. -/
theorem exists_pc_of_jumpIf (h : exec i t = jumpIf c k t) (hc : c = true ↔ p) :
    ∃ u : State, exec i t = .next u ∧ u.pc = if p then k else t.pc + 16 := by
  refine ⟨_, h, ?_⟩
  rw [apply_ite State.pc, State.goTo_pc, State.advance_pc, lenRI]
  simp only [hc]

/-- Where the jump with the opposite condition leads. -/
theorem exists_pc_of_jumpIf_not (h : exec i t = jumpIf (!c) k t) (hc : c = true ↔ p) :
    ∃ u : State, exec i t = .next u ∧ u.pc = if p then t.pc + 16 else k := by
  rw [← ite_not]
  exact exists_pc_of_jumpIf h (by rw [Bool.not_eq_true', ← Bool.not_eq_true, hc])

end JumpTarget

/-- Settles O43: N xor V is the signed order of the registers, Z their equality and, under borrow, C their unsigned order; of
each pair of jumps one tests the condition and the other its opposite. -/
theorem compareThenJumpOrdersOperands : Obligations.CompareThenJumpOrdersOperands := by
  intro rd rs k s
  obtain ⟨t, ht, hflags⟩ := exists_exec_cmp_flags rd rs s
  have hsigned : t.flags.signedLess = true ↔ (s.reg rd).toInt < (s.reg rs).toInt := by
    rw [hflags]
    exact flagsSub_signedLess ..
  have heq : t.flags.z = true ↔ s.reg rd = s.reg rs := by
    rw [hflags]
    exact flagsSub_z_iff_eq ..
  have hunsigned (hb : s.par.subCarry = .borrow) : t.flags.c = true ↔ (s.reg rd).toNat < (s.reg rs).toNat := by
    rw [hflags, hb]
    exact flagsSub_c_borrow ..
  refine ⟨t, ht, ?jlt, ?jge, ?jeq, ?jne, fun hb => ⟨?jc, ?jnc⟩⟩
  case jlt => exact exists_pc_of_jumpIf rfl hsigned
  case jge => exact exists_pc_of_jumpIf_not rfl hsigned
  case jeq => exact exists_pc_of_jumpIf rfl heq
  case jne => exact exists_pc_of_jumpIf_not rfl heq
  case jc => exact exists_pc_of_jumpIf rfl (hunsigned hb)
  case jnc => exact exists_pc_of_jumpIf_not rfl (hunsigned hb)

end Sys2Proof.Machine

/-! PROOFS. The statements on jumps, calls and the stack (spec/45_jump_call_stack.md R250 to R270): each instruction is a shared shape
or a push or pop with a transfer of control, and a pop after a push reads the bytes the push has left below the old sp. -/

namespace Sys2Proof.Machine

/-! ## The jumps (45_jump_call_stack.md R250 to R258, R269) -/

/-- The signed order that R257 and R258 test is V xor N. -/
theorem Flags.signedLess_iff (f : Flags) : f.signedLess = true ↔ f.v ≠ f.n := by simp [Flags.signedLess]

theorem Flags.signedLess_eq_false_iff (f : Flags) : f.signedLess = false ↔ f.v = f.n := by simp [Flags.signedLess]

/-- All that a jump on the opposite of a condition does. -/
theorem jumpIf_not_result {i : Instr} {imm : Word} (taken : Flags → Prop) (c : Flags → Bool)
    (hc : ∀ f, c f = false ↔ taken f) (h : ∀ s, exec i s = jumpIf (!c s.flags) imm s) : JumpResult i taken imm :=
  jumpIf_result taken (!c ·) (fun f => by rw [Bool.not_eq_true', hc]) h

/-- Settles O45: each jump is the shared one, on a condition or on its opposite; JMP's condition always holds. -/
theorem jumpResults : Obligations.JumpResults := by
  intro imm
  refine ⟨?jmp, ?jeq, ?jne, ?jn, ?jnn, ?jc, ?jnc, ?jlt, ?jge⟩
  case jmp => exact jumpIf_result _ (fun _ => true) (fun _ => iff_of_true rfl trivial) fun _ => rfl
  case jeq => exact jumpIf_result _ (·.z) (fun _ => Iff.rfl) fun _ => rfl
  case jne => exact jumpIf_not_result _ (·.z) (fun _ => Iff.rfl) fun _ => rfl
  case jn => exact jumpIf_result _ (·.n) (fun _ => Iff.rfl) fun _ => rfl
  case jnn => exact jumpIf_not_result _ (·.n) (fun _ => Iff.rfl) fun _ => rfl
  case jc => exact jumpIf_result _ (·.c) (fun _ => Iff.rfl) fun _ => rfl
  case jnc => exact jumpIf_not_result _ (·.c) (fun _ => Iff.rfl) fun _ => rfl
  case jlt => exact jumpIf_result _ (·.signedLess) Flags.signedLess_iff fun _ => rfl
  case jge => exact jumpIf_not_result _ (·.signedLess) Flags.signedLess_eq_false_iff fun _ => rfl

/-! ## CALL and RET (45_jump_call_stack.md R259, R260) -/

section CallRet
variable {s : State}

theorem exec_call (imm : Word) : exec (.call imm) s = commit s ((push .b8 (s.pc + 16) s).map (·.goTo imm)) := rfl

theorem exec_ret : exec .ret s = commit s ((pop .b8 s).map fun p => p.2.goTo p.1) := rfl

theorem exec_call_of_le (imm : Word) (hn : 8 ≤ s.sp.toNat) (hle : s.sp.toNat ≤ s.par.memSize) :
    exec (.call imm) s = .next (State.goTo { s with
      mem := Memory.writeBytes s.mem (pushAddr .b8 s).toNat (disassemble s.par.endian Size.b8.bytes (s.pc + 16))
      sp := pushAddr .b8 s } imm) := by
  rw [exec_call, push_of_le (sz := .b8) _ hn hle]
  rfl

theorem exec_call_of_lt (imm : Word) (h : s.sp.toNat < 8 ∨ s.par.memSize < s.sp.toNat) :
    exec (.call imm) s = .next { s with run := .faulted .memOutOfRange (pushAddr .b8 s) } := by
  rw [exec_call, push_of_lt (sz := .b8) _ h]
  rfl

theorem exec_ret_of_le (h : s.sp.toNat + 8 ≤ s.par.memSize) :
    exec .ret s = .next (State.goTo { s with sp := s.sp + 8 }
      (assemble s.par.endian Size.b8.bytes (Memory.readBytes s.mem s.sp.toNat Size.b8.bytes))) := by
  rw [exec_ret, pop_of_le (sz := .b8) h]
  rfl

theorem exec_ret_of_lt (h : s.par.memSize < s.sp.toNat + 8) :
    exec .ret s = .next { s with run := .faulted .memOutOfRange s.sp } := by
  rw [exec_ret, pop_of_lt (sz := .b8) h]
  rfl

end CallRet

/-- Settles O46: the two outcomes of a push of 8 bytes, the first with the transfer of control after it. -/
theorem callResult : Obligations.CallResult := by
  refine fun imm s => ⟨fun hn hle => ?inside, exec_call_of_lt imm, rfl⟩
  case inside =>
    refine ⟨_, exec_call_of_le imm hn hle, bytesAt_writeBytes (s := s) rfl rfl, rfl, ⟨rfl, rfl⟩, ?frame⟩
    case frame => exact ⟨fun _ => rfl, sameBytesOutside_writeBytes (disassemble_length ..) rfl, rfl, rfl, rfl, rfl⟩

/-- Settles O47: the two outcomes of a pop of 8 bytes, the first with the transfer of control after it. -/
theorem retResult : Obligations.RetResult := fun s =>
  ⟨fun hle => ⟨_, exec_ret_of_le hle, bytesAt_readBytes s s.sp.toNat .b8, rfl, rfl, fun _ => rfl, sameBytes_of_mem rfl,
    rfl, rfl, rfl, rfl⟩, exec_ret_of_lt⟩

/-- Settles O57: after reset sp is MEM_SIZE, so no 8 bytes above it lie in memory. -/
theorem retWithEmptyStackFaults : Obligations.RetWithEmptyStackFaults := by
  have hsp : State.reset.sp.toNat = State.reset.par.memSize := rfl
  exact (retResult State.reset).2 (by omega)

/-- A pop of the size of a push leads back to the sp before it (00_scope.md R11). -/
theorem pushAddr_add_ofNat_bytes (sz : Size) (s : State) : pushAddr sz s + BitVec.ofNat 64 sz.bytes = s.sp :=
  BitVec.sub_add_cancel ..

/-- Settles O48: RET pops the bytes that CALL has pushed, and a value is determined by its bytes. -/
theorem callThenRetReturns : Obligations.CallThenRetReturns := by
  intro imm s t hn hle h
  obtain ⟨t', ht', hbytes, hsp, -, hregs, -, hflags, -, -, hpar⟩ := (callResult imm s).1 hn hle
  cases ht'.symm.trans h
  have hin : t.sp.toNat + 8 ≤ t.par.memSize := by
    rw [hsp, hpar]
    exact (pushAddr_add_bytes (sz := .b8) hn).trans_le hle
  obtain ⟨u, hu, hpop, -, husp, huregs, -, huflags, -⟩ := (retResult t).1 hin
  rw [hsp] at hpop husp
  exact ⟨u, hu, hpop.unique hbytes, husp.trans (pushAddr_add_ofNat_bytes .b8 s), fun r => (huregs r).trans (hregs r),
    huflags.trans hflags⟩

/-! ## PUSHn and POPn (45_jump_call_stack.md R261 to R268) -/

/-- Settles O49: each push is the shared push of its size. -/
theorem pushResults : Obligations.PushResults := by
  refine fun rd => ⟨?push1, ?push2, ?push4, ?push8, fun _ _ => rfl⟩
  case push1 | push2 | push4 | push8 => exact pushReg_result fun _ => rfl

/-- Settles O50: each pop is the shared pop of its size. -/
theorem popResults : Obligations.PopResults := by
  refine fun rd => ⟨?pop1, ?pop2, ?pop4, ?pop8⟩
  case pop1 | pop2 | pop4 | pop8 => exact popReg_result fun _ => rfl

/-! ## A pop after a push (45_jump_call_stack.md R270) -/

section PopAfterPush
variable {i j : Instr} {sz : Size} {rd rx : Reg} {s t : State}

/-- A push into memory that has completed has put the low bytes of its register at the new sp and left the parameters. -/
theorem PushResult.of_exec (hi : PushResult i sz rd) (hn : sz.bytes ≤ s.sp.toNat) (hle : s.sp.toNat ≤ s.par.memSize)
    (h : exec i s = .next t) :
    BytesAt t (pushAddr sz s).toNat sz (low sz (s.reg rd)) ∧ t.sp = pushAddr sz s ∧ t.par = s.par := by
  obtain ⟨t', ht', hbytes, hsp, -, -, -, -, -, -, hpar⟩ := (hi s).1 hn hle
  cases ht'.symm.trans h
  exact ⟨hbytes, hsp, hpar⟩

/-- A pop from memory completes with the value whose bytes stand at sp, and leaves memory and the parameters. -/
theorem PopResult.exists_low_eq (hi : PopResult i sz rd) (hle : s.sp.toNat + sz.bytes ≤ s.par.memSize) :
    ∃ t, exec i s = .next t ∧ (∀ v, BytesAt s s.sp.toNat sz v → low sz (t.reg rd) = v) ∧
      t.sp = s.sp + BitVec.ofNat 64 sz.bytes ∧ SameBytes s t ∧ t.par = s.par := by
  obtain ⟨t, w, ht, hw, ⟨hlow, -⟩, hsp, -, ⟨-, hmem, -, -, hpar⟩, -⟩ := (hi s).1 hle
  exact ⟨t, ht, fun v hv => hlow.trans (hw.unique hv), hsp, hmem, hpar⟩

/-- A pop of the size of the push before it gives the bytes pushed and the old sp. -/
theorem PopResult.after_push (hj : PopResult j sz rx) (hi : PushResult i sz rd) (hn : sz.bytes ≤ s.sp.toNat)
    (hle : s.sp.toNat ≤ s.par.memSize) (h : exec i s = .next t) :
    ∃ u, exec j t = .next u ∧ low sz (u.reg rx) = low sz (s.reg rd) ∧ u.sp = s.sp := by
  obtain ⟨hbytes, hsp, hpar⟩ := hi.of_exec hn hle h
  have hin : t.sp.toNat + sz.bytes ≤ t.par.memSize := by
    rw [hsp, hpar, pushAddr_add_bytes hn]
    exact hle
  obtain ⟨u, hu, hval, husp, -⟩ := hj.exists_low_eq hin
  rw [hsp] at hval husp
  exact ⟨u, hu, hval _ hbytes, husp.trans (pushAddr_add_ofNat_bytes sz s)⟩

end PopAfterPush

/-- Settles O51: the shared argument at each size. -/
theorem pushThenPopReturnsValue : Obligations.PushThenPopReturnsValue := by
  intro rd rx s t
  obtain ⟨hpush1, hpush2, hpush4, hpush8, -⟩ := pushResults rd
  obtain ⟨hpop1, hpop2, hpop4, hpop8⟩ := popResults rx
  exact ⟨hpop1.after_push hpush1, hpop2.after_push hpush2, hpop4.after_push hpush4, hpop8.after_push hpush8⟩

/-- Where memory and the byte order are unchanged, the same values stand. -/
theorem BytesAt.of_sameBytes {s t : State} {a : Nat} {sz : Size} {v : BitVec sz.bits} (h : BytesAt s a sz v)
    (hmem : SameBytes s t) (hpar : t.par = s.par) : BytesAt t a sz v := fun k hk => by
  rw [hpar, hmem]
  exact h k hk

/-- Settles O52: with `little` the low half of the value pushed stands at the new sp and the high half 4 bytes above, and the
first POP4 leaves both. -/
theorem pushEightPopFourLowHalfFirst : Obligations.PushEightPopFourLowHalfFirst := by
  intro rd ra rb s t _ he hn hle h
  obtain ⟨-, -, -, hpush, -⟩ := pushResults rd
  obtain ⟨-, -, hpopA, -⟩ := popResults ra
  obtain ⟨-, -, hpopB, -⟩ := popResults rb
  obtain ⟨hbytes, hsp, hpar⟩ := hpush.of_exec hn hle h
  rw [low_b8, ← hsp] at hbytes
  have lowHalf := hbytes.part (o := 0) (part := .b4) (by decide)
  have highHalf := hbytes.part (o := 4) (part := .b4) (by decide)
  rw [hpar, he] at lowHalf highHalf
  have htop : t.sp.toNat + 8 = s.sp.toNat := hsp ▸ pushAddr_add_bytes (sz := .b8) hn
  obtain ⟨u, hu, hvalA, huSp, hmem, hparU⟩ := hpopA.exists_low_eq (s := t)
    (show t.sp.toNat + 4 ≤ t.par.memSize by rw [hpar]; omega)
  have huNat : u.sp.toNat = t.sp.toNat + 4 := by
    rw [huSp]
    exact BitVec.toNat_add_of_lt (show t.sp.toNat + 4 < 2 ^ 64 by omega)
  obtain ⟨v, hv, hvalB, hvSp, -⟩ := hpopB.exists_low_eq (s := u)
    (show u.sp.toNat + 4 ≤ u.par.memSize by rw [hparU, hpar]; omega)
  rw [huNat] at hvalB
  refine ⟨u, v, hu, hv, hvalA _ lowHalf, hvalB _ (highHalf.of_sameBytes hmem hparU), ?sp⟩
  case sp =>
    calc v.sp
        _ = t.sp + 4 + 4 := by rw [hvSp, huSp]; rfl
        _ = pushAddr .b8 s + 8 := by rw [hsp, BitVec.add_assoc]; rfl
        _ = s.sp := pushAddr_add_ofNat_bytes .b8 s

end Sys2Proof.Machine

/-! PROOFS. The statements on the I/O instructions (spec/46_io.md R280 to R284): each makes one call at its immediate, which adds one
event to the trace or faults, and no other instruction makes a call. -/

namespace Sys2Proof.Machine

/-! ## Who makes a call (46_io.md R280, R281) -/

/-- The I/O instructions are SVIO, LOADIO and SHOWIO: none of them accesses memory, divides or is a reserved opcode. -/
theorem not_access_divides_reserved_of_ioAddress {i : Instr} {a : Word} (h : ioAddress i = some a) :
    (∀ s, access i s = none) ∧ divides i = none ∧ ∀ opc low, fields i ≠ .reserved opc low := by
  cases i with
  | svio | loadio | showio => exact ⟨fun _ => rfl, rfl, nofun⟩
  | _ => cases h

/-- An I/O instruction can fault on its I/O address only. -/
theorem FaultCause.of_ioAddress {i : Instr} {s : State} {f : FaultInfo} {a : Word} (h : FaultCause i s f)
    (hio : ioAddress i = some a) : f = ⟨.ioOutOfRange, a⟩ := by
  obtain ⟨hacc, hdiv, hres⟩ := not_access_divides_reserved_of_ioAddress hio
  cases h with
  | io b hb => rw [Option.some.inj (hb.symm.trans hio)]
  | memory x ha => simp [hacc] at ha
  | belowZero x ha => simp [hacc] at ha
  | reserved opc low _ hf => exact absurd hf (hres opc low)
  | divideByZero _ _ _ hd => simp [hdiv] at hd
  | divideOverflow _ _ _ hd => simp [hdiv] at hd

theorem Quiet.ioAddress_eq_none {i : Instr} {s : State} (h : Quiet i s) : ioAddress i = none := by
  obtain ⟨-, -, hio, -⟩ := h
  exact hio

@[simp] theorem aluFinish_ioTrace (sz : Size) (rd : Reg) (r : BitVec sz.bits) (len : Word) (s : State) :
    (aluFinish sz rd r len s).ioTrace = s.ioTrace := by simp [aluFinish]

/-- What becomes of the trace: an I/O instruction that does not fault adds one event at its address; a fault and every other
instruction leave it. -/
theorem Effect.ioTrace_cases {i : Instr} {s t : State} (h : Effect i s t) :
    (t.ioTrace = s.ioTrace ∧ (ioAddress i = none ∨ ∃ f, FaultCause i s f ∧ t.run = .faulted f.kind f.info)) ∨
      ∃ a e, ioAddress i = some a ∧ t.ioTrace = s.ioTrace ++ [e] ∧
        ((∃ b, e = .write a b) ∨ (∃ b, e = .read a b) ∨ e = .show a) := by
  cases h with
  | ioOut a e he _ _ _ hio => exact .inr ⟨a, e, hio, rfl, he.imp_right .inr⟩
  | ioIn a _ _ _ _ _ hio => exact .inr ⟨a, _, hio, rfl, .inr (.inl ⟨_, rfl⟩)⟩
  | fault f hc => exact .inl ⟨rfl, .inr ⟨f, hc, rfl⟩⟩
  | halt hi => exact .inl ⟨rfl, .inl (hi ▸ rfl)⟩
  | alu _ _ _ _ _ hq => exact .inl ⟨aluFinish_ioTrace .., .inl hq.ioAddress_eq_none⟩
  | flags _ _ hq => exact .inl ⟨rfl, .inl hq.ioAddress_eq_none⟩
  | nop _ hq => exact .inl ⟨rfl, .inl hq.ioAddress_eq_none⟩
  | _ => exact .inl ⟨rfl, .inl ‹ioAddress i = none›⟩

/-- Settles O24: the two cases for the trace, and the fault of an I/O instruction. -/
theorem eachIoInstructionMakesOneCall : Obligations.EachIoInstructionMakesOneCall := by
  intro i s t h
  rcases (effect_of_exec h).ioTrace_cases with ⟨htrace, hwhy⟩ | ⟨a, e, hio, htrace, he⟩
  · refine ⟨fun _ => htrace, fun a hio => .inl ?faulted⟩
    case faulted =>
      rcases hwhy with hn | ⟨f, hc, hrun⟩
      · simp [hio] at hn
      · obtain rfl := hc.of_ioAddress hio
        exact ⟨hrun, htrace⟩
  · refine ⟨fun hn => by simp [hio] at hn, fun b hb => .inr ⟨e, htrace, ?address⟩⟩
    case address =>
      obtain rfl : a = b := Option.some.inj (hio.symm.trans hb)
      rcases he with ⟨_, rfl⟩ | ⟨_, rfl⟩ | rfl <;> rfl

/-! ## What each I/O instruction does (46_io.md R282 to R284) -/

section IoCall
variable {s : State} {a : Word} {e : IOEvent} (f : State → State)

theorem commit_ioCall_of_lt (h : a.toNat < s.par.ioSize) :
    commit s ((ioCall a e s).map f) = .next (f { s with ioTrace := s.ioTrace ++ [e] }) := by
  rw [ioCall_of_lt e h]
  rfl

theorem commit_ioCall_of_le (h : s.par.ioSize ≤ a.toNat) :
    commit s ((ioCall a e s).map f) = .next { s with run := .faulted .ioOutOfRange a } := by
  rw [ioCall_of_le e h]
  rfl

end IoCall

/-- A read takes its draw after the call, so what follows it follows the call (46_io.md R280). -/
theorem ioRead_map (a : Word) (s : State) (g : State → State) :
    (ioRead a s).map g = (ioCall a (.read a (ioAnswer s)) s).map fun t => g { t with draws := s.draws + 1 } :=
  (LawfulFunctor.comp_map _ g (ioCall a (.read a (ioAnswer s)) s)).symm

section ExecIo
variable (rd : Reg) (imm : Word) (s : State)

/-- SVIO writes the low byte of its register (46_io.md R282). -/
theorem exec_svio : exec (.svio rd imm) s =
    commit s ((ioCall imm (.write imm ((s.reg rd).extractLsb' 0 8)) s).map (·.advance 16)) := rfl

/-- LOADIO moves the answer, which is a draw, to the low byte of its register (46_io.md R283). -/
theorem exec_loadio : exec (.loadio rd imm) s =
    commit s ((ioCall imm (.read imm (ioAnswer s)) s).map
      fun t => moveFinish .b1 rd (ioAnswer s) 16 { t with draws := s.draws + 1 }) :=
  congrArg (commit s) (ioRead_map ..)

theorem exec_showio : exec (.showio imm) s = commit s ((ioCall imm (.show imm) s).map (·.advance 16)) := rfl

end ExecIo

/-- All that SVIO or SHOWIO does inside the I/O range: the trace gets its event and `pc` advances. -/
theorem exists_exec_of_commit_ioCall_advance {i : Instr} {s : State} {a : Word} {e : IOEvent}
    (h : exec i s = commit s ((ioCall a e s).map (·.advance 16))) (hlt : a.toNat < s.par.ioSize) :
    ∃ t : State, exec i s = .next t ∧ t.ioTrace = s.ioTrace ++ [e] ∧ PcAdvanced 16 s t ∧ SameRegs s t ∧
      SameBytes s t ∧ t.sp = s.sp ∧ t.flags = s.flags ∧ t.run = s.run ∧ t.par = s.par :=
  ⟨_, h.trans (commit_ioCall_of_lt _ hlt), rfl, advance_pcAdvanced .., fun _ => rfl, sameBytes_of_mem rfl,
    rfl, rfl, rfl, rfl⟩

/-- All that LOADIO does inside the I/O range: it is a move of the answer, after the event. -/
theorem exists_exec_loadio_of_lt (rd : Reg) {imm : Word} {s : State} (hlt : imm.toNat < s.par.ioSize) :
    ∃ (t : State) (b : Byte), exec (.loadio rd imm) s = .next t ∧ t.ioTrace = s.ioTrace ++ [.read imm b] ∧
      WroteLow .b1 rd b s t ∧ PcAdvanced 16 s t ∧ t.sp = s.sp ∧ RegFrame rd s t := by
  obtain ⟨hwrote, hpc, hframe, hsp, htrace⟩ := moveFinish_spec .b1 rd (ioAnswer s) 16
    { s with ioTrace := s.ioTrace ++ [.read imm (ioAnswer s)], draws := s.draws + 1 }
  exact ⟨_, _, (exec_loadio rd imm s).trans (commit_ioCall_of_lt _ hlt), htrace, hwrote, hpc, hsp, hframe⟩

/-- Settles O53: the two outcomes of the call that each of the three instructions makes. -/
theorem ioInstructionResults : Obligations.IoInstructionResults := by
  refine fun rd imm s => ⟨fun hlt => ⟨?svio, ?loadio, ?showio⟩, fun hle => ⟨?svioFault, ?loadioFault, ?showioFault⟩⟩
  case svio => exact exists_exec_of_commit_ioCall_advance (exec_svio rd imm s) hlt
  case loadio => exact exists_exec_loadio_of_lt rd hlt
  case showio => exact exists_exec_of_commit_ioCall_advance (exec_showio imm s) hlt
  case svioFault => exact (exec_svio rd imm s).trans (commit_ioCall_of_le _ hle)
  case loadioFault => exact (exec_loadio rd imm s).trans (commit_ioCall_of_le _ hle)
  case showioFault => exact (exec_showio imm s).trans (commit_ioCall_of_le _ hle)

end Sys2Proof.Machine

/-! PROOFS. The statements on the floating-point instructions (spec/47_fpu.md R290 to R308): each has a shared shape of the
arithmetic instructions, with its function of the fp record, and so depends on its operands alone. -/

namespace Sys2Proof.Machine

/-- Settles O33: the two-operand instructions have format RR, the others format R. -/
theorem floatingPointResults : Obligations.FloatingPointResults := by
  intro rd rs
  refine ⟨?fadd4, ?fsub4, ?fmul4, ?fdiv4, ?fadd8, ?fsub8, ?fmul8, ?fdiv8, ?fsqrt4, ?fsin4, ?fcos4, ?intfloat4, ?fsqrt8, ?fsin8,
    ?fcos8, ?intfloat8⟩
  case fadd4 | fsub4 | fmul4 | fdiv4 | fadd8 | fsub8 | fmul8 | fdiv8 => exact aluRR_result _ fun _ => rfl
  case fsqrt4 | fsin4 | fcos4 | intfloat4 | fsqrt8 | fsin8 | fcos8 | intfloat8 => exact aluR_result _ fun _ => rfl

/-! ## A result that depends on the operands alone (47_fpu.md R290) -/

section FunctionOf
variable {i : Instr} {sz : Size} {rd rs : Reg}

/-- An instruction that agrees with itself is a function of its operands: it has one next state from each state. -/
theorem SameResult.functionOf (h : SameResult i i sz rd rs) : FunctionOf i sz rd rs := by
  intro s₁ s₂ t₁ t₂ hrd hrs h₁ h₂
  obtain ⟨u₁, u₂, hu₁, hu₂, heq⟩ := h s₁ s₂ hrd hrs
  cases h₁.symm.trans hu₁
  cases h₂.symm.trans hu₂
  exact heq

theorem RegReg.functionOf {f : BitVec sz.bits → BitVec sz.bits → BitVec sz.bits} (h : RegReg i sz f rd rs) :
    FunctionOf i sz rd rs :=
  (h.sameResult h fun _ _ => rfl).functionOf

/-- A function of one operand is one of two that does not read the second. -/
theorem RegOnly.functionOf {f : BitVec sz.bits → BitVec sz.bits} (h : RegOnly i sz f rd) : FunctionOf i sz rd rd :=
  RegReg.functionOf (f := fun a _ => f a) h

end FunctionOf

/-- Settles O34: the value that each instruction writes is a function of its operands. -/
theorem floatingPointIsAFunctionOfItsOperands : Obligations.FloatingPointIsAFunctionOfItsOperands := by
  intro rd rs
  obtain ⟨fadd4, fsub4, fmul4, fdiv4, fadd8, fsub8, fmul8, fdiv8, fsqrt4, fsin4, fcos4, intfloat4, fsqrt8, fsin8, fcos8,
    intfloat8⟩ := floatingPointResults rd rs
  exact ⟨fadd4.functionOf, fsub4.functionOf, fmul4.functionOf, fdiv4.functionOf, fadd8.functionOf, fsub8.functionOf,
    fmul8.functionOf, fdiv8.functionOf, fsqrt4.functionOf, fsin4.functionOf, fcos4.functionOf, intfloat4.functionOf,
    fsqrt8.functionOf, fsin8.functionOf, fcos8.functionOf, intfloat8.functionOf⟩

end Sys2Proof.Machine

/-! PROOFS. The statement on the causes of faults (spec/60_exceptions.md R321, R322): a step that faults has met a condition of the
table, in its fetch or in the instruction it fetched. -/

namespace Sys2Proof

/-! ## The first word of an instruction (30_encoding.md R60, R70, R92) -/

/-- The decoder accepts the first word of every instruction. -/
theorem exists_decodeWord_firstWord (i : Instr) : ∃ d, decodeWord (firstWord i) = .ok d := by
  rcases decodeWord_encode i with ⟨w, he, hd⟩ | ⟨w, imm, f, he, hd, -⟩
  · exact ⟨_, by rw [firstWord, he]; exact hd⟩
  · exact ⟨_, by rw [firstWord, he]; exact hd⟩

/-- A word that the decoder refuses is the first word of no instruction. -/
theorem firstWord_ne_of_decodeWord_error {w : Word} {x : DecodeError} (h : decodeWord w = .error x) (i : Instr) :
    firstWord i ≠ w := by
  rintro rfl
  obtain ⟨d, hd⟩ := exists_decodeWord_firstWord i
  cases hd.symm.trans h

/-- An opcode with a row is the opcode of an instruction. -/
theorem exists_opcodeField_firstWord_of_findRow {opc : BitVec 16} {row : Row} (h : findRow opc = some row) :
    ∃ i : Instr, opcodeField (firstWord i) = opc := by
  by_contra hno
  rw [not_exists] at hno
  cases h.symm.trans ((findRow_eq_none_iff opc).2 hno)

theorem firstWord_of_fields_reserved {i : Instr} {opc : BitVec 16} {low : BitVec 48} (h : fields i = .reserved opc low) :
    firstWord i = opc ++ low := by
  rw [firstWord, encode, h]
  rfl

end Sys2Proof

namespace Sys2Proof.Machine

/-! ## The word at `pc` (20_memory.md R40) -/

theorem bytesAt_of_fetchWord {s : State} {a w : Word} (h : fetchWord s a = .ok w) : BytesAt s a.toNat .b8 w := by
  obtain ⟨-, -, hb⟩ := fetchWord_eq_ok h
  exact hb

theorem bytesAt_firstWord_of_fetchInstr {s : State} {i : Instr} (h : fetchInstr s = .ok i) :
    BytesAt s s.pc.toNat .b8 (firstWord i) := by
  obtain ⟨hw, -⟩ := fetchInstr_eq_ok h
  exact bytesAt_of_fetchWord hw

/-! ## The causes of a fault (60_exceptions.md R321) -/

/-- A step into Faulted has met a fault of its fetch, or a cause in the instruction it fetched. -/
theorem fault_cases_of_step {s t : State} {k : FaultKind} {info : Word} (h : step s = .next t)
    (ht : t.run = .faulted k info) :
    fetchInstr s = .error ⟨k, info⟩ ∨ ∃ i, fetchInstr s = .ok i ∧ FaultCause i s ⟨k, info⟩ := by
  obtain ⟨hr, ⟨f, hf, rfl⟩ | ⟨i, hf, hx, he⟩⟩ := step_cases h
  · cases ht
    exact .inl hf
  · rcases he.run_eq_or with hrun | rfl | ⟨f, hc, hrun⟩
    · cases hr.symm.trans (hrun.symm.trans ht)
    · cases (run_of_exec_parar hx).symm.trans ht
    · cases hrun.symm.trans ht
      exact .inr ⟨i, hf, hc⟩

/-- Settles O12: the faults of the fetch in the order of its checks, then the causes in an instruction. -/
theorem faultsHaveTheListedCauses : Obligations.FaultsHaveTheListedCauses := by
  intro s t k info h ht
  rcases fault_cases_of_step h ht with hf | ⟨i, hi, hc⟩
  · rcases fetchInstr_error_cases hf with ⟨hmis, ⟨⟩⟩ | ⟨-, hout, ⟨⟩⟩ |
      ⟨w, hw, ⟨hrow, ⟨⟩⟩ | ⟨row, hrow, hzero, ⟨⟩⟩ | ⟨g, -, hlt, ⟨⟩⟩⟩
    · exact ⟨rfl, hmis⟩
    · exact .inl ⟨rfl, hout⟩
    · exact ⟨bytesAt_of_fetchWord hw, .inr (.inr ((findRow_eq_none_iff _).1 hrow))⟩
    · exact ⟨bytesAt_of_fetchWord hw, exists_opcodeField_firstWord_of_findRow hrow,
        firstWord_ne_of_decodeWord_error (decodeWord_of_zeroFieldsOk_false hrow hzero)⟩
    · exact .inr (.inl ⟨rfl, hlt⟩)
  · cases hc with
    | memory x ha hlt => exact .inr (.inr ⟨i, x, hi, ha, rfl, .inl hlt⟩)
    | belowZero x ha hs hst hlt => exact .inr (.inr ⟨i, x, hi, ha, rfl, .inr ⟨hs, hst, hlt⟩⟩)
    | reserved opc low hopc hfields =>
      refine ⟨firstWord_of_fields_reserved hfields ▸ bytesAt_firstWord_of_fetchInstr hi, ?_⟩
      rw [opcodeField_append]
      exact hopc.imp_right .inl
    | divideByZero sz rd rs hd hb => exact ⟨rfl, i, sz, rd, rs, hi, hd, hb⟩
    | divideOverflow sz rd rs hd hs ha hb => exact ⟨rfl, hs, i, sz, rd, rs, hi, hd, ha, hb⟩
    | io a ha hle => exact ⟨hle, i, hi, ha⟩

end Sys2Proof.Machine

/-! PROOFS. The statement on loading a program (spec/70_reset_and_hazards.md R340, R345): the code words stand where the fetch
reads them, the data bytes at their addresses, and the machine starts with the invariant. -/

namespace Sys2Proof

/-! ## Legal parameters and images (00_scope.md section 4, 70_reset_and_hazards.md R345) -/

theorem Params.wf_iff (p : Params) :
    p.wf = true ↔ 0 < p.memSize ∧ p.memSize ≤ 2 ^ 64 ∧ p.codeRange.lo ≤ p.codeRange.hi ∧ p.codeRange.hi ≤ p.memSize := by
  simp only [Params.wf, Bool.and_eq_true, decide_eq_true_eq, and_assoc]

theorem Image.wf_iff (p : Params) (img : Image) :
    img.wf p = true ↔ img.base % 8 = 0 ∧ img.codeRange.hi ≤ p.memSize ∧ img.codeRange.lo ≤ p.resetPc.toNat ∧
      p.resetPc.toNat < img.codeRange.hi ∧
      ∀ c ∈ img.data, c.1 < p.memSize ∧ (c.1 < img.codeRange.lo ∨ img.codeRange.hi ≤ c.1) := by
  simp only [Image.wf, Bool.and_eq_true, Bool.or_eq_true, decide_eq_true_eq, List.all_eq_true, and_assoc]

@[simp] theorem Image.codeRange_lo (img : Image) : img.codeRange.lo = img.base := rfl

@[simp] theorem Image.codeRange_hi (img : Image) : img.codeRange.hi = img.base + 8 * img.code.length := rfl

/-- The code range of a legal image is a legal one. -/
theorem Params.wf_with_codeRange {p : Params} {img : Image} (hp : p.wf = true) (hi : img.wf p = true) :
    Params.wf { p with codeRange := img.codeRange } = true := by
  obtain ⟨hpos, hle, -⟩ := (Params.wf_iff p).1 hp
  obtain ⟨-, hhi, -⟩ := (Image.wf_iff p img).1 hi
  exact (Params.wf_iff _).2 ⟨hpos, hle, by simp, hhi⟩

end Sys2Proof

namespace Sys2Proof.Machine

/-! ## The state after loading (70_reset_and_hazards.md R340, R345) -/

section LoadImage
variable (p : Params) (img : Image)

@[simp] theorem loadImage_par : (loadImage p img).par = { p with codeRange := img.codeRange } := rfl
@[simp] theorem loadImage_pc : (loadImage p img).pc = p.resetPc := rfl
@[simp] theorem loadImage_pcWrapped : (loadImage p img).pcWrapped = false := rfl
@[simp] theorem loadImage_mem :
    (loadImage p img).mem = Memory.writeCells (Memory.writeWords p.endian [] img.base img.code) img.data := rfl

end LoadImage

section
variable {p : Params} {img : Image}

/-- The bytes of a code word: the data bytes, which are written after it, stand outside the code part. -/
theorem readBytes_loadImage (hi : img.wf p = true) {k : Nat} {w : Word} (hk : img.code[k]? = some w) :
    Memory.readBytes (loadImage p img).mem (img.base + 8 * k) 8 = disassemble p.endian 8 w := by
  obtain ⟨-, -, -, -, hdata⟩ := (Image.wf_iff p img).1 hi
  obtain ⟨hlt, -⟩ := List.getElem?_eq_some_iff.1 hk
  rw [loadImage_mem, ← Memory.readBytes_writeWords p.endian [] img.base img.code k w hk]
  refine Memory.readBytes_congr _ _ fun x h1 h2 => Memory.read_writeCells_outside _ _ _ fun c hc => ?_
  obtain ⟨-, hout⟩ := hdata c hc
  simp only [Image.codeRange_lo, Image.codeRange_hi] at hout
  omega

/-- A code word stands at its address in the byte order of the run (20_memory.md R41). -/
theorem bytesAt_loadImage (hi : img.wf p = true) {k : Nat} {w : Word} (hk : img.code[k]? = some w) :
    BytesAt (loadImage p img) (img.base + 8 * k) .b8 w := by
  have h := bytesAt_readBytes (loadImage p img) (img.base + 8 * k) .b8
  rwa [readBytes_loadImage hi hk, loadImage_par, assemble_disassemble] at h

/-- The fetch at the address of a code word reads that word: the address is aligned and its 8 bytes lie in memory. -/
theorem fetchWord_loadImage (hp : p.wf = true) (hi : img.wf p = true) {k : Nat} {w : Word} (hk : img.code[k]? = some w) :
    fetchWord (loadImage p img) (BitVec.ofNat 64 (img.base + 8 * k)) = .ok w := by
  obtain ⟨-, hsize, -⟩ := (Params.wf_iff p).1 hp
  obtain ⟨halign, hhi, -⟩ := (Image.wf_iff p img).1 hi
  obtain ⟨hlt, -⟩ := List.getElem?_eq_some_iff.1 hk
  rw [Image.codeRange_hi] at hhi
  have haddr : (BitVec.ofNat 64 (img.base + 8 * k)).toNat = img.base + 8 * k := by
    rw [BitVec.toNat_ofNat, Nat.mod_eq_of_lt (by omega)]
  apply fetchWord_of_bytesAt
  · omega
  · rw [haddr, loadImage_par]
    show img.base + 8 * k + 8 ≤ p.memSize
    omega
  · rw [haddr]
    exact bytesAt_loadImage hi hk

/-- Loading writes inside memory only, from an empty one, and `pc` has not advanced. -/
theorem loadImage_inv (hp : p.wf = true) (hi : img.wf p = true) : (loadImage p img).Inv := by
  obtain ⟨-, hhi, -, -, hdata⟩ := (Image.wf_iff p img).1 hi
  refine ⟨?canonical, ?below, Params.wf_with_codeRange hp hi, by simp⟩
  case canonical => exact Memory.wf_writeCells _ (Memory.wf_writeWords _ _ _ rfl)
  case below =>
    refine Memory.below_writeCells _ (Memory.below_writeWords _ _ (by simp) hhi) fun c hc => ?_
    obtain ⟨hlt, -⟩ := hdata c hc
    exact hlt

end

/-- Settles O18: the code words and the data bytes in memory, the code range, `pc` and the invariant. -/
theorem loadedImageIsInMemory : Obligations.LoadedImageIsInMemory := by
  intro p img hp hi
  obtain ⟨-, -, hlo, hpc, -⟩ := (Image.wf_iff p img).1 hi
  exact ⟨fun _ _ => fetchWord_loadImage hp hi, Memory.read_writeCells _ img.data, rfl, loadImage_pc p img, hlo, hpc,
    loadImage_inv hp hi⟩

end Sys2Proof.Machine
